-- ==== Sys2Proof/Word.lean ====
section
/-!
DEFINITION. The port words of the block (R8 and R70 of the spec) and nothing else.
-/

namespace Sys2Proof

/-- Opcode field `op` of a command word: 8 bits (R8). -/
abbrev Opcode := BitVec 8

/-- Index operand `a`: 32 bits, `IW` of R8. -/
abbrev IndexWord := BitVec 32

/-- Data operand `b` and result `res`: 64 bits, `XW` of R8. -/
abbrev DataWord := BitVec 64

/-- Fault cause: 4 bits (R8). -/
abbrev CauseWord := BitVec 4

/-- A whole command word, format `CMD104` (R70). -/
abbrev CmdWord := BitVec 104

/-- A whole response word, format `RSP69` (R74). -/
abbrev RspWord := BitVec 69

end Sys2Proof
end

