-- ==== Sys2Proof/Syntax.lean ====
section
/-!
DEFINITION. The commands of the block: `Instr`, one constructor per row of spec/opcode_table.json (R72), and `Asm`,
the assembler forms of R86 with the pseudo-instructions of R87.
-/

namespace Sys2Proof

/-- A command with the operands it uses (R72). An operand a command does not use is no part of it (R73). The fields
carry the port's widths (R71), so every value of this type is an encodable command: the spec reserves no operand
value, and a value out of range for the command is a fault when it is executed. -/
inductive Instr where
  /-- `NOP` (R176). -/
  | nop
  /-- `CLR` (R177). -/
  | clr
  /-- `RDSR r`: `a` is the register number (R178). -/
  | rdsr (r : IndexWord)
  /-- `STS i, v`: `a` is the cell index, `b` the value (R179). -/
  | sts (i : IndexWord) (v : DataWord)
  /-- `LDS i`: `a` is the cell index (R180). -/
  | lds (i : IndexWord)
  /-- `BWRITE w, v`: `a` is the field width, `b` the field value (R101). -/
  | bwrite (w : IndexWord) (v : DataWord)
  /-- `BREAD w`: `a` is the field width (R104). -/
  | bread (w : IndexWord)
  /-- `BPACK` (R107). -/
  | bpack
  /-- `ENC l, h`: `a` is the low index, `b` the high index, 64 bits wide (R123). -/
  | enc (l : IndexWord) (h : DataWord)
  /-- `DEC l, h`: `a` is the low index, `b` the high index, 64 bits wide (R129). -/
  | dec (l : IndexWord) (h : DataWord)
  /-- `BUILD n`: `a` is the length (R152). -/
  | build (n : IndexWord)
  /-- `INVERT n`: `a` is the length (R155). -/
  | invert (n : IndexWord)
  /-- `MAP e`: `b` is the signed residual (R164). -/
  | map (e : DataWord)
  /-- `UNMAP n`: `b` is the mapped value (R165). -/
  | unmap (n : DataWord)
  /-- `STE i, e`: `a` is the cell index, `b` the signed residual (R166). -/
  | ste (i : IndexWord) (e : DataWord)
  /-- `LDE i`: `a` is the cell index (R168). -/
  | lde (i : IndexWord)
deriving DecidableEq, Repr

/-- One assembler line of R86 after reading its literals: the operands are the integers written, so an operand may
be out of range. The last three are the pseudo-instructions of R87. -/
inductive Asm where
  | nop
  | clr
  | rdsr (r : Int)
  | sts (i v : Int)
  | lds (i : Int)
  | bwrite (w v : Int)
  | bread (w : Int)
  | bpack
  | enc (l h : Int)
  | dec (l h : Int)
  | build (n : Int)
  | invert (n : Int)
  | map (e : Int)
  | unmap (n : Int)
  | ste (i e : Int)
  | lde (i : Int)
  /-- `BPUTB v`: append one payload byte. -/
  | bputb (v : Int)
  /-- `BGETB`: consume one payload byte. -/
  | bgetb
  /-- `RDSTATUS`: read `STATUS`. -/
  | rdstatus
deriving DecidableEq, Repr

end Sys2Proof
end

