-- ==== Sys2Proof/WellFormed.lean ====
section
/-!
DEFINITION. Which assembler lines denote a command word (R86). `Instr` needs no such check: its fields carry the
port's widths, and the spec reserves no operand value (R71, R73).
-/

namespace Sys2Proof

/-- The operand `a` of CMD104 holds it: an unsigned 32-bit literal (R71). -/
def fitsA (x : Int) : Bool := decide (0 ≤ x ∧ x < 2 ^ 32)

/-- The operand `b` of CMD104 holds it as an unsigned 64-bit literal (R71). -/
def fitsB (x : Int) : Bool := decide (0 ≤ x ∧ x < 2 ^ 64)

/-- The signed operand `b` of MAP and STE: an unsigned 64-bit literal or a negative one down to `-2 ^ 63`, the only
place where R86 allows a leading minus. -/
def fitsSignedB (x : Int) : Bool := decide (-2 ^ 63 ≤ x ∧ x < 2 ^ 64)

/-- The operands of an assembler line fit the fields they are written into (R86, R71). -/
def Asm.wellFormed : Asm → Bool
  | .nop | .clr | .bpack | .bgetb | .rdstatus => true
  | .rdsr r => fitsA r
  | .sts i v => fitsA i && fitsB v
  | .lds i => fitsA i
  | .bwrite w v => fitsA w && fitsB v
  | .bread w => fitsA w
  | .enc l h => fitsA l && fitsB h
  | .dec l h => fitsA l && fitsB h
  | .build n => fitsA n
  | .invert n => fitsA n
  | .map e => fitsSignedB e
  | .unmap n => fitsB n
  | .ste i e => fitsA i && fitsSignedB e
  | .lde i => fitsA i
  | .bputb v => fitsB v

end Sys2Proof
end

