-- ==== Sys2Proof/Decode.lean ====
section
/-!
DEFINITION. From a command word to a command and back (R70 to R73, R79), and the translation of an assembler line
(R86, R87). The port carries the 104 bits in parallel, so the word has no byte order (R53).
-/

namespace Sys2Proof

/-- Field `op`: bits 103:96 (R70). -/
def cmdOp (w : CmdWord) : Opcode := w.extractLsb' 96 8

/-- Field `a`: bits 95:64 (R70). -/
def cmdA (w : CmdWord) : IndexWord := w.extractLsb' 64 32

/-- Field `b`: bits 63:0 (R70). -/
def cmdB (w : CmdWord) : DataWord := w.extractLsb' 0 64

/-- The word `op ‖ a ‖ b` (R70). -/
def cmdWord (op : Opcode) (a : IndexWord) (b : DataWord) : CmdWord := (op ++ a ++ b : BitVec 104)

/-- The sixteen opcodes of R72, in its order. -/
def definedOpcodes : List Opcode :=
  [0x00#8, 0x01#8, 0x02#8, 0x03#8, 0x04#8, 0x10#8, 0x11#8, 0x12#8, 0x20#8, 0x21#8, 0x30#8, 0x31#8,
    0x40#8, 0x41#8, 0x42#8, 0x43#8]

/-- Why a word is no command. -/
inductive DecodeReject where
  /-- `op` is not one of the sixteen opcodes of R72 (R79). -/
  | illegalOpcode (op : Opcode)
deriving DecidableEq, Repr

/-- The command of an opcode and its operand fields. A command takes only the fields it uses (R72, R73). -/
def decodeFields (op : Opcode) (a : IndexWord) (b : DataWord) : Except DecodeReject Instr :=
  if op = 0x00#8 then .ok .nop
  else if op = 0x01#8 then .ok .clr
  else if op = 0x02#8 then .ok (.rdsr a)
  else if op = 0x03#8 then .ok (.sts a b)
  else if op = 0x04#8 then .ok (.lds a)
  else if op = 0x10#8 then .ok (.bwrite a b)
  else if op = 0x11#8 then .ok (.bread a)
  else if op = 0x12#8 then .ok .bpack
  else if op = 0x20#8 then .ok (.enc a b)
  else if op = 0x21#8 then .ok (.dec a b)
  else if op = 0x30#8 then .ok (.build a)
  else if op = 0x31#8 then .ok (.invert a)
  else if op = 0x40#8 then .ok (.map b)
  else if op = 0x41#8 then .ok (.unmap b)
  else if op = 0x42#8 then .ok (.ste a b)
  else if op = 0x43#8 then .ok (.lde a)
  else .error (.illegalOpcode op)

/-- The decoder, on any word. -/
def decode (w : CmdWord) : Except DecodeReject Instr := decodeFields (cmdOp w) (cmdA w) (cmdB w)

/-- The opcode of a command (R72). -/
def Instr.opcode : Instr → Opcode
  | .nop => 0x00#8
  | .clr => 0x01#8
  | .rdsr _ => 0x02#8
  | .sts _ _ => 0x03#8
  | .lds _ => 0x04#8
  | .bwrite _ _ => 0x10#8
  | .bread _ => 0x11#8
  | .bpack => 0x12#8
  | .enc _ _ => 0x20#8
  | .dec _ _ => 0x21#8
  | .build _ => 0x30#8
  | .invert _ => 0x31#8
  | .map _ => 0x40#8
  | .unmap _ => 0x41#8
  | .ste _ _ => 0x42#8
  | .lde _ => 0x43#8

/-- The word of a command with `ua` and `ub` in the operand fields the command does not use (R73). -/
def encodeWith (i : Instr) (ua : IndexWord) (ub : DataWord) : CmdWord :=
  match i with
  | .nop => cmdWord i.opcode ua ub
  | .clr => cmdWord i.opcode ua ub
  | .rdsr r => cmdWord i.opcode r ub
  | .sts c v => cmdWord i.opcode c v
  | .lds c => cmdWord i.opcode c ub
  | .bwrite w v => cmdWord i.opcode w v
  | .bread w => cmdWord i.opcode w ub
  | .bpack => cmdWord i.opcode ua ub
  | .enc l h => cmdWord i.opcode l h
  | .dec l h => cmdWord i.opcode l h
  | .build n => cmdWord i.opcode n ub
  | .invert n => cmdWord i.opcode n ub
  | .map e => cmdWord i.opcode ua e
  | .unmap n => cmdWord i.opcode ua n
  | .ste c e => cmdWord i.opcode c e
  | .lde c => cmdWord i.opcode c ub

/-- The encoder: an assembler writes zero in the unused fields (R73). -/
def encode (i : Instr) : CmdWord := encodeWith i 0 0

/-- The command word whose bits are `w` as the opcode table numbers them: the command port carries ONE word of 104
bits, so the table's bit `k` is bit `k` of it; the bits above `nbits` are zero. -/
def tableWord (nbits w : Nat) : CmdWord := BitVec.ofNat 104 (w % 2 ^ nbits)

/-- The command the decoder reads from a word in the table's numbering. A word longer than the port is none. -/
def decodeTableWord (nbits w : Nat) : Option Instr :=
  if nbits ≤ 104 then
    match decode (tableWord nbits w) with
    | .ok i => some i
    | .error _ => none
  else none

/-- The command an assembler line denotes (R86); the pseudo-instructions are the exact synonyms of R87. -/
def assemble (x : Asm) : Option Instr :=
  if x.wellFormed then
    match x with
    | .nop => some .nop
    | .clr => some .clr
    | .rdsr r => some (.rdsr (BitVec.ofInt 32 r))
    | .sts i v => some (.sts (BitVec.ofInt 32 i) (BitVec.ofInt 64 v))
    | .lds i => some (.lds (BitVec.ofInt 32 i))
    | .bwrite w v => some (.bwrite (BitVec.ofInt 32 w) (BitVec.ofInt 64 v))
    | .bread w => some (.bread (BitVec.ofInt 32 w))
    | .bpack => some .bpack
    | .enc l h => some (.enc (BitVec.ofInt 32 l) (BitVec.ofInt 64 h))
    | .dec l h => some (.dec (BitVec.ofInt 32 l) (BitVec.ofInt 64 h))
    | .build n => some (.build (BitVec.ofInt 32 n))
    | .invert n => some (.invert (BitVec.ofInt 32 n))
    | .map e => some (.map (BitVec.ofInt 64 e))
    | .unmap n => some (.unmap (BitVec.ofInt 64 n))
    | .ste i e => some (.ste (BitVec.ofInt 32 i) (BitVec.ofInt 64 e))
    | .lde i => some (.lde (BitVec.ofInt 32 i))
    | .bputb v => some (.bwrite 8 (BitVec.ofInt 64 v))
    | .bgetb => some (.bread 8)
    | .rdstatus => some (.rdsr 0)
  else none

end Sys2Proof
end

