-- ==== Sys2Proof/Config.lean ====
section
/-!
DEFINITION. What one implementation of the block fixes (the three parameters of R7), and the free values: what
the spec leaves unspecified and a machine nevertheless produces (93_implementation_defined.md, U1 and U2).
-/

namespace Sys2Proof

/-- The three parameters of an implementation (R7). They are plain numbers here; `Params.Valid` is the range R7
gives them. -/
structure Params where
  /-- `VW`, the width of a cell, of a cumulative value and of a code field, in bits. -/
  vw : Nat
  /-- `NMAX`, the number of cells of the sequence store. -/
  nmax : Nat
  /-- `BCAP`, the capacity of the bit buffer in bits. -/
  bcap : Nat
deriving DecidableEq, Repr

/-- The ranges of R7. A value outside them is not a configuration of the block (U15). -/
abbrev Params.Valid (p : Params) : Prop :=
  (1 ≤ p.vw ∧ p.vw ≤ 64) ∧ (1 ≤ p.nmax ∧ p.nmax ≤ 2 ^ 32 - 1) ∧
    (p.bcap % 8 = 0 ∧ 8 ≤ p.bcap ∧ p.bcap ≤ 2 ^ 64 - 8)

namespace Config

/-- The parameters `State.reset` takes: `VW = 64` is the reference value of R7; `NMAX = 16` and `BCAP = 256` are
those of 95_test_vectors.md section 2 (DESIGN CHOICE, unsafe: entry 2; the statements quantify over all
parameters). -/
def referenceParams : Params := { vw := 64, nmax := 16, bcap := 256 }

/-- FREE VALUE (U1, R40): `freeCell tick i` is what cell `i` holds for the command with number `tick` when no
command of the session has written it. The operation that reads a cell brings it below `2 ^ VW` (entries 3, 4). -/
opaque freeCell : Nat → Nat → Nat

/-- FREE VALUE (U2, R214): the content of the bit buffer after a fault of the command with number `tick`, before
the capacity limit (entry 7). -/
opaque freeBits : Nat → List Bool

/-- FREE VALUE (U2, R214): the read position after a fault of the command with number `tick`, before it is brought
within `0 .. WP` (entry 7). -/
opaque freeReadPos : Nat → Nat

end Config

end Sys2Proof
end

