-- ==== Sys2Proof/Machine/State.lean ====
section
/-!
DEFINITION. The state of the block, as plain data (10_state.md), the reasons a step can stop, and the state after
reset (R40, R41, R240).
-/

namespace Sys2Proof.Machine

/-- The eight causes of a fault (R211). Codes 9 to 15 are reserved and never generated (U6). -/
inductive Cause where
  | illegal
  | badarg
  | range
  | value
  | underflow
  | capacity
  | order
  | badcode
deriving DecidableEq, Repr

/-- The response word of R74, by its fields. -/
structure Response where
  /-- 1 when the command faulted or was refused. -/
  fault : Bool
  /-- The cause code when `fault` is 1, else 0. -/
  cause : CauseWord
  /-- The result when `fault` is 0, else 0. -/
  res : DataWord
deriving DecidableEq, Repr

/-- What the host presents at the block's input ports in one transaction (R76): a command on the command port, or
the reset input. -/
inductive HostInput where
  | command (w : CmdWord)
  | rst
deriving DecidableEq, Repr

/-- The sequence store as (index, value) pairs, listing the cells the session has written. A cell no command of the
session has written is not listed and holds no specified value (R40). The unit is one whole cell: a cell has no
bytes (R53). -/
abbrev Memory := List (Nat × Nat)

/-- The whole state of the block. The inventory gives the rule of each field. -/
structure State where
  /-- `VW`, `NMAX`, `BCAP`, read as `CFG_VW`, `CFG_NMAX`, `CFG_BCAP` (R7, R28). -/
  cfg : Params
  /-- `SEQ` (R30). -/
  seq : Memory
  /-- `BITS[0 .. WP-1]` in stream order (R31); `WP` is its length. -/
  bits : List Bool
  /-- `RP`, the number of bits consumed (R31). -/
  rp : Nat
  /-- `FAULT`, the sticky flag (R23). -/
  fault : Bool
  /-- `CAUSE` (R25). -/
  cause : CauseWord
  /-- `FINFO` (R27). -/
  finfo : DataWord
  /-- `STK`, the work stack of ENC and DEC, top first (R33). -/
  stk : List (Nat × Nat)
  /-- The command in flight: its `op`, `a`, `b` between acceptance and response (R35). -/
  inFlight : Option CmdWord
  /-- The response port: the response the latest transaction produced, `none` while `rsp_valid` is 0 (R74, R76). -/
  rsp : Option Response
  /-- What the host is still going to present at the input ports, in order (R22, R76). -/
  host : List HostInput
  /-- THE MODEL'S OWN field: the number the free values of the current command are drawn with (entry 5). -/
  freeTick : Nat
deriving DecidableEq, Repr

/-- Why the machine stops. The block's own faults are no stop: they are next states (R214). -/
inductive Fault where
  /-- Raised by `step` alone, in a state whose parameters lie outside the ranges of R7: "not a configuration", "The
  spec does not describe such a block" (U15). Safe: the model stops where the spec describes no machine. -/
  | notAConfiguration
deriving DecidableEq, Repr

/-- Why an instruction has no meaning. Nothing of this model answers with one: a command the block refuses (R78) is
a next state with a response. -/
inductive Refusal where
  /-- For an arm of `exec` whose instruction has no meaning yet. No arm is of this kind. Safe. -/
  | notModelled (mnemonic : String)
deriving DecidableEq, Repr

/-- The state after reset of a block with the parameters `p` (R40, R41, R240): no cell has a specified value, the bit
buffer is empty, no fault, no command in flight, no response. -/
def State.resetWith (p : Params) : State :=
  { cfg := p, seq := [], bits := [], rp := 0, fault := false, cause := 0, finfo := 0, stk := [],
    inFlight := none, rsp := none, host := [], freeTick := 0 }

/-- The machine right after reset, with the reference parameters (entry 2). -/
def State.reset : State := State.resetWith Config.referenceParams

end Sys2Proof.Machine
end

