-- ==== Sys2Proof/Machine/Flags.lean ====
section
/-!
DEFINITION. The block's one flag and its cause as the host sees them: the cause codes (R211), the register `STATUS`
(R26) and the response word (R74). There is no other flag: an arithmetic overflow is a fault (R23, R45 (j)).
-/

namespace Sys2Proof.Machine

/-- The 4-bit code of a cause (R211). -/
def causeCode : Cause → CauseWord
  | .illegal => 1
  | .badarg => 2
  | .range => 3
  | .value => 4
  | .underflow => 5
  | .capacity => 6
  | .order => 7
  | .badcode => 8

/-- `STATUS = zext_64(CAUSE ‖ 0b000 ‖ FAULT)` (R26). -/
def statusWord (cause : CauseWord) (fault : Bool) : DataWord :=
  (cause ++ 0#3 ++ BitVec.ofBool fault : BitVec 8).setWidth 64

/-- The response word `fault[68] ‖ cause[67:64] ‖ res[63:0]` (R74). -/
def rspWord (r : Response) : RspWord := (BitVec.ofBool r.fault ++ r.cause ++ r.res : BitVec 69)

/-- The response of a command that ends normally (R12, R74). -/
def okResponse (res : DataWord) : Response := { fault := false, cause := 0, res := res }

/-- The response of a command that faulted or was refused, with cause `c` (R74, R78, R214). -/
def faultResponse (c : CauseWord) : Response := { fault := true, cause := c, res := 0 }

/-- The registers RDSR reads in the faulted state: `STATUS`, `FINFO` and the three parameters, not `WP` and `RP`
(R78, R178). -/
def readableWhenFaulted (r : Nat) : Bool := r == 0 || r == 1 || r == 4 || r == 5 || r == 6

end Sys2Proof.Machine
end

