-- ==== Sys2Proof/Machine/Operands.lean ====
section
/-!
DEFINITION. The pure functions of the spec on integers and bit strings: operand forms and conversions (R10, R71),
`bitlen`, `clog2`, `tobits`, `frombits` (R11), the sequence predicates (R13), the coder's midpoint and field width
(R121, R122), the mapper (R161, R162) and the running sums (R150). Arithmetic is exact (R9).
-/

namespace Sys2Proof.Machine

/-- `zext_64` of a 32-bit operand (R10): an index, width, length or register number as a 64-bit word. -/
def zextA (a : IndexWord) : DataWord := a.setWidth 64

/-- `zext_64` of an unsigned integer that fits 64 bits (R10). -/
def zextNat (v : Nat) : DataWord := BitVec.ofNat 64 v

/-- `sint_64`: the signed integer a 64-bit word denotes (R10). -/
def sint64 (w : DataWord) : Int := w.toInt

/-- `sext_64`: the 64-bit two's-complement word of a signed integer (R10). -/
def sext64 (v : Int) : DataWord := BitVec.ofInt 64 v

/-- `bitlen`: the number of bits in the binary representation, 0 for 0 (R11). -/
def bitlen (x : Nat) : Nat := if x = 0 then 0 else Nat.log2 x + 1

/-- `clog2(R) = ceil(log2 R)` for `R >= 1`, over the integers: `bitlen(R - 1)` (R11). -/
def clog2 (r : Nat) : Nat := bitlen (r - 1)

/-- `tobits(w, v)`: the `w`-bit representation of `v`, most significant bit first (R11, R50). -/
def tobits : Nat → Nat → List Bool
  | 0, _ => []
  | w + 1, v => v.testBit w :: tobits w v

/-- `frombits`: the unsigned integer of a bit string, most significant bit first (R11). -/
def frombits (bs : List Bool) : Nat := bs.foldl (fun acc b => 2 * acc + b.toNat) 0

/-- `Nondecreasing(f, l, h)` (R13). -/
abbrev Nondecreasing (f : Nat → Nat) (l h : Nat) : Prop := ∀ i, l < i → i ≤ h → f (i - 1) ≤ f i

/-- The least index among `i+1 .. i+k` whose value lies below its predecessor's, if there is one:
`firstDescent f (h - l) l` is `FirstDescent(f, l, h)` (R13). -/
def firstDescent (f : Nat → Nat) : Nat → Nat → Option Nat
  | 0, _ => none
  | k + 1, i => if f (i + 1) < f i then some (i + 1) else firstDescent f k (i + 1)

/-- The midpoint of a node, formed without the sum `l + h` (R121). -/
def mid (l h : Nat) : Nat := l + (h - l) / 2

/-- The field width of a node with endpoint values `lo <= hi`, formed without `R = hi - lo + 1` (R122). -/
def gw (lo hi : Nat) : Nat := bitlen (hi - lo)

/-- `map(e)` over the integers (R161): `2e` if `e >= 0`, else `2|e| - 1`. -/
def mapInt (e : Int) : Nat := if 0 ≤ e then 2 * e.natAbs else 2 * e.natAbs - 1

/-- `unmap(n)` over the nonnegative integers (R162): `n / 2` if `n` is even, else `-(n + 1) / 2`. -/
def unmapNat (n : Nat) : Int := if n % 2 = 0 then (n / 2 : Nat) else -((n + 1) / 2 : Nat)

/-- The number of zero bits that bring a write position to a byte boundary (R84, R107). -/
def padding (wp : Nat) : Nat := (8 - wp % 8) % 8

/-- `build(N)[i]`: the prefix sum `N[0] + ... + N[i]` (R150). -/
def prefixSum (f : Nat → Nat) : Nat → Nat
  | 0 => f 0
  | i + 1 => prefixSum f i + f (i + 1)

/-- `invert(C)[i]`: the first difference (R150). -/
def firstDiff (f : Nat → Nat) (i : Nat) : Nat := if i = 0 then f 0 else f i - f (i - 1)

end Sys2Proof.Machine
end

