-- ==== Sys2Proof/Machine/Ops.lean ====
section
/-!
DEFINITION. The shared operations over the state: the sequence store (R12, R30), the two bit-buffer primitives
(R100), the status registers (R24), the ends of a command (`respond`, refusal, fault entry: R12, R78, R214), the
ways out of the faulted state (CLR and reset: R177, R240), and the acceptance of a command (R77).
-/

namespace Sys2Proof.Machine

/-! ### The sequence store -/

/-- The value written into a cell this session, `none` for a cell that holds no specified value (R40). -/
def Memory.read : Memory → Nat → Option Nat
  | [], _ => none
  | (k, v) :: rest, i => if k = i then some v else Memory.read rest i

/-- Writes one cell and keeps the indices strictly rising. -/
def Memory.write : Memory → Nat → Nat → Memory
  | [], i, v => [(i, v)]
  | (k, x) :: rest, i, v =>
    if i < k then (i, v) :: (k, x) :: rest
    else if i = k then (i, v) :: rest
    else (k, x) :: Memory.write rest i v

/-- The canonical form: indices strictly rising. An unlisted cell reads as a free value, so no entry can equal it. -/
def Memory.wf : Memory → Bool
  | [] => true
  | [_] => true
  | (k, _) :: (k', x') :: rest => decide (k < k') && Memory.wf ((k', x') :: rest)

/-- What a cell that the session has not written holds for the command with number `tick`: a free value of `VW` bits
(U1; entries 3, 4). -/
def unwrittenCell (p : Params) (tick i : Nat) : Nat := Config.freeCell tick i % 2 ^ p.vw

/-- `SEQ[i]` (R12, R30, R40). -/
def State.cellAt (s : State) (i : Nat) : Nat :=
  match Memory.read s.seq i with
  | some v => v
  | none => unwrittenCell s.cfg s.freeTick i

/-- `SEQ[i] <- v`; the callers hold `v < 2 ^ VW` (R12). -/
def State.setCell (s : State) (i v : Nat) : State := { s with seq := Memory.write s.seq i v }

/-! ### The bit buffer -/

/-- `WP`, the number of bits appended (R31). -/
def State.wp (s : State) : Nat := s.bits.length

/-- The unread bits `BITS[RP .. WP-1]` (R66). -/
def State.unread (s : State) : List Bool := s.bits.drop s.rp

/-- A fault about to be entered: its cause and the word for `FINFO` (R212). -/
structure Raise where
  cause : Cause
  info : DataWord
deriving DecidableEq, Repr

/-- `PutField(w, v)` (R100): appends `tobits(w, v)` at `WP`, or CAPACITY(w). -/
def State.putField (s : State) (w v : Nat) : Except Raise State :=
  if s.cfg.bcap < s.wp + w then .error ⟨.capacity, zextNat w⟩
  else .ok { s with bits := s.bits ++ tobits w v }

/-- `GetField(w)` (R100): consumes `w` bits at `RP`, or UNDERFLOW(w). -/
def State.getField (s : State) (w : Nat) : Except Raise (State × Nat) :=
  if s.wp < s.rp + w then .error ⟨.underflow, zextNat w⟩
  else .ok ({ s with rp := s.rp + w }, frombits (s.unread.take w))

/-! ### The status registers -/

/-- `SR[r]` (R24, R26, R27, R28); numbers 7 and above do not exist. -/
def State.readSr (s : State) (r : Nat) : Option DataWord :=
  match r with
  | 0 => some (statusWord s.cause s.fault)
  | 1 => some s.finfo
  | 2 => some (zextNat s.wp)
  | 3 => some (zextNat s.rp)
  | 4 => some (zextNat s.cfg.vw)
  | 5 => some (zextNat s.cfg.nmax)
  | 6 => some (zextNat s.cfg.bcap)
  | _ => none

/-! ### How a command ends -/

/-- `respond(res)`: the command ends normally (R12, R74). -/
def State.respond (s : State) (res : DataWord) : State :=
  { s with rsp := some (okResponse res), inFlight := none }

/-- Refusal in the faulted state: the response carries the sticky cause, and nothing else changes (R78). -/
def State.refuse (s : State) : State :=
  { s with rsp := some (faultResponse s.cause), inFlight := none }

/-- What the bit buffer holds after a fault: unspecified, within the capacity (R214, R31; entry 7). -/
def State.bitsAfterFault (s : State) : List Bool := (Config.freeBits s.freeTick).take s.cfg.bcap

/-- Fault entry, `raise X(info)` (R214): `FAULT`, `CAUSE` and `FINFO` are written; `SEQ`, `BITS`, `WP` and `RP`
become unspecified, within the sizes R31 gives them (entry 7); the work stack is emptied; the response carries the
cause. -/
def State.raise (s : State) (c : Cause) (info : DataWord) : State :=
  { s with
    fault := true
    cause := causeCode c
    finfo := info
    seq := []
    bits := s.bitsAfterFault
    rp := Config.freeReadPos s.freeTick % (s.bitsAfterFault.length + 1)
    stk := []
    rsp := some (faultResponse (causeCode c))
    inFlight := none }

/-- Runs a command under the dispatch of R78: refused in the faulted state, executed otherwise. -/
def runCommand (f : State → State) (s : State) : Host.Outcome State Fault Refusal :=
  .next (if s.fault then s.refuse else f s)

/-! ### The ways out of the faulted state -/

/-- CLR's effect on the state (R177): the return from the faulted state, and the start of a new session. -/
def State.clear (s : State) : State :=
  { s with seq := [], bits := [], rp := 0, fault := false, cause := 0, finfo := 0, stk := [] }

/-- A transaction with `rst = 1` (R240, R242): the reset state, whatever was in flight, and no response. The
parameters are the block's own, `rest` is what the host still presents, and the free values move on (entry 5). -/
def State.hardReset (s : State) (rest : List HostInput) : State :=
  { State.resetWith s.cfg with host := rest, freeTick := s.freeTick + 1 }

/-! ### Acceptance -/

/-- `cmd_ready`: no command is in flight (R77). -/
def State.cmdReady (s : State) : Bool := s.inFlight.isNone

/-- Acceptance of the command word `w`, the first thing the host presents (R77, R35). The free values of the
previous command are used up (entry 5). -/
def State.accept (s : State) (w : CmdWord) (rest : List HostInput) : State :=
  { s with inFlight := some w, rsp := none, host := rest, freeTick := s.freeTick + 1 }

/-- A transaction in which the host presents nothing: the block keeps all its state (R229), and the response pulse
is over (R77). -/
def State.idle (s : State) : State := { s with rsp := none }

/-- The command word to execute next and the state that holds it in flight. A command in flight goes first, since
`cmd_ready` is 0 and what the host presents is held (R77, U13). -/
def State.fetch (s : State) : Option (CmdWord × State) :=
  match s.inFlight with
  | some w => some (w, s)
  | none =>
    match s.host with
    | .command w :: rest => some (w, s.accept w rest)
    | _ => none

end Sys2Proof.Machine
end

