-- ==== Sys2Proof/Machine/Bitstream.lean ====
section
/-!
DEFINITION. The unit bitstream_buffer: BWRITE, BREAD, BPACK (40_bitstream.md).
-/

namespace Sys2Proof.Machine

/-- BWRITE (R101): the checks RANGE, VALUE, CAPACITY in this order, then one field is appended. -/
def execBwrite (w : IndexWord) (v : DataWord) (s : State) : Host.Outcome State Fault Refusal :=
  runCommand (fun u =>
    if u.cfg.vw < w.toNat then u.raise .range (zextA w)
    else if 2 ^ w.toNat ≤ v.toNat then u.raise .value (zextA w)
    else match u.putField w.toNat v.toNat with
      | .ok t => t.respond 0
      | .error e => u.raise e.cause e.info) s

/-- BREAD (R104): the checks RANGE, UNDERFLOW in this order, then one field is consumed. -/
def execBread (w : IndexWord) (s : State) : Host.Outcome State Fault Refusal :=
  runCommand (fun u =>
    if u.cfg.vw < w.toNat then u.raise .range (zextA w)
    else match u.getField w.toNat with
      | .ok (t, v) => t.respond (zextNat v)
      | .error e => u.raise e.cause e.info) s

/-- BPACK (R107): pads with zero bits to a byte boundary and gives the length in bytes. The append cannot fail,
because `BCAP` is a multiple of 8. -/
def execBpack (s : State) : Host.Outcome State Fault Refusal :=
  runCommand (fun u =>
    match u.putField (padding u.wp) 0 with
    | .ok t => t.respond (zextNat (t.wp / 8))
    | .error e => u.raise e.cause e.info) s

end Sys2Proof.Machine
end

