-- ==== Sys2Proof/Machine/Coder.lean ====
section
/-!
DEFINITION. The unit interpolative_coder: ENC and DEC (41_interpolative.md). The meanings run the explicit-stack form
of R128 on the work stack `STK` of the state. The recursive form of R123 and R129 and the pure function of R124 stand
beside them, for the statements: that they agree is a statement, not an assumption.
-/

namespace Sys2Proof.Machine

/-! ### The traversal -/

/-- What visiting one node does (R123, R129): the state after it and whether the node has children, or a fault. -/
abbrev Visit := Nat → Nat → State → Except Raise (State × Bool)

/-- The explicit-stack form of R128: pops nodes until the stack is empty, visits each, and pushes the children of a
node that has them, the right one first, so that the left one and its whole subtree come off before it. The first
argument after the visit bounds the number of nodes. -/
def coderLoop (visit : Visit) : Nat → State → Except Raise State
  | 0, s => .ok s
  | k + 1, s =>
    match s.stk with
    | [] => .ok s
    | (l, h) :: rest =>
      match visit l h { s with stk := rest } with
      | .error e => .error e
      | .ok (t, false) => coderLoop visit k t
      | .ok (t, true) => coderLoop visit k { t with stk := (l, mid l h) :: (mid l h, h) :: t.stk }

/-- The recursive form the spec writes for EncNode and DecNode (R123, R129): the node, then its left child, then its
right one. The first argument after the visit bounds the depth. It stands here for the statements. -/
def coderRec (visit : Visit) : Nat → Nat → Nat → State → Except Raise State
  | 0, _, _, s => .ok s
  | k + 1, l, h, s =>
    match visit l h s with
    | .error e => .error e
    | .ok (t, false) => .ok t
    | .ok (t, true) =>
      match coderRec visit k l (mid l h) t with
      | .error e => .error e
      | .ok u => coderRec visit k (mid l h) h u

/-- A number of nodes that a range `(l, h)` never exceeds: at most `2(h - l) - 1` are visited, and one for `l = h`
(R255). -/
def nodeBound (l h : Nat) : Nat := 2 * (h - l) + 1

/-! ### ENC -/

/-- One node of ENC (R123): nothing for a short range or equal bounds; else its field is appended and its children
follow. -/
def encNode : Visit := fun l h s =>
  if h - l ≤ 1 then .ok (s, false)
  else if s.cellAt h = s.cellAt l then .ok (s, false)
  else
    match s.putField (gw (s.cellAt l) (s.cellAt h)) (s.cellAt (mid l h) - s.cellAt l) with
    | .error e => .error e
    | .ok t => .ok (t, true)

/-- ENC's traversal on the work stack (R128). -/
def encLoop : Nat → State → Except Raise State := coderLoop encNode

/-- `EncNode` of R123. -/
def encRec : Nat → Nat → Nat → State → Except Raise State := coderRec encNode

/-- ENC (R123): the checks BADARG and ORDER in this order, then the code stream of the range is appended, field by
field; `h` is compared as a 64-bit number. -/
def execEnc (l : IndexWord) (h : DataWord) (s : State) : Host.Outcome State Fault Refusal :=
  runCommand (fun u =>
    if ¬(l.toNat ≤ h.toNat ∧ h.toNat < u.cfg.nmax) then u.raise .badarg (zextA l)
    else match firstDescent u.cellAt (h.toNat - l.toNat) l.toNat with
      | some i => u.raise .order (zextNat i)
      | none =>
        match encLoop (nodeBound l.toNat h.toNat) { u with stk := [(l.toNat, h.toNat)] } with
        | .ok t => t.respond (zextNat (t.wp - u.wp))
        | .error e => u.raise e.cause e.info) s

/-! ### DEC -/

/-- Writes `v` into `k` cells from cell `i` on, ascending: the fill of an equal-bounds range (R129). -/
def fillCells : Nat → Nat → Nat → State → State
  | 0, _, _, s => s
  | k + 1, i, v, s => fillCells k (i + 1) v (s.setCell i v)

/-- One node of DEC (R129): nothing for a short range; the interior is filled for equal bounds; else one field is
consumed and checked, the midpoint is written and the children follow. -/
def decNode : Visit := fun l h s =>
  if h - l ≤ 1 then .ok (s, false)
  else if s.cellAt h = s.cellAt l then .ok (fillCells (h - l - 1) (l + 1) (s.cellAt l) s, false)
  else
    match s.getField (gw (s.cellAt l) (s.cellAt h)) with
    | .error e => .error e
    | .ok (t, d) =>
      if s.cellAt h - s.cellAt l < d then .error ⟨.badcode, zextNat (mid l h)⟩
      else .ok (t.setCell (mid l h) (s.cellAt l + d), true)

/-- DEC's traversal on the work stack (R128). -/
def decLoop : Nat → State → Except Raise State := coderLoop decNode

/-- `DecNode` of R129. -/
def decRec : Nat → Nat → Nat → State → Except Raise State := coderRec decNode

/-- DEC (R129): the checks BADARG and ORDER in this order, then the cells strictly between `l` and `h` are rebuilt
from the bits at `RP`. -/
def execDec (l : IndexWord) (h : DataWord) (s : State) : Host.Outcome State Fault Refusal :=
  runCommand (fun u =>
    if ¬(l.toNat ≤ h.toNat ∧ h.toNat < u.cfg.nmax) then u.raise .badarg (zextA l)
    else if u.cellAt h.toNat < u.cellAt l.toNat then u.raise .order (zextNat h.toNat)
    else
      match decLoop (nodeBound l.toNat h.toNat) { u with stk := [(l.toNat, h.toNat)] } with
      | .ok t => t.respond (zextNat (t.rp - u.rp))
      | .error e => u.raise e.cause e.info) s

/-! ### The pure code stream, for the statements -/

/-- The fields (width, value) of the code stream of a range in pre-order (R80 to R82, R124); the first argument
bounds the depth. -/
def encFieldsAt (c : Nat → Nat) : Nat → Nat → Nat → List (Nat × Nat)
  | 0, _, _ => []
  | k + 1, l, h =>
    if h - l ≤ 1 then []
    else if c h = c l then []
    else
      (gw (c l) (c h), c (mid l h) - c l) ::
        (encFieldsAt c k l (mid l h) ++ encFieldsAt c k (mid l h) h)

/-- The fields of the code stream of the range `(l, h)`. A child is strictly shorter than its parent (R121), so
`h - l` bounds the depth. -/
def encFields (c : Nat → Nat) (l h : Nat) : List (Nat × Nat) := encFieldsAt c (h - l) l h

/-- The bits of a list of fields, laid end to end (R54, R80). -/
def fieldBits (fs : List (Nat × Nat)) : List Bool := fs.flatMap (fun f => tobits f.1 f.2)

/-- `EncBits(C, l, h)`, the pure function behind ENC (R124). -/
def encBits (c : Nat → Nat) (l h : Nat) : List Bool := fieldBits (encFields c l h)

/-- The sum of the widths of a list of fields. -/
def fieldsWidth (fs : List (Nat × Nat)) : Nat := (fs.map Prod.fst).sum

end Sys2Proof.Machine
end

