-- ==== Sys2Proof/Machine/Cumsum.lean ====
section
/-!
DEFINITION. The unit cumulative_sum_xform: BUILD and INVERT (42_cumsum.md).
-/

namespace Sys2Proof.Machine

/-- Cell 0 of a BUILD or INVERT of `n` cells: it keeps its value at acceptance and is written with it, so it is a cell
the command has written (R55, and `SEQ[0]` of R152 and R155); for `n = 0` and `n = 1` no cell changes (R153, R156). -/
def writeFirstCell (n : Nat) (s : State) : State :=
  if n ≤ 1 then s else s.setCell 0 (s.cellAt 0)

/-- BUILD's pass over `k` cells after cell `i`, ascending (R152): the sum is exact, and RANGE is raised at the first
index where it reaches `2 ^ VW`. -/
def buildLoop : Nat → Nat → State → Except Raise State
  | 0, _, s => .ok s
  | k + 1, i, s =>
    if 2 ^ s.cfg.vw ≤ s.cellAt i + s.cellAt (i + 1) then .error ⟨.range, zextNat (i + 1)⟩
    else buildLoop k (i + 1) (s.setCell (i + 1) (s.cellAt i + s.cellAt (i + 1)))

/-- BUILD (R152): BADARG, then prefix sums in place of cells `0 .. n-1`. -/
def execBuild (n : IndexWord) (s : State) : Host.Outcome State Fault Refusal :=
  runCommand (fun u =>
    if u.cfg.nmax < n.toNat then u.raise .badarg (zextA n)
    else match buildLoop (n.toNat - 1) 0 (writeFirstCell n.toNat u) with
      | .ok t => t.respond 0
      | .error e => u.raise e.cause e.info) s

/-- INVERT's pass from cell `k` down to cell 1 (R155): each cell is reduced by the old value of its predecessor. -/
def invertLoop : Nat → State → State
  | 0, s => s
  | k + 1, s => invertLoop k (s.setCell (k + 1) (s.cellAt (k + 1) - s.cellAt k))

/-- INVERT (R155): BADARG, ORDER, then first differences in place of cells `0 .. n-1`. -/
def execInvert (n : IndexWord) (s : State) : Host.Outcome State Fault Refusal :=
  runCommand (fun u =>
    if u.cfg.nmax < n.toNat then u.raise .badarg (zextA n)
    else match firstDescent u.cellAt (n.toNat - 1) 0 with
      | some i => u.raise .order (zextNat i)
      | none => (invertLoop (n.toNat - 1) (writeFirstCell n.toNat u)).respond 0) s

end Sys2Proof.Machine
end

