-- ==== Sys2Proof/Machine/Mapper.lean ====
section
/-!
DEFINITION. The unit signed_to_unsigned_mapper: MAP, UNMAP, STE, LDE (43_mapper.md).
-/

namespace Sys2Proof.Machine

/-- MAP (R164): no state changes, no fault. -/
def execMap (e : DataWord) (s : State) : Host.Outcome State Fault Refusal :=
  runCommand (fun u => u.respond (zextNat (mapInt (sint64 e)))) s

/-- UNMAP (R165): no state changes, no fault. -/
def execUnmap (n : DataWord) (s : State) : Host.Outcome State Fault Refusal :=
  runCommand (fun u => u.respond (sext64 (unmapNat n.toNat))) s

/-- STE (R166): stores a residual, mapped. -/
def execSte (i : IndexWord) (e : DataWord) (s : State) : Host.Outcome State Fault Refusal :=
  runCommand (fun u =>
    if u.cfg.nmax ≤ i.toNat then u.raise .badarg (zextA i)
    else if 2 ^ u.cfg.vw ≤ mapInt (sint64 e) then u.raise .range (zextA i)
    else (u.setCell i.toNat (mapInt (sint64 e))).respond 0) s

/-- LDE (R168): loads a cell, unmapped. -/
def execLde (i : IndexWord) (s : State) : Host.Outcome State Fault Refusal :=
  runCommand (fun u =>
    if u.cfg.nmax ≤ i.toNat then u.raise .badarg (zextA i)
    else u.respond (sext64 (unmapNat (u.cellAt i.toNat)))) s

end Sys2Proof.Machine
end

