-- ==== Sys2Proof/Machine/System.lean ====
section
/-!
DEFINITION. The system and access commands NOP, CLR, RDSR, STS, LDS (44_system.md), and the undefined opcodes (R79).
-/

namespace Sys2Proof.Machine

/-- NOP (R176): responds 0 in either state. -/
def execNop (s : State) : Host.Outcome State Fault Refusal := .next (s.respond 0)

/-- CLR (R177): a new session, in either state. -/
def execClr (s : State) : Host.Outcome State Fault Refusal := .next (s.clear.respond 0)

/-- RDSR (R178): in the faulted state only registers 0, 1, 4, 5, 6 are read, the others refused. -/
def execRdsr (r : IndexWord) (s : State) : Host.Outcome State Fault Refusal :=
  .next (if s.fault && !readableWhenFaulted r.toNat then s.refuse
    else match s.readSr r.toNat with
      | some v => s.respond v
      | none => s.raise .badarg (zextA r))

/-- STS (R179). -/
def execSts (i : IndexWord) (v : DataWord) (s : State) : Host.Outcome State Fault Refusal :=
  runCommand (fun u =>
    if u.cfg.nmax ≤ i.toNat then u.raise .badarg (zextA i)
    else if 2 ^ u.cfg.vw ≤ v.toNat then u.raise .range (zextA i)
    else (u.setCell i.toNat v.toNat).respond 0) s

/-- LDS (R180). -/
def execLds (i : IndexWord) (s : State) : Host.Outcome State Fault Refusal :=
  runCommand (fun u =>
    if u.cfg.nmax ≤ i.toNat then u.raise .badarg (zextA i)
    else u.respond (zextNat (u.cellAt i.toNat))) s

/-- An opcode that is none of the sixteen: ILLEGAL with the opcode, or refused in the faulted state (R78, R79). -/
def execUndefined (op : Opcode) (s : State) : Host.Outcome State Fault Refusal :=
  runCommand (fun u => u.raise .illegal (op.setWidth 64)) s

end Sys2Proof.Machine
end

