-- ==== Sys2Proof/Machine/Dispatch.lean ====
section
/-!
DEFINITION. One arm per command (R72). The faulted-state filter of R78 is in each meaning.
-/

namespace Sys2Proof.Machine

def exec (i : Instr) (s : State) : Host.Outcome State Fault Refusal :=
  match i with
  | .nop => Sys2Proof.Machine.execNop s
  | .clr => Sys2Proof.Machine.execClr s
  | .rdsr r => Sys2Proof.Machine.execRdsr r s
  | .sts c v => Sys2Proof.Machine.execSts c v s
  | .lds c => Sys2Proof.Machine.execLds c s
  | .bwrite w v => Sys2Proof.Machine.execBwrite w v s
  | .bread w => Sys2Proof.Machine.execBread w s
  | .bpack => Sys2Proof.Machine.execBpack s
  | .enc l h => Sys2Proof.Machine.execEnc l h s
  | .dec l h => Sys2Proof.Machine.execDec l h s
  | .build n => Sys2Proof.Machine.execBuild n s
  | .invert n => Sys2Proof.Machine.execInvert n s
  | .map e => Sys2Proof.Machine.execMap e s
  | .unmap n => Sys2Proof.Machine.execUnmap n s
  | .ste c e => Sys2Proof.Machine.execSte c e s
  | .lde c => Sys2Proof.Machine.execLde c s

end Sys2Proof.Machine
end

