-- ==== Sys2Proof/Machine/Step.lean ====
section
/-!
DEFINITION. One transaction of the block (R17, R56): a reset, a command from acceptance to response, or nothing.
-/

namespace Sys2Proof.Machine

/-- Executes an accepted command word: the command it decodes to, or the undefined opcode (R78). -/
def runWord (w : CmdWord) (s : State) : Host.Outcome State Fault Refusal :=
  match decode w with
  | .ok i => exec i s
  | .error (.illegalOpcode op) => execUndefined op s

/-- One transaction: `rst` overrides everything (R242); else the command in flight or the one presented is executed
to its response (R77); else the block is idle (R229). Parameters outside R7 describe no block (U15). -/
def step (s : State) : Host.Outcome State Fault Refusal :=
  if s.cfg.Valid then
    match s.host with
    | .rst :: rest => .next (s.hardReset rest)
    | _ =>
      match s.fetch with
      | some (w, t) => runWord w t
      | none => .next s.idle
  else .fault .notAConfiguration

/-- The host presents that command next, and the block is ready to accept it (entry 1). -/
def State.withFetchWord (s : State) (nbits w : Nat) : State :=
  { s with host := .command (tableWord nbits w) :: s.host, inFlight := none }

end Sys2Proof.Machine
end

