-- ==== Sys2Proof/Safety.lean ====
section
/-!
DEFINITION. What the statements speak of: the invariant of the block's state between transactions, the ways a command
can end, and what a command leaves unchanged.
-/

namespace Sys2Proof.Machine

/-- The invariant of the state between two transactions. -/
structure State.Inv (s : State) : Prop where
  /-- The parameters lie in the ranges of R7. -/
  cfg_valid : s.cfg.Valid
  /-- The store is in its canonical form. -/
  seq_wf : Memory.wf s.seq = true
  /-- Every written cell exists and holds a value below `2 ^ VW` (R30). -/
  seq_fits : ∀ p ∈ s.seq, p.1 < s.cfg.nmax ∧ p.2 < 2 ^ s.cfg.vw
  /-- `WP <= BCAP` (R31). -/
  wp_le : s.wp ≤ s.cfg.bcap
  /-- `RP <= WP` (R31). -/
  rp_le : s.rp ≤ s.wp
  /-- `CAUSE` and `FINFO` are 0 while `FAULT = 0` (R25, R27). -/
  clear_cause : s.fault = false → s.cause = 0 ∧ s.finfo = 0
  /-- `CAUSE` is one of the codes 1 to 8 while `FAULT = 1` (R25). -/
  sticky_cause : s.fault = true → ∃ c : Cause, s.cause = causeCode c
  /-- The work stack is empty (R33). -/
  stk_empty : s.stk = []
  /-- No command is in flight (R35). -/
  not_in_flight : s.inFlight = none

/-- The response of a state is normal, with result `res`, and no command is in flight (R12, R74). -/
def Answers (t : State) (res : DataWord) : Prop :=
  t.rsp = some { fault := false, cause := 0, res := res } ∧ t.inFlight = none

/-- `t` is `s` after fault entry with cause `c` and information `info` (R214): the fault registers and the response
say so, no cell holds a specified value, the stack is empty, and the parameters and the host are as before. Nothing
is said of `BITS`, `WP` and `RP`, which are unspecified. -/
def FaultEntered (s t : State) (c : Cause) (info : DataWord) : Prop :=
  t.fault = true ∧ t.cause = causeCode c ∧ t.finfo = info ∧
    t.rsp = some { fault := true, cause := causeCode c, res := 0 } ∧ t.inFlight = none ∧ t.stk = [] ∧
    (∀ j, Memory.read t.seq j = none) ∧ t.cfg = s.cfg ∧ t.host = s.host ∧ t.freeTick = s.freeTick

/-- `t` is `s` after the refusal of a command (R78): the response carries the sticky cause, and no state changes. -/
def RefusedIn (s t : State) : Prop :=
  t = { s with rsp := some { fault := true, cause := s.cause, res := 0 }, inFlight := none }

/-- Cell `j` is unchanged: whether it is written, and what it reads as. -/
def SameCell (s t : State) (j : Nat) : Prop :=
  Memory.read t.seq j = Memory.read s.seq j ∧ t.cellAt j = s.cellAt j

/-- The whole sequence store is unchanged. -/
def SameCells (s t : State) : Prop := ∀ j, SameCell s t j

/-- `BITS`, `WP` and `RP` are unchanged. -/
def SameBuffer (s t : State) : Prop := t.bits = s.bits ∧ t.wp = s.wp ∧ t.rp = s.rp

/-- The parameters, the fault registers, the work stack, the host's pending inputs and the model's own counter are
unchanged. -/
def SameControl (s t : State) : Prop :=
  t.cfg = s.cfg ∧ t.fault = s.fault ∧ t.cause = s.cause ∧ t.finfo = s.finfo ∧ t.stk = s.stk ∧
    t.host = s.host ∧ t.freeTick = s.freeTick

/-- Nothing but the response changes. -/
def NoStateChange (s t : State) : Prop := SameControl s t ∧ SameBuffer s t ∧ SameCells s t

/-- `exec` answers a next state with fault entry. -/
def RaisesOn (i : Instr) (s : State) (c : Cause) (info : DataWord) : Prop :=
  ∃ t, exec i s = .next t ∧ FaultEntered s t c info

/-- The faults a command can raise (the table of R213). -/
def faultsOf : Instr → List Cause
  | .nop | .clr | .bpack | .map _ | .unmap _ => []
  | .rdsr _ | .lds _ | .lde _ => [.badarg]
  | .sts _ _ | .ste _ _ => [.badarg, .range]
  | .bwrite _ _ => [.range, .value, .capacity]
  | .bread _ => [.range, .underflow]
  | .enc _ _ => [.badarg, .order, .capacity]
  | .dec _ _ => [.badarg, .order, .underflow, .badcode]
  | .build _ => [.badarg, .range]
  | .invert _ => [.badarg, .order]

/-- The commands that are executed in the faulted state (R78): NOP, CLR, and RDSR of registers 0, 1, 4, 5, 6. -/
def runsWhenFaulted : Instr → Prop
  | .nop | .clr => True
  | .rdsr r => r = 0 ∨ r = 1 ∨ r = 4 ∨ r = 5 ∨ r = 6
  | .sts _ _ | .lds _ | .bwrite _ _ | .bread _ | .bpack | .enc _ _ | .dec _ _ | .build _ | .invert _ | .map _
  | .unmap _ | .ste _ _ | .lde _ => False

/-- The commands that write cells of `SEQ` (10_state.md section 1, and CLR by R177). -/
def writesCells : Instr → Prop
  | .sts _ _ | .ste _ _ | .dec _ _ | .build _ | .invert _ | .clr => True
  | .nop | .rdsr _ | .lds _ | .bwrite _ _ | .bread _ | .bpack | .enc _ _ | .map _ | .unmap _ | .lde _ => False

/-- The commands that write `BITS` and `WP` (10_state.md section 1). -/
def writesBits : Instr → Prop
  | .bwrite _ _ | .bpack | .enc _ _ | .clr => True
  | .nop | .rdsr _ | .sts _ _ | .lds _ | .bread _ | .dec _ _ | .build _ | .invert _ | .map _ | .unmap _ | .ste _ _
  | .lde _ => False

/-- The commands that write `RP` (10_state.md section 1). -/
def writesReadPos : Instr → Prop
  | .bread _ | .dec _ _ | .clr => True
  | .nop | .rdsr _ | .sts _ _ | .lds _ | .bwrite _ _ | .bpack | .enc _ _ | .build _ | .invert _ | .map _ | .unmap _
  | .ste _ _ | .lde _ => False

/-- `i` is `FirstDescent(f, l, h)` (R13). -/
def IsFirstDescent (f : Nat → Nat) (l h i : Nat) : Prop :=
  (l < i ∧ i ≤ h) ∧ f i < f (i - 1) ∧ ∀ j, l < j → j < i → f (j - 1) ≤ f j

/-- The host presents the command word `w` next to a block that is ready to accept it (R77). -/
def State.present (s : State) (w : CmdWord) : State :=
  { s with host := .command w :: s.host, inFlight := none }

end Sys2Proof.Machine
end

