-- ==== Sys2Proof/Certificates/Slice0/Obligations.lean ====
section
/-!
DEFINITION. The statements for the provers, from the numbered rules of spec/. Each quantifies over every state, and
so over every value of the parameters; the premise `s.Inv` rules out states no run reaches. What an unwritten cell or
the buffer after a fault holds is a free value, and every statement holds for each of its values. That `cellAt` gives an
unwritten cell one value within a command is the model's choice (entry 4). "Entry n" is notes/assumptions/n.md.
-/

open Sys2Proof Sys2Proof.Machine

/-! ### Encoding -/

/-- R70 to R73: the decoder gives back every command, whatever stands in the operand fields it does not use. -/
def Obligations.DecodeInvertsEncode : Prop :=
  ∀ (i : Instr) (ua : IndexWord) (ub : DataWord),
    decode (encodeWith i ua ub) = .ok i ∧ cmdOp (encodeWith i ua ub) = i.opcode

/-- R70, R72: a word that decodes is the encoding of the command it decodes to, its unused fields kept. -/
def Obligations.EncodeInvertsDecode : Prop :=
  ∀ (w : CmdWord) (i : Instr), decode w = .ok i → encodeWith i (cmdA w) (cmdB w) = w

/-- R72, R79: exactly the sixteen opcodes of the map are commands, and each of the other 240 is rejected by name. -/
def Obligations.DecoderRejectsExactlyUndefinedOpcodes : Prop :=
  (definedOpcodes.Nodup ∧ definedOpcodes.length = 16) ∧
  ∀ w : CmdWord,
    (cmdOp w ∈ definedOpcodes → ∃ i, decode w = .ok i ∧ i.opcode = cmdOp w) ∧
    (cmdOp w ∉ definedOpcodes → decode w = .error (.illegalOpcode (cmdOp w)))

/-- Words the spec writes out decode to the commands it gives them (R70, 95_test_vectors.md). -/
def Obligations.SpecWordsDecode : Prop :=
  decode 0x10000000030000000000000002#104 = .ok (.bwrite 3 2) ∧
  decode 0x42000000020000000000000002#104 = .ok (.ste 2 2) ∧
  decode 0x20000000000000000000000003#104 = .ok (.enc 0 3) ∧
  decode 0x30000000040000000000000000#104 = .ok (.build 4) ∧
  decode 0x12DEADBEEF0123456789ABCDEF#104 = .ok .bpack ∧
  decode 0x0400000003FFFFFFFFFFFFFFFF#104 = .ok (.lds 3) ∧
  decode 0x05000000000000000000000000#104 = .error (.illegalOpcode 0x05)

/-- R73: the operand fields a command does not use have no effect on a transaction, and the encoder writes zero
there. -/
def Obligations.UnusedOperandFieldsHaveNoEffect : Prop :=
  ∀ (i : Instr) (ua : IndexWord) (ub : DataWord),
    encode i = encodeWith i 0 0 ∧
    ∀ s : State, step (s.present (encodeWith i ua ub)) = step (s.present (encode i))

/-! ### Dispatch, responses, reset -/

/-- One transaction executes the command the word decodes to (R17, R77, R78). First clause: the command presented,
after its acceptance. Second clause: a command in flight is executed before anything the host presents, except `rst`;
that order is the model's, entry 9 (DEDUCED), the exception for `rst` is R242, and that a command presented meanwhile is
held is U13. -/
def Obligations.StepRunsDecodedCommand : Prop :=
  ∀ (s : State) (w : CmdWord) (i : Instr), s.cfg.Valid → decode w = .ok i →
    (∀ rest, s.host = .command w :: rest → s.inFlight = none → step s = exec i (s.accept w rest)) ∧
    ((∀ rest, s.host ≠ .rst :: rest) → s.inFlight = some w → step s = exec i s)

/-- R78: the dispatch of an accepted command. `u` is the state at acceptance. -/
def Obligations.DispatchFollowsFaultedFilter : Prop :=
  ∀ (s : State) (w : CmdWord) (rest : List HostInput), s.cfg.Valid → s.inFlight = none →
    s.host = .command w :: rest →
    let u := s.accept w rest
    (s.fault = true →
      (cmdOp w = 0x00 → ∃ t, step s = .next t ∧ Answers t 0 ∧ NoStateChange u t) ∧
      (cmdOp w = 0x01 → step s = exec .clr u) ∧
      (cmdOp w = 0x02 → cmdA w ∈ ([0, 1, 4, 5, 6] : List IndexWord) →
        ∃ t v, s.readSr (cmdA w).toNat = some v ∧ step s = .next t ∧ Answers t v ∧ NoStateChange u t) ∧
      (cmdOp w ≠ 0x00 → cmdOp w ≠ 0x01 → ¬(cmdOp w = 0x02 ∧ cmdA w ∈ ([0, 1, 4, 5, 6] : List IndexWord)) →
        ∃ t, step s = .next t ∧ RefusedIn u t)) ∧
    (s.fault = false →
      (cmdOp w ∉ definedOpcodes →
        ∃ t, step s = .next t ∧ FaultEntered u t .illegal ((cmdOp w).setWidth 64)) ∧
      (cmdOp w ∈ definedOpcodes → ∃ i, decode w = .ok i ∧ i.opcode = cmdOp w ∧ step s = exec i u))

/-- R78, R215: in the faulted state every command but NOP, CLR and RDSR of registers 0, 1, 4, 5, 6 is refused: the
response carries the sticky cause and no state changes. -/
def Obligations.FaultedBlockRefusesCommands : Prop :=
  ∀ (i : Instr) (s : State), s.fault = true → ¬runsWhenFaulted i →
    ∃ t, exec i s = .next t ∧ RefusedIn s t

/-- R215: two faulted states that agree on everything but the data (`SEQ`, `BITS`, `WP`, `RP`, the work stack and the
last response) answer every input with the same response and stay so; the transaction that leaves the faulted state
leaves them equal. No data of a faulted session is ever observed. -/
def Obligations.FaultedBlockHidesItsData : Prop :=
  ∀ s t : State, s.cfg.Valid → s.fault = true → t.fault = true → t.cfg = s.cfg → t.cause = s.cause →
    t.finfo = s.finfo → t.host = s.host → t.inFlight = s.inFlight → t.freeTick = s.freeTick →
    ∃ s' t', step s = .next s' ∧ step t = .next t' ∧ t'.rsp = s'.rsp ∧ t'.fault = s'.fault ∧
      t'.cfg = s'.cfg ∧ t'.cause = s'.cause ∧ t'.finfo = s'.finfo ∧ t'.host = s'.host ∧
      t'.inFlight = s'.inFlight ∧ t'.freeTick = s'.freeTick ∧ (s'.fault = false → t' = s')

/-- R23, R217: `FAULT` is cleared only by CLR or reset, and until then `CAUSE` and `FINFO` keep the first fault's
values; it is set only by a transaction whose response reports the fault. -/
def Obligations.OnlyClrOrResetLeavesTheFaultedState : Prop :=
  ∀ s t : State, step s = .next t →
    (s.fault = true → t.fault = true → t.cause = s.cause ∧ t.finfo = s.finfo) ∧
    (s.fault = true → t.fault = false →
      (∃ rest, s.host = .rst :: rest) ∨ (∃ w u, s.fetch = some (w, u) ∧ cmdOp w = 0x01)) ∧
    (s.fault = false → t.fault = true →
      ∃ c : Cause, t.cause = causeCode c ∧ t.rsp = some { fault := true, cause := causeCode c, res := 0 })

/-- R213, R214: a command that faults enters the fault with one of the causes the spec lists for it; NOP, CLR, BPACK,
MAP and UNMAP never fault. -/
def Obligations.FaultsEachCommandCanRaise : Prop :=
  ∀ (i : Instr) (s t : State), s.Inv → s.fault = false → exec i s = .next t → t.fault = true →
    ∃ c info, c ∈ faultsOf i ∧ FaultEntered s t c info

/-- R74: every accepted command produces exactly one response; `fault` is 1 exactly when the command faulted or was
refused; the cause is 0 when it is 0 and the sticky cause otherwise, the result is 0 when it is 1, and the fields lie
where the format puts them. -/
def Obligations.EveryAcceptedCommandGetsOneResponse : Prop :=
  (∀ (s : State) (w : CmdWord) (rest : List HostInput), s.cfg.Valid → s.inFlight = none →
    s.host = .command w :: rest →
    ∃ t r, step s = .next t ∧ t.rsp = some r ∧ t.inFlight = none ∧ t.host = rest ∧
      (r.fault = true ↔ s.fault = false ∧ t.fault = true ∨
        s.fault = true ∧ ∀ i, decode w = .ok i → ¬runsWhenFaulted i) ∧
      (r.fault = false → r.cause = 0) ∧ (r.fault = true → r.cause = t.cause ∧ r.res = 0)) ∧
  ∀ r : Response,
    (rspWord r).extractLsb' 68 1 = BitVec.ofBool r.fault ∧
    (rspWord r).extractLsb' 64 4 = r.cause ∧ (rspWord r).extractLsb' 0 64 = r.res

/-- R229: a block to which nothing is presented keeps all its state. The clause `t.rsp = none` is the model's choice,
entry 8 (DESIGN CHOICE of form): an idle step ends the response pulse, which R77 gives one clock cycle. -/
def Obligations.IdleBlockKeepsItsState : Prop :=
  ∀ s : State, s.cfg.Valid → s.host = [] → s.inFlight = none →
    ∃ t, step s = .next t ∧ NoStateChange s t ∧ t.rsp = none ∧ t.inFlight = none

/-- R240, R242, R41: `rst` gives the reset state whatever the state before it, a command in flight included, with no
response; CLR gives the same state with a response. -/
def Obligations.ResetTakesTheResetState : Prop :=
  ∀ s : State,
    (∀ rest, s.cfg.Valid → s.host = .rst :: rest →
      ∃ t, step s = .next t ∧ t.wp = 0 ∧ t.rp = 0 ∧ t.bits = [] ∧ t.fault = false ∧ t.cause = 0 ∧ t.finfo = 0 ∧
        t.stk = [] ∧ t.cmdReady = true ∧ t.rsp = none ∧ (∀ j, Memory.read t.seq j = none) ∧ t.cfg = s.cfg ∧
        t.host = rest) ∧
    (∃ t, exec .clr s = .next t ∧ t.wp = 0 ∧ t.rp = 0 ∧ t.bits = [] ∧ t.fault = false ∧ t.cause = 0 ∧
      t.finfo = 0 ∧ t.stk = [] ∧ t.cmdReady = true ∧ Answers t 0 ∧ (∀ j, Memory.read t.seq j = none) ∧
      t.cfg = s.cfg ∧ t.host = s.host)

/-- R40, R41: the state after reset of a block with valid parameters meets the invariant, reads 0 in `STATUS`,
`FINFO`, `WP` and `RP`, has no written cell, is ready for a command and shows no response. (That no host input is
pending and the counter starts at 0 are the model's choices, entries 1 and 5, and are not stated. That `State.reset`
takes the reference parameters is the choice of entry 2; the last clause says that it meets the invariant.) -/
def Obligations.ResetStateMeetsTheInvariant : Prop :=
  (∀ p : Params, p.Valid →
    (State.resetWith p).Inv ∧ (State.resetWith p).fault = false ∧ (State.resetWith p).cmdReady = true ∧
    (State.resetWith p).rsp = none ∧ (State.resetWith p).bits = [] ∧
    (∀ r, r < 4 → (State.resetWith p).readSr r = some 0) ∧
    ∀ j, Memory.read (State.resetWith p).seq j = none) ∧
  State.reset.Inv

/-- Every transaction keeps the invariant of the state: R7 and R28 for the parameters, R30 for the cells, R31 for
`RP <= WP <= BCAP`, R25 and R27 for the fault registers, R33 and R35 for the stack and the command in flight. Two of its
clauses are the model's: that the sizes of R31 still hold in the faulted state, where R214 leaves `WP` and `RP`
unspecified, is entry 7 (DEDUCED); the canonical form of the store is entry 13 (DEDUCED). -/
def Obligations.StepKeepsTheInvariant : Prop :=
  ∀ s t : State, s.Inv → step s = .next t → t.Inv

/-- R28: the parameters never change, and RDSR returns them in every state, the faulted one included. -/
def Obligations.ParametersNeverChange : Prop :=
  (∀ s t : State, step s = .next t → t.cfg = s.cfg) ∧
  ∀ s : State,
    (∃ t, exec (.rdsr 4) s = .next t ∧ Answers t (BitVec.ofNat 64 s.cfg.vw) ∧ NoStateChange s t) ∧
    (∃ t, exec (.rdsr 5) s = .next t ∧ Answers t (BitVec.ofNat 64 s.cfg.nmax) ∧ NoStateChange s t) ∧
    (∃ t, exec (.rdsr 6) s = .next t ∧ Answers t (BitVec.ofNat 64 s.cfg.bcap) ∧ NoStateChange s t)

/-- 10_state.md section 1: only STS, STE, DEC, BUILD, INVERT (and CLR) write cells, only BWRITE, BPACK, ENC and CLR
write `BITS` and `WP`, only BREAD, DEC and CLR write `RP`, unless the command faults. -/
def Obligations.OnlyTheListedCommandsWriteEachStore : Prop :=
  ∀ (i : Instr) (s t : State), exec i s = .next t → t.fault = s.fault →
    (¬writesCells i → SameCells s t) ∧ (¬writesBits i → t.bits = s.bits ∧ t.wp = s.wp) ∧
    (¬writesReadPos i → t.rp = s.rp)

/-! ### System commands -/

/-- R176. -/
def Obligations.NopChangesNothing : Prop :=
  ∀ (ua : IndexWord) (ub : DataWord) (s : State),
    decode (cmdWord 0x00 ua ub) = .ok .nop ∧
    ∃ t, exec .nop s = .next t ∧ Answers t 0 ∧ NoStateChange s t

/-- R177: CLR's effect, in either state, and that no other command clears `FAULT`. -/
def Obligations.ClrStartsANewSession : Prop :=
  (∀ (ua : IndexWord) (ub : DataWord) (s : State),
    decode (cmdWord 0x01 ua ub) = .ok .clr ∧
    ∃ t, exec .clr s = .next t ∧ Answers t 0 ∧ t.wp = 0 ∧ t.rp = 0 ∧ t.bits = [] ∧ t.fault = false ∧
      t.cause = 0 ∧ t.finfo = 0 ∧ (∀ j, Memory.read t.seq j = none) ∧ t.stk = [] ∧
      t.cfg = s.cfg ∧ t.host = s.host ∧ t.freeTick = s.freeTick ∧
      ∃ u, exec (.rdsr 0) t = .next u ∧ Answers u 0) ∧
  (∀ p : Params, ∃ t, exec .clr (State.resetWith p) = .next t ∧ NoStateChange (State.resetWith p) t) ∧
  ∀ (i : Instr) (s t : State), exec i s = .next t → s.fault = true → t.fault = false → i = .clr

/-- R178 with the table of R24: what RDSR returns for each register, and when it faults or is refused. -/
def Obligations.RdsrReadsTheStatusRegisters : Prop :=
  ∀ (r : IndexWord) (ub : DataWord),
    decode (cmdWord 0x02 r ub) = .ok (.rdsr r) ∧
    ∀ s : State,
      (s.fault = false → 6 < r.toNat → RaisesOn (.rdsr r) s .badarg (r.setWidth 64)) ∧
      (s.fault = true → r.toNat = 2 ∨ r.toNat = 3 ∨ 6 < r.toNat →
        ∃ t, exec (.rdsr r) s = .next t ∧ RefusedIn s t) ∧
      (s.fault = false ∧ r.toNat ≤ 6 ∨ s.fault = true ∧ r.toNat ∈ [0, 1, 4, 5, 6] →
        ∃ t v, exec (.rdsr r) s = .next t ∧ Answers t v ∧ NoStateChange s t ∧
          (r.toNat = 0 → v = BitVec.ofNat 64 (16 * s.cause.toNat + s.fault.toNat)) ∧
          (r.toNat = 1 → v = s.finfo) ∧
          (r.toNat = 2 → v = BitVec.ofNat 64 s.bits.length) ∧
          (r.toNat = 3 → v = BitVec.ofNat 64 s.rp) ∧
          (r.toNat = 4 → v = BitVec.ofNat 64 s.cfg.vw) ∧
          (r.toNat = 5 → v = BitVec.ofNat 64 s.cfg.nmax) ∧
          (r.toNat = 6 → v = BitVec.ofNat 64 s.cfg.bcap))

/-- R26: `STATUS` is `zext_64(CAUSE ‖ 0b000 ‖ FAULT)`, the number `16 * CAUSE + FAULT`; it is 0 with `FAULT = 0`, and
`0x51` after an UNDERFLOW fault. -/
def Obligations.StatusIsCauseAndFault : Prop :=
  (∀ s : State, ∃ t w, exec (.rdsr 0) s = .next t ∧ Answers t w ∧
    w = (s.cause ++ 0#3 ++ BitVec.ofBool s.fault : BitVec 8).setWidth 64 ∧
    w.toNat = 16 * s.cause.toNat + s.fault.toNat) ∧
  (∀ s : State, s.Inv → s.fault = false → ∃ t, exec (.rdsr 0) s = .next t ∧ Answers t 0) ∧
  ∀ (s t : State) (info : DataWord), FaultEntered s t .underflow info →
    ∃ u, exec (.rdsr 0) t = .next u ∧ Answers u 0x51

/-- R179. -/
def Obligations.StsStoresOneCell : Prop :=
  ∀ (i : IndexWord) (v : DataWord),
    decode (cmdWord 0x03 i v) = .ok (.sts i v) ∧
    ∀ s : State, s.fault = false →
      (s.cfg.nmax ≤ i.toNat → RaisesOn (.sts i v) s .badarg (i.setWidth 64)) ∧
      (i.toNat < s.cfg.nmax → 2 ^ s.cfg.vw ≤ v.toNat → RaisesOn (.sts i v) s .range (i.setWidth 64)) ∧
      (i.toNat < s.cfg.nmax → v.toNat < 2 ^ s.cfg.vw →
        ∃ t, exec (.sts i v) s = .next t ∧ Answers t 0 ∧ SameControl s t ∧ SameBuffer s t ∧
          Memory.read t.seq i.toNat = some v.toNat ∧ t.cellAt i.toNat = v.toNat ∧
          ∀ j, j ≠ i.toNat → SameCell s t j) ∧
      (s.cfg.vw = 64 → v.toNat < 2 ^ s.cfg.vw)

/-- R180: the result is the cell's value; of a cell nothing has written it is the cell's free value. -/
def Obligations.LdsLoadsOneCell : Prop :=
  ∀ (i : IndexWord) (ub : DataWord),
    decode (cmdWord 0x04 i ub) = .ok (.lds i) ∧
    ∀ s : State, s.fault = false →
      (s.cfg.nmax ≤ i.toNat → RaisesOn (.lds i) s .badarg (i.setWidth 64)) ∧
      (i.toNat < s.cfg.nmax →
        ∃ t, exec (.lds i) s = .next t ∧ Answers t (BitVec.ofNat 64 (s.cellAt i.toNat)) ∧ NoStateChange s t ∧
          ∀ v, Memory.read s.seq i.toNat = some v → s.cellAt i.toNat = v)

/-! ### The bit buffer -/

/-- R101, with the bit order of R50: BWRITE appends one field and nothing else, or faults. -/
def Obligations.BwriteAppendsOneField : Prop :=
  ∀ (w : IndexWord) (v : DataWord),
    decode (cmdWord 0x10 w v) = .ok (.bwrite w v) ∧
    ∀ s : State, s.fault = false →
      (s.cfg.vw < w.toNat → RaisesOn (.bwrite w v) s .range (w.setWidth 64)) ∧
      (w.toNat ≤ s.cfg.vw → 2 ^ w.toNat ≤ v.toNat → RaisesOn (.bwrite w v) s .value (w.setWidth 64)) ∧
      (w.toNat ≤ s.cfg.vw → v.toNat < 2 ^ w.toNat → s.cfg.bcap < s.wp + w.toNat →
        RaisesOn (.bwrite w v) s .capacity (w.setWidth 64)) ∧
      (w.toNat ≤ s.cfg.vw → v.toNat < 2 ^ w.toNat → s.wp + w.toNat ≤ s.cfg.bcap →
        ∃ t, exec (.bwrite w v) s = .next t ∧ Answers t 0 ∧ SameControl s t ∧ SameCells s t ∧
          t.bits = s.bits ++ tobits w.toNat v.toNat ∧ t.wp = s.wp + w.toNat ∧ t.rp = s.rp ∧
          ∀ k, k < w.toNat → t.bits[s.wp + k]? = some (v.toNat.testBit (w.toNat - 1 - k)))

/-- R102: width 0, the widest field, a value with bits above the width, and leading zeros. -/
def Obligations.BwriteCornerCases : Prop :=
  ∀ s : State, s.Inv → s.fault = false →
    (∃ t, exec (.bwrite 0 0) s = .next t ∧ Answers t 0 ∧ NoStateChange s t) ∧
    RaisesOn (.bwrite 0 1) s .value 0 ∧
    (∀ (w : IndexWord) (v : DataWord), w.toNat = s.cfg.vw → v.toNat = 2 ^ s.cfg.vw - 1 →
      s.wp + s.cfg.vw ≤ s.cfg.bcap →
      ∃ t, exec (.bwrite w v) s = .next t ∧ Answers t 0 ∧ SameControl s t ∧ SameCells s t ∧ t.rp = s.rp ∧
        t.bits = s.bits ++ List.replicate s.cfg.vw true) ∧
    (∀ (w : IndexWord) (v : DataWord), w.toNat ≤ s.cfg.vw → s.cfg.vw < 64 → v >>> w.toNat ≠ 0 →
      RaisesOn (.bwrite w v) s .value (w.setWidth 64)) ∧
    (8 ≤ s.cfg.vw → s.wp + 8 ≤ s.cfg.bcap →
      ∃ t, exec (.bwrite 8 1) s = .next t ∧ Answers t 0 ∧
        t.bits = s.bits ++ [false, false, false, false, false, false, false, true])

/-- R104, with the bit order of R50: BREAD consumes one field and nothing else, or faults. -/
def Obligations.BreadConsumesOneField : Prop :=
  ∀ (w : IndexWord) (ub : DataWord),
    decode (cmdWord 0x11 w ub) = .ok (.bread w) ∧
    ∀ s : State, s.fault = false →
      (s.cfg.vw < w.toNat → RaisesOn (.bread w) s .range (w.setWidth 64)) ∧
      (w.toNat ≤ s.cfg.vw → s.wp < s.rp + w.toNat → RaisesOn (.bread w) s .underflow (w.setWidth 64)) ∧
      (w.toNat ≤ s.cfg.vw → s.rp + w.toNat ≤ s.wp →
        ∃ t v, exec (.bread w) s = .next t ∧ Answers t (BitVec.ofNat 64 v) ∧ SameControl s t ∧ SameCells s t ∧
          t.bits = s.bits ∧ t.wp = s.wp ∧ t.rp = s.rp + w.toNat ∧
          v = frombits ((s.bits.drop s.rp).take w.toNat) ∧ v < 2 ^ w.toNat ∧
          ∀ k, k < w.toNat → s.bits[s.rp + k]? = some (v.testBit (w.toNat - 1 - k)))

/-- R105: width 0 reads 0 even from an empty buffer, and a read beyond `WP` by even one bit faults as a whole. -/
def Obligations.BreadCornerCases : Prop :=
  ∀ s : State, s.Inv → s.fault = false →
    (∃ t, exec (.bread 0) s = .next t ∧ Answers t 0 ∧ NoStateChange s t) ∧
    (∀ w : IndexWord, w.toNat ≤ s.cfg.vw → w.toNat = s.wp - s.rp + 1 →
      RaisesOn (.bread w) s .underflow (w.setWidth 64)) ∧
    (∀ w : IndexWord, w.toNat ≤ s.cfg.vw → w.toNat = s.wp - s.rp →
      ∃ t, exec (.bread w) s = .next t ∧ Answers t (BitVec.ofNat 64 (frombits s.unread)) ∧ t.rp = t.wp)

/-- R106: in a buffer with no unread bits and room for the field, BREAD returns what BWRITE wrote. -/
def Obligations.BreadReturnsWhatBwriteWrote : Prop :=
  ∀ (s : State) (w : IndexWord) (v : DataWord), s.fault = false → s.rp = s.wp → w.toNat ≤ s.cfg.vw →
    v.toNat < 2 ^ w.toNat → s.wp + w.toNat ≤ s.cfg.bcap →
    ∃ t u, exec (.bwrite w v) s = .next t ∧ exec (.bread w) t = .next u ∧ Answers u v

/-- R107: BPACK pads with zero bits to a byte boundary, gives the length in bytes, never faults, and a second one
appends nothing. -/
def Obligations.BpackPadsToAByte : Prop :=
  ∀ (ua : IndexWord) (ub : DataWord),
    decode (cmdWord 0x12 ua ub) = .ok .bpack ∧
    ∀ s : State, s.Inv → s.fault = false →
      ∃ t, exec .bpack s = .next t ∧ Answers t (BitVec.ofNat 64 (t.wp / 8)) ∧ SameControl s t ∧ SameCells s t ∧
        t.bits = s.bits ++ List.replicate ((8 - s.wp % 8) % 8) false ∧
        t.wp = s.wp + (8 - s.wp % 8) % 8 ∧ t.wp % 8 = 0 ∧ t.rp = s.rp ∧
        (s.wp % 8 = 0 → t.bits = s.bits) ∧
        ∃ u, exec .bpack t = .next u ∧ Answers u (BitVec.ofNat 64 (t.wp / 8)) ∧ u.bits = t.bits

/-- R52: the buffer is one bit string: two fields appended one after the other read as one, the first in the high
part, and one field reads back as two. -/
def Obligations.MixedWidthAccessSeesOneBitString : Prop :=
  ∀ (s : State) (w1 w2 w : IndexWord) (v1 v2 v : DataWord), s.fault = false → s.rp = s.wp →
    w.toNat = w1.toNat + w2.toNat → w.toNat ≤ s.cfg.vw → s.cfg.vw ≤ 64 → s.wp + w.toNat ≤ s.cfg.bcap →
    v1.toNat < 2 ^ w1.toNat → v2.toNat < 2 ^ w2.toNat → v.toNat = v1.toNat * 2 ^ w2.toNat + v2.toNat →
    (∃ t1 t2 t3, exec (.bwrite w1 v1) s = .next t1 ∧ exec (.bwrite w2 v2) t1 = .next t2 ∧
      exec (.bread w) t2 = .next t3 ∧ Answers t3 v) ∧
    (∃ t1 t2 t3, exec (.bwrite w v) s = .next t1 ∧ exec (.bread w1) t1 = .next t2 ∧ Answers t2 v1 ∧
      exec (.bread w2) t2 = .next t3 ∧ Answers t3 v2)

/-- R31, R66: within a session the buffer is append-only and consumed front to back: every command but CLR that does
not fault appends some bits at the end of the unread bits and takes some from their front; `WP` and `RP` are never
lowered, and no bit in the buffer changes. -/
def Obligations.BufferIsAFirstInFirstOutQueue : Prop :=
  ∀ (i : Instr) (s t : State), s.Inv → i ≠ .clr → exec i s = .next t → t.fault = s.fault →
    ∃ added consumed : List Bool, t.bits = s.bits ++ added ∧ t.wp = s.wp + added.length ∧
      t.rp = s.rp + consumed.length ∧ s.unread ++ added = consumed ++ t.unread

/-! ### The coder -/

/-- R123: ENC appends the code stream of the range and nothing else, or faults: BADARG, ORDER with the first descent,
CAPACITY with the width of the first field that does not fit. -/
def Obligations.EncAppendsTheCodeStream : Prop :=
  ∀ (l : IndexWord) (h : DataWord),
    decode (cmdWord 0x20 l h) = .ok (.enc l h) ∧
    (∀ s : State, s.Inv → s.fault = false →
      (¬(l.toNat ≤ h.toNat ∧ h.toNat < s.cfg.nmax) → RaisesOn (.enc l h) s .badarg (l.setWidth 64)) ∧
      (l.toNat ≤ h.toNat → h.toNat < s.cfg.nmax → ∀ i, IsFirstDescent s.cellAt l.toNat h.toNat i →
        RaisesOn (.enc l h) s .order (BitVec.ofNat 64 i)) ∧
      (l.toNat ≤ h.toNat → h.toNat < s.cfg.nmax → Nondecreasing s.cellAt l.toNat h.toNat →
        ∀ pre g d post, encFields s.cellAt l.toNat h.toNat = pre ++ (g, d) :: post →
        s.wp + fieldsWidth pre ≤ s.cfg.bcap → s.cfg.bcap < s.wp + fieldsWidth pre + g →
        RaisesOn (.enc l h) s .capacity (BitVec.ofNat 64 g)) ∧
      (l.toNat ≤ h.toNat → h.toNat < s.cfg.nmax → Nondecreasing s.cellAt l.toNat h.toNat →
        s.wp + (encBits s.cellAt l.toNat h.toNat).length ≤ s.cfg.bcap →
        ∃ t, exec (.enc l h) s = .next t ∧
          Answers t (BitVec.ofNat 64 (encBits s.cellAt l.toNat h.toNat).length) ∧
          t.bits = s.bits ++ encBits s.cellAt l.toNat h.toNat ∧ t.rp = s.rp ∧ SameControl s t ∧
          SameCells s t)) ∧
    ∀ c : Nat → Nat, c 0 = 0 → c 1 = 2 → c 2 = 6 → c 3 = 6 →
      encBits c 0 3 = [false, true, false, true, false, false]

/-- R124: the pure function behind ENC, and that `EncNode` appends exactly it. -/
def Obligations.EncBitsFollowsTheRecursion : Prop :=
  (∀ (c : Nat → Nat) (l h : Nat),
    (h - l ≤ 1 → encBits c l h = []) ∧
    (c h = c l → encBits c l h = []) ∧
    (1 < h - l → c h ≠ c l →
      encBits c l h =
        tobits (clog2 (c h - c l + 1)) (c ((l + h) / 2) - c l) ++
          encBits c l ((l + h) / 2) ++ encBits c ((l + h) / 2) h)) ∧
  ∀ (s t : State) (l h : Nat), encRec (h - l) l h s = .ok t →
    t = { s with bits := s.bits ++ encBits s.cellAt l h }

/-- R126: ENC of a range with no interior or with equal bounds emits nothing, and a node whose midpoint equals a bound
still emits a field. -/
def Obligations.EncCornerCases : Prop :=
  (∀ (s : State) (l : IndexWord) (h : DataWord), s.Inv → s.fault = false → h.toNat < s.cfg.nmax →
    Nondecreasing s.cellAt l.toNat h.toNat → l.toNat ≤ h.toNat →
    h.toNat ≤ l.toNat + 1 ∨ s.cellAt l.toNat = s.cellAt h.toNat →
    ∃ t, exec (.enc l h) s = .next t ∧ Answers t 0 ∧ NoStateChange s t) ∧
  ∀ (c : Nat → Nat) (l h : Nat), 1 < h - l → c l < c h →
    ∃ rest, (encFields c l h).head? = some (gw (c l) (c h), c (mid l h) - c l) ∧ 1 ≤ gw (c l) (c h) ∧
      encBits c l h = tobits (gw (c l) (c h)) (c (mid l h) - c l) ++ rest ∧
      (c (mid l h) = c l →
        encBits c l h = List.replicate (gw (c l) (c h)) false ++ rest)

/-- R127: ENC emits at most `h - l - 1` fields and at most `(h - l - 1) * VW` bits. -/
def Obligations.CodeStreamSizeBound : Prop :=
  ∀ (c : Nat → Nat) (l h vw : Nat), Nondecreasing c l h → (∀ i, l ≤ i → i ≤ h → c i < 2 ^ vw) →
    (encFields c l h).length ≤ h - l - 1 ∧ (encBits c l h).length ≤ (h - l - 1) * vw

/-- R121: the midpoint of a node and the lengths of its children. -/
def Obligations.MidpointSplitsANode : Prop :=
  ∀ l h : Nat, l ≤ h →
    mid l h = (l + h) / 2 ∧
    (2 ≤ h - l → l < mid l h ∧ mid l h < h ∧ mid l h - l = (h - l) / 2 ∧
      h - mid l h = (h - l) - (h - l) / 2 ∧
      ((h - l) % 2 = 1 → h - mid l h = mid l h - l + 1))

/-- R122, R11: the field width is the exact `ceil(log2 R)`, the least sufficient number of bits; it is 0 exactly for
equal endpoints and at most `VW`. -/
def Obligations.FieldWidthIsExact : Prop :=
  (∀ r, 1 ≤ r → r ≤ 2 ^ clog2 r ∧ ∀ g, r ≤ 2 ^ g → clog2 r ≤ g) ∧
  (∀ x k, 0 < x → (bitlen x = k ↔ 2 ^ (k - 1) ≤ x ∧ x < 2 ^ k ∧ 1 ≤ k)) ∧
  ∀ lo hi vw : Nat, lo ≤ hi → hi < 2 ^ vw →
    gw lo hi = clog2 (hi - lo + 1) ∧ gw lo hi = bitlen (hi - lo) ∧ (gw lo hi = 0 ↔ hi = lo) ∧
      (hi ≠ lo → 1 ≤ gw lo hi) ∧ gw lo hi ≤ vw

/-- R128: the explicit-stack form that ENC and DEC run agrees with the recursion of R123 and of R129, in what it
writes and in the fault it raises, and ends with an empty stack. -/
def Obligations.StackFormAgreesWithRecursion : Prop :=
  ∀ (s : State) (l h : Nat), s.stk = [] →
    encLoop (nodeBound l h) { s with stk := [(l, h)] } = encRec (h - l) l h s ∧
    decLoop (nodeBound l h) { s with stk := [(l, h)] } = decRec (h - l) l h s

/-- R34, R33: the work stack of a running ENC or DEC never holds more than 33 entries, each a range within `l .. h`. -/
def Obligations.WorkStackHoldsAtMost33 : Prop :=
  ∀ (s t : State) (l h k : Nat), l ≤ h → h < 2 ^ 32 →
    (encLoop k { s with stk := [(l, h)] } = .ok t ∨ decLoop k { s with stk := [(l, h)] } = .ok t) →
    t.stk.length ≤ 33 ∧ ∀ p ∈ t.stk, l ≤ p.1 ∧ p.1 ≤ p.2 ∧ p.2 ≤ h

/-- R129: DEC runs DecNode: BADARG, ORDER, then what the recursion reads and writes, or the fault it raises first in
pre-order. -/
def Obligations.DecRunsDecNode : Prop :=
  ∀ (l : IndexWord) (h : DataWord),
    decode (cmdWord 0x21 l h) = .ok (.dec l h) ∧
    ∀ s : State, s.Inv → s.fault = false →
      (¬(l.toNat ≤ h.toNat ∧ h.toNat < s.cfg.nmax) → RaisesOn (.dec l h) s .badarg (l.setWidth 64)) ∧
      (l.toNat ≤ h.toNat → h.toNat < s.cfg.nmax → s.cellAt h.toNat < s.cellAt l.toNat →
        RaisesOn (.dec l h) s .order h) ∧
      (l.toNat ≤ h.toNat → h.toNat < s.cfg.nmax → s.cellAt l.toNat ≤ s.cellAt h.toNat →
        (∀ e, decRec (h.toNat - l.toNat) l.toNat h.toNat s = .error e →
          RaisesOn (.dec l h) s e.cause e.info) ∧
        (∀ u, decRec (h.toNat - l.toNat) l.toNat h.toNat s = .ok u →
          ∃ t, exec (.dec l h) s = .next t ∧ Answers t (BitVec.ofNat 64 (u.rp - s.rp)) ∧ t.rp = u.rp ∧
            (∀ j, SameCell u t j) ∧ (∀ j, j ≤ l.toNat ∨ h.toNat ≤ j → SameCell s t j) ∧
            (∀ j, l.toNat < j → j < h.toNat → ∃ v, Memory.read t.seq j = some v) ∧
            t.bits = s.bits ∧ t.wp = s.wp ∧ SameControl s t))

/-- R130 with the pseudocode of R129: the recursion of DecNode: a leaf, a flat range, and a node, whose midpoint is
written before both children are decoded, the left one first. -/
def Obligations.DecNodeFollowsTheRecursion : Prop :=
  ∀ (s : State) (l h : Nat),
    (h - l ≤ 1 → decRec (h - l) l h s = .ok s) ∧
    (1 < h - l → s.cellAt h = s.cellAt l →
      ∃ t, decRec (h - l) l h s = .ok t ∧ t = { s with seq := t.seq } ∧
        (∀ j, l < j → j < h → Memory.read t.seq j = some (s.cellAt l)) ∧
        ∀ j, j ≤ l ∨ h ≤ j → SameCell s t j) ∧
    (1 < h - l → s.cellAt h ≠ s.cellAt l →
      let m := (l + h) / 2
      let g := bitlen (s.cellAt h - s.cellAt l)
      let d := frombits (s.unread.take g)
      let t := { s with rp := s.rp + g, seq := Memory.write s.seq m (s.cellAt l + d) }
      (s.wp < s.rp + g → decRec (h - l) l h s = .error ⟨.underflow, BitVec.ofNat 64 g⟩) ∧
      (s.rp + g ≤ s.wp → s.cellAt h - s.cellAt l < d →
        decRec (h - l) l h s = .error ⟨.badcode, BitVec.ofNat 64 m⟩) ∧
      (s.rp + g ≤ s.wp → d ≤ s.cellAt h - s.cellAt l →
        (∀ e, decRec (m - l) l m t = .error e → decRec (h - l) l h s = .error e) ∧
        ∀ u, decRec (m - l) l m t = .ok u → decRec (h - l) l h s = decRec (h - m) m h u))

/-- R129, R213, R131: at the root of DEC too few unread bits raise UNDERFLOW with the width, before the field value is
looked at; a field value above the difference of the endpoints raises BADCODE with the midpoint. -/
def Obligations.DecFaultsAtTheRoot : Prop :=
  ∀ (s : State) (l : IndexWord) (h : DataWord), s.Inv → s.fault = false → h.toNat < s.cfg.nmax →
    l.toNat + 2 ≤ h.toNat → s.cellAt l.toNat < s.cellAt h.toNat →
    (s.wp - s.rp < gw (s.cellAt l.toNat) (s.cellAt h.toNat) →
      RaisesOn (.dec l h) s .underflow (BitVec.ofNat 64 (gw (s.cellAt l.toNat) (s.cellAt h.toNat)))) ∧
    (gw (s.cellAt l.toNat) (s.cellAt h.toNat) ≤ s.wp - s.rp →
      s.cellAt h.toNat - s.cellAt l.toNat <
        frombits (s.unread.take (gw (s.cellAt l.toNat) (s.cellAt h.toNat))) →
      RaisesOn (.dec l h) s .badcode (BitVec.ofNat 64 (mid l.toNat h.toNat)))

/-- R132: DEC of a range with no interior reads and writes nothing; with equal endpoints it fills the interior and
reads no bit, even from an empty buffer. -/
def Obligations.DecShortAndFlatRanges : Prop :=
  ∀ (s : State) (l : IndexWord) (h : DataWord), s.Inv → s.fault = false → h.toNat < s.cfg.nmax →
    l.toNat ≤ h.toNat →
    (h.toNat ≤ l.toNat + 1 → s.cellAt l.toNat ≤ s.cellAt h.toNat →
      ∃ t, exec (.dec l h) s = .next t ∧ Answers t 0 ∧ NoStateChange s t) ∧
    (l.toNat + 2 ≤ h.toNat → s.cellAt l.toNat = s.cellAt h.toNat →
      ∃ t, exec (.dec l h) s = .next t ∧ Answers t 0 ∧ SameControl s t ∧ SameBuffer s t ∧
        (∀ j, l.toNat < j → j < h.toNat → Memory.read t.seq j = some (s.cellAt l.toNat)) ∧
        ∀ j, j ≤ l.toNat ∨ h.toNat ≤ j → SameCell s t j)

/-- R133, the round trip: where the unread bits begin with the code stream of a nondecreasing `c` and the two
endpoint cells hold its endpoints, DEC completes, rebuilds every cell of `c` and consumes exactly the stream. -/
def Obligations.DecReconstructsTheEncodedSequence : Prop :=
  ∀ (s : State) (l : IndexWord) (h : DataWord) (c : Nat → Nat) (rest : List Bool), s.Inv → s.fault = false →
    l.toNat ≤ h.toNat → h.toNat < s.cfg.nmax → Nondecreasing c l.toNat h.toNat →
    s.unread = encBits c l.toNat h.toNat ++ rest → s.cellAt l.toNat = c l.toNat →
    s.cellAt h.toNat = c h.toNat →
    ∃ t, exec (.dec l h) s = .next t ∧ Answers t (BitVec.ofNat 64 (encBits c l.toNat h.toNat).length) ∧
      t.rp = s.rp + (encBits c l.toNat h.toNat).length ∧ t.unread = rest ∧
      (∀ i, l.toNat ≤ i → i ≤ h.toNat → t.cellAt i = c i) ∧
      (∀ j, j ≤ l.toNat ∨ h.toNat ≤ j → SameCell s t j) ∧ t.bits = s.bits ∧ SameControl s t

/-- R134: a DEC that ends without a fault leaves a nondecreasing range below `2 ^ VW`, so that INVERT after a
`DEC 0, n-1` does not fault; moreover, by R124 and R129, the bits it consumed are exactly the code stream of that range,
so no other stream decodes to it. Where an endpoint is a cell nothing has written, the statement rests on the model's
choices: DEC reads it as one value (entry 4, DESIGN CHOICE), and so does the INVERT, which runs with the same number of
the free values, no acceptance standing between (entry 5, DESIGN CHOICE); U1 and R245 leave that value open. -/
def Obligations.DecOutputIsNondecreasingAndReencodes : Prop :=
  ∀ (s t : State) (l : IndexWord) (h : DataWord), s.Inv → s.fault = false →
    exec (.dec l h) s = .next t → t.fault = false →
    Nondecreasing t.cellAt l.toNat h.toNat ∧ (∀ i, l.toNat ≤ i → i ≤ h.toNat → t.cellAt i < 2 ^ s.cfg.vw) ∧
      s.unread = encBits t.cellAt l.toNat h.toNat ++ t.unread ∧
      t.rp = s.rp + (encBits t.cellAt l.toNat h.toNat).length ∧
      ∀ n : IndexWord, l.toNat = 0 → n.toNat = h.toNat + 1 → ∃ u, exec (.invert n) t = .next u ∧ u.fault = false

/-- R136: what ENC appends does not depend on the parameters: two blocks that hold the same values on the range append
the same bits wherever both complete. -/
def Obligations.CodeStreamIndependentOfParameters : Prop :=
  ∀ (s s' t t' : State) (l : IndexWord) (h : DataWord), s.Inv → s'.Inv → s.fault = false → s'.fault = false →
    (∀ i, l.toNat ≤ i → i ≤ h.toNat → s'.cellAt i = s.cellAt i) →
    exec (.enc l h) s = .next t → exec (.enc l h) s' = .next t' → t.fault = false → t'.fault = false →
    ∃ stream, t.bits = s.bits ++ stream ∧ t'.bits = s'.bits ++ stream

/-- R80, 95_test_vectors.md V41-8: the code stream depends on the values and on `h - l`, not on `l`. -/
def Obligations.CodeStreamDependsOnDistances : Prop :=
  ∀ (c : Nat → Nat) (l h k : Nat), l ≤ h → encBits c (l + k) (h + k) = encBits (fun i => c (i + k)) l h

/-- R133 with R123, as one session: ENC, then DEC on a block with the same buffer and the same endpoints, whatever
stands in the interior cells and whatever its parameters (R136), restores every cell ENC read. Where cells of the range
are unwritten, that the order check and the code stream of one ENC see the same value of each, so that the stream can be
decoded, is the model's choice (entry 4, DESIGN CHOICE, unsafe); U1 leaves each read open. -/
def Obligations.EncThenDecRestoresTheCells : Prop :=
  ∀ (s t u : State) (l : IndexWord) (h : DataWord), s.Inv → s.fault = false → s.rp = s.wp →
    exec (.enc l h) s = .next t → t.fault = false →
    u.Inv → u.fault = false → h.toNat < u.cfg.nmax → SameBuffer t u →
    u.cellAt l.toNat = s.cellAt l.toNat → u.cellAt h.toNat = s.cellAt h.toNat →
    ∃ v, exec (.dec l h) u = .next v ∧ v.rp = v.wp ∧ v.rsp = t.rsp ∧
      ∀ i, l.toNat ≤ i → i ≤ h.toNat → v.cellAt i = s.cellAt i

/-! ### Prefix sums -/

/-- R152: BUILD replaces the first `n` cells by their prefix sums, or raises BADARG, or RANGE at the least index whose
sum reaches `2 ^ VW`. -/
def Obligations.BuildReplacesByPrefixSums : Prop :=
  ∀ (n : IndexWord) (ub : DataWord),
    decode (cmdWord 0x30 n ub) = .ok (.build n) ∧
    ∀ s : State, s.Inv → s.fault = false →
      (s.cfg.nmax < n.toNat → RaisesOn (.build n) s .badarg (n.setWidth 64)) ∧
      (n.toNat ≤ s.cfg.nmax → ∀ i, i < n.toNat → 2 ^ s.cfg.vw ≤ prefixSum s.cellAt i →
        (∀ j, j < i → prefixSum s.cellAt j < 2 ^ s.cfg.vw) →
        RaisesOn (.build n) s .range (BitVec.ofNat 64 i)) ∧
      (n.toNat ≤ s.cfg.nmax → (∀ i, i < n.toNat → prefixSum s.cellAt i < 2 ^ s.cfg.vw) →
        ∃ t, exec (.build n) s = .next t ∧ Answers t 0 ∧ SameControl s t ∧ SameBuffer s t ∧
          (∀ i, i < n.toNat → t.cellAt i = prefixSum s.cellAt i) ∧
          (∀ j, n.toNat ≤ j → SameCell s t j) ∧ (n.toNat ≤ 1 → SameCells s t))

/-- R155: INVERT replaces the first `n` cells by their first differences, or raises BADARG, or ORDER with the first
descent. -/
def Obligations.InvertReplacesByDifferences : Prop :=
  ∀ (n : IndexWord) (ub : DataWord),
    decode (cmdWord 0x31 n ub) = .ok (.invert n) ∧
    ∀ s : State, s.fault = false →
      (s.cfg.nmax < n.toNat → RaisesOn (.invert n) s .badarg (n.setWidth 64)) ∧
      (n.toNat ≤ s.cfg.nmax → ∀ i, IsFirstDescent s.cellAt 0 (n.toNat - 1) i →
        RaisesOn (.invert n) s .order (BitVec.ofNat 64 i)) ∧
      (n.toNat ≤ s.cfg.nmax → Nondecreasing s.cellAt 0 (n.toNat - 1) →
        ∃ t, exec (.invert n) s = .next t ∧ Answers t 0 ∧ SameControl s t ∧ SameBuffer s t ∧
          (0 < n.toNat → t.cellAt 0 = s.cellAt 0) ∧
          (∀ i, 0 < i → i < n.toNat → t.cellAt i = s.cellAt i - s.cellAt (i - 1)) ∧
          (∀ j, n.toNat ≤ j → SameCell s t j) ∧ (n.toNat ≤ 1 → SameCells s t))

/-- R151: the laws of the two functions. -/
def Obligations.BuildAndInvertLaws : Prop :=
  (∀ (f : Nat → Nat) (n : Nat),
    Nondecreasing (prefixSum f) 0 n ∧ prefixSum f n = ((List.range (n + 1)).map f).sum ∧
      ∀ i, i ≤ n → firstDiff (prefixSum f) i = f i) ∧
  ∀ (c : Nat → Nat) (n : Nat), Nondecreasing c 0 n → ∀ i, i ≤ n → prefixSum (firstDiff c) i = c i

/-- R156, R153: INVERT after BUILD restores the cells, BUILD after INVERT restores the cells, and the output of BUILD
is nondecreasing. Where a cell is unwritten, the statement rests on the model's choices: each command reads the cell as
one value (entry 4, DESIGN CHOICE), and the second command runs with the same number of the free values as the first, no
acceptance standing between (entry 5, DESIGN CHOICE); U1 and R245 leave it open. `BuildAndInvertWriteTheirCells` says it
across an acceptance. -/
def Obligations.BuildAndInvertUndoEachOther : Prop :=
  ∀ (n : IndexWord) (s t : State), s.Inv → s.fault = false →
    (exec (.build n) s = .next t → t.fault = false →
      Nondecreasing t.cellAt 0 (n.toNat - 1) ∧
      ∃ u, exec (.invert n) t = .next u ∧ u.fault = false ∧ ∀ j, u.cellAt j = s.cellAt j) ∧
    (exec (.invert n) s = .next t → t.fault = false →
      ∃ u, exec (.build n) t = .next u ∧ u.fault = false ∧ ∀ j, u.cellAt j = s.cellAt j)

/-! ### The mapper -/

/-- R161, R162, R163: the formulas, the two inverse laws, the bijection at a fixed width with its extremes, and the
forms on 64-bit words. -/
def Obligations.MapperLaws : Prop :=
  (∀ e : Int, (0 ≤ e → (mapInt e : Int) = 2 * e) ∧ (e < 0 → (mapInt e : Int) = 2 * |e| - 1) ∧
    (mapInt e % 2 = 0 ↔ 0 ≤ e)) ∧
  (∀ n : Nat, (n % 2 = 0 → 2 * unmapNat n = n) ∧ (n % 2 = 1 → 2 * unmapNat n = -(n + 1))) ∧
  (∀ e : Int, unmapNat (mapInt e) = e) ∧ (∀ n : Nat, mapInt (unmapNat n) = n) ∧
  (∀ (k : Nat) (e : Int), -2 ^ k ≤ e ∧ e ≤ 2 ^ k - 1 ↔ mapInt e ≤ 2 ^ (k + 1) - 1) ∧
  (∀ k : Nat, mapInt (2 ^ k - 1) = 2 ^ (k + 1) - 2 ∧ mapInt (-2 ^ k) = 2 ^ (k + 1) - 1) ∧
  ∀ w : DataWord,
    BitVec.ofNat 64 (mapInt w.toInt) = (w <<< 1) ^^^ w.sshiftRight 63 ∧
    BitVec.ofInt 64 (unmapNat w.toNat) = (w >>> 1) ^^^ (0 - (w &&& 1))

/-- R164. -/
def Obligations.MapRespondsTheMappedValue : Prop :=
  ∀ (ua : IndexWord) (e : DataWord),
    decode (cmdWord 0x40 ua e) = .ok (.map e) ∧
    (∀ s : State, s.fault = false →
      ∃ t v, exec (.map e) s = .next t ∧ Answers t v ∧ NoStateChange s t ∧
        (0 ≤ e.toInt → (v.toNat : Int) = 2 * e.toInt) ∧ (e.toInt < 0 → (v.toNat : Int) = -2 * e.toInt - 1))

/-- R165. -/
def Obligations.UnmapRespondsTheResidual : Prop :=
  ∀ (ua : IndexWord) (n : DataWord),
    decode (cmdWord 0x41 ua n) = .ok (.unmap n) ∧
    (∀ s : State, s.fault = false →
      ∃ t v, exec (.unmap n) s = .next t ∧ Answers t v ∧ NoStateChange s t ∧
        (n.toNat % 2 = 0 → 2 * v.toInt = n.toNat) ∧ (n.toNat % 2 = 1 → 2 * v.toInt = -(n.toNat + 1)))

/-- R166: STE stores the mapped residual and nothing else, or faults. -/
def Obligations.SteStoresTheMappedResidual : Prop :=
  ∀ (i : IndexWord) (e : DataWord),
    decode (cmdWord 0x42 i e) = .ok (.ste i e) ∧
    ∀ s : State, s.fault = false →
      (s.cfg.nmax ≤ i.toNat → RaisesOn (.ste i e) s .badarg (i.setWidth 64)) ∧
      (i.toNat < s.cfg.nmax → 2 ^ s.cfg.vw ≤ mapInt e.toInt →
        RaisesOn (.ste i e) s .range (i.setWidth 64)) ∧
      (i.toNat < s.cfg.nmax → mapInt e.toInt < 2 ^ s.cfg.vw →
        ∃ t, exec (.ste i e) s = .next t ∧ Answers t 0 ∧ SameControl s t ∧ SameBuffer s t ∧
          Memory.read t.seq i.toNat = some (mapInt e.toInt) ∧ t.cellAt i.toNat = mapInt e.toInt ∧
          ∀ j, j ≠ i.toNat → SameCell s t j)

/-- R168: the result is the residual of the cell's value, and lies in the signed range of `VW` bits. -/
def Obligations.LdeLoadsTheResidual : Prop :=
  ∀ (i : IndexWord) (ub : DataWord),
    decode (cmdWord 0x43 i ub) = .ok (.lde i) ∧
    ∀ s : State, s.Inv → s.fault = false →
      (s.cfg.nmax ≤ i.toNat → RaisesOn (.lde i) s .badarg (i.setWidth 64)) ∧
      (i.toNat < s.cfg.nmax →
        ∃ t v, exec (.lde i) s = .next t ∧ Answers t v ∧ NoStateChange s t ∧
          v.toInt = unmapNat (s.cellAt i.toNat) ∧
          -2 ^ (s.cfg.vw - 1) ≤ v.toInt ∧ v.toInt ≤ 2 ^ (s.cfg.vw - 1) - 1)

/-- R167: the residuals STE can store are exactly those of the signed range of `VW` bits, the later store wins, and
LDE of the cell returns the residual. -/
def Obligations.SteThenLdeReturnsTheResidual : Prop :=
  ∀ (s : State) (i : IndexWord) (e : DataWord), s.Inv → s.fault = false → i.toNat < s.cfg.nmax →
    (-2 ^ (s.cfg.vw - 1) ≤ e.toInt ∧ e.toInt ≤ 2 ^ (s.cfg.vw - 1) - 1 →
      ∃ t u, exec (.ste i e) s = .next t ∧ exec (.lde i) t = .next u ∧ Answers u e ∧
        ∀ e' t', exec (.ste i e') t = .next t' → t'.fault = false →
          t'.cellAt i.toNat = mapInt e'.toInt) ∧
    (¬(-2 ^ (s.cfg.vw - 1) ≤ e.toInt ∧ e.toInt ≤ 2 ^ (s.cfg.vw - 1) - 1) →
      RaisesOn (.ste i e) s .range (i.setWidth 64)) ∧
    (s.cfg.vw = 64 → -2 ^ (s.cfg.vw - 1) ≤ e.toInt ∧ e.toInt ≤ 2 ^ (s.cfg.vw - 1) - 1)

/-! ### Cells written, across an acceptance -/

/-- R55 with R152, R155 and R156: for `n >= 2` BUILD and INVERT write all of the cells `0 .. n-1`, cell 0 too, so that
they are read back as left and the opposite command, after its acceptance, restores what the first one read, whatever the
free values. That cell 0 is written with the value it had and that it is not for `n = 1` (R153, R156) is how the model
reads R55 together with the pseudocode: entry 16 (DEDUCED). That the first command reads an unwritten cell as one value is
entry 4 (DESIGN CHOICE). -/
def Obligations.BuildAndInvertWriteTheirCells : Prop :=
  ∀ (n : IndexWord) (s t : State) (w : CmdWord) (rest : List HostInput), s.Inv → s.fault = false → 2 ≤ n.toNat →
    (exec (.build n) s = .next t → t.fault = false →
      (∀ j, j < n.toNat → Memory.read t.seq j = some (prefixSum s.cellAt j)) ∧
      ∃ u, exec (.invert n) (t.accept w rest) = .next u ∧ u.fault = false ∧
        ∀ j, j < n.toNat → Memory.read u.seq j = some (s.cellAt j)) ∧
    (exec (.invert n) s = .next t → t.fault = false →
      (∀ j, j < n.toNat → Memory.read t.seq j = some (firstDiff s.cellAt j)) ∧
      ∃ u, exec (.build n) (t.accept w rest) = .next u ∧ u.fault = false ∧
        ∀ j, j < n.toNat → Memory.read u.seq j = some (s.cellAt j))
end

