-- ==== Sys2Proof/Laws/State.lean ====
section
/-!
SUPPORT. One lemma per field of State per named update, each true by unfolding the update once, so that no later proof
unfolds a record update; and what the derived readings (`wp`, `unread`, `cellAt`) see of them.
-/

namespace Sys2Proof.Machine

/-! ### setCell -/

@[simp] theorem setCell_cfg (s : State) (i v : Nat) : (s.setCell i v).cfg = s.cfg := rfl
@[simp] theorem setCell_seq (s : State) (i v : Nat) : (s.setCell i v).seq = Memory.write s.seq i v := rfl
@[simp] theorem setCell_bits (s : State) (i v : Nat) : (s.setCell i v).bits = s.bits := rfl
@[simp] theorem setCell_rp (s : State) (i v : Nat) : (s.setCell i v).rp = s.rp := rfl
@[simp] theorem setCell_fault (s : State) (i v : Nat) : (s.setCell i v).fault = s.fault := rfl
@[simp] theorem setCell_cause (s : State) (i v : Nat) : (s.setCell i v).cause = s.cause := rfl
@[simp] theorem setCell_finfo (s : State) (i v : Nat) : (s.setCell i v).finfo = s.finfo := rfl
@[simp] theorem setCell_stk (s : State) (i v : Nat) : (s.setCell i v).stk = s.stk := rfl
@[simp] theorem setCell_inFlight (s : State) (i v : Nat) : (s.setCell i v).inFlight = s.inFlight := rfl
@[simp] theorem setCell_rsp (s : State) (i v : Nat) : (s.setCell i v).rsp = s.rsp := rfl
@[simp] theorem setCell_host (s : State) (i v : Nat) : (s.setCell i v).host = s.host := rfl
@[simp] theorem setCell_freeTick (s : State) (i v : Nat) : (s.setCell i v).freeTick = s.freeTick := rfl

/-! ### respond -/

@[simp] theorem respond_cfg (s : State) (res : DataWord) : (s.respond res).cfg = s.cfg := rfl
@[simp] theorem respond_seq (s : State) (res : DataWord) : (s.respond res).seq = s.seq := rfl
@[simp] theorem respond_bits (s : State) (res : DataWord) : (s.respond res).bits = s.bits := rfl
@[simp] theorem respond_rp (s : State) (res : DataWord) : (s.respond res).rp = s.rp := rfl
@[simp] theorem respond_fault (s : State) (res : DataWord) : (s.respond res).fault = s.fault := rfl
@[simp] theorem respond_cause (s : State) (res : DataWord) : (s.respond res).cause = s.cause := rfl
@[simp] theorem respond_finfo (s : State) (res : DataWord) : (s.respond res).finfo = s.finfo := rfl
@[simp] theorem respond_stk (s : State) (res : DataWord) : (s.respond res).stk = s.stk := rfl
@[simp] theorem respond_inFlight (s : State) (res : DataWord) : (s.respond res).inFlight = none := rfl
@[simp] theorem respond_rsp (s : State) (res : DataWord) : (s.respond res).rsp = some (okResponse res) := rfl
@[simp] theorem respond_host (s : State) (res : DataWord) : (s.respond res).host = s.host := rfl
@[simp] theorem respond_freeTick (s : State) (res : DataWord) : (s.respond res).freeTick = s.freeTick := rfl

/-! ### refuse -/

@[simp] theorem refuse_cfg (s : State) : (s.refuse).cfg = s.cfg := rfl
@[simp] theorem refuse_seq (s : State) : (s.refuse).seq = s.seq := rfl
@[simp] theorem refuse_bits (s : State) : (s.refuse).bits = s.bits := rfl
@[simp] theorem refuse_rp (s : State) : (s.refuse).rp = s.rp := rfl
@[simp] theorem refuse_fault (s : State) : (s.refuse).fault = s.fault := rfl
@[simp] theorem refuse_cause (s : State) : (s.refuse).cause = s.cause := rfl
@[simp] theorem refuse_finfo (s : State) : (s.refuse).finfo = s.finfo := rfl
@[simp] theorem refuse_stk (s : State) : (s.refuse).stk = s.stk := rfl
@[simp] theorem refuse_inFlight (s : State) : (s.refuse).inFlight = none := rfl
@[simp] theorem refuse_rsp (s : State) : (s.refuse).rsp = some (faultResponse s.cause) := rfl
@[simp] theorem refuse_host (s : State) : (s.refuse).host = s.host := rfl
@[simp] theorem refuse_freeTick (s : State) : (s.refuse).freeTick = s.freeTick := rfl

/-! ### raise -/

@[simp] theorem raise_cfg (s : State) (c : Cause) (info : DataWord) : (s.raise c info).cfg = s.cfg := rfl
@[simp] theorem raise_seq (s : State) (c : Cause) (info : DataWord) : (s.raise c info).seq = [] := rfl
@[simp] theorem raise_bits (s : State) (c : Cause) (info : DataWord) : (s.raise c info).bits = s.bitsAfterFault := rfl
@[simp] theorem raise_rp (s : State) (c : Cause) (info : DataWord) : (s.raise c info).rp = Config.freeReadPos s.freeTick % (s.bitsAfterFault.length + 1) := rfl
@[simp] theorem raise_fault (s : State) (c : Cause) (info : DataWord) : (s.raise c info).fault = true := rfl
@[simp] theorem raise_cause (s : State) (c : Cause) (info : DataWord) : (s.raise c info).cause = causeCode c := rfl
@[simp] theorem raise_finfo (s : State) (c : Cause) (info : DataWord) : (s.raise c info).finfo = info := rfl
@[simp] theorem raise_stk (s : State) (c : Cause) (info : DataWord) : (s.raise c info).stk = [] := rfl
@[simp] theorem raise_inFlight (s : State) (c : Cause) (info : DataWord) : (s.raise c info).inFlight = none := rfl
@[simp] theorem raise_rsp (s : State) (c : Cause) (info : DataWord) : (s.raise c info).rsp = some (faultResponse (causeCode c)) := rfl
@[simp] theorem raise_host (s : State) (c : Cause) (info : DataWord) : (s.raise c info).host = s.host := rfl
@[simp] theorem raise_freeTick (s : State) (c : Cause) (info : DataWord) : (s.raise c info).freeTick = s.freeTick := rfl

/-! ### clear -/

@[simp] theorem clear_cfg (s : State) : (s.clear).cfg = s.cfg := rfl
@[simp] theorem clear_seq (s : State) : (s.clear).seq = [] := rfl
@[simp] theorem clear_bits (s : State) : (s.clear).bits = [] := rfl
@[simp] theorem clear_rp (s : State) : (s.clear).rp = 0 := rfl
@[simp] theorem clear_fault (s : State) : (s.clear).fault = false := rfl
@[simp] theorem clear_cause (s : State) : (s.clear).cause = 0 := rfl
@[simp] theorem clear_finfo (s : State) : (s.clear).finfo = 0 := rfl
@[simp] theorem clear_stk (s : State) : (s.clear).stk = [] := rfl
@[simp] theorem clear_inFlight (s : State) : (s.clear).inFlight = s.inFlight := rfl
@[simp] theorem clear_rsp (s : State) : (s.clear).rsp = s.rsp := rfl
@[simp] theorem clear_host (s : State) : (s.clear).host = s.host := rfl
@[simp] theorem clear_freeTick (s : State) : (s.clear).freeTick = s.freeTick := rfl

/-! ### hardReset -/

@[simp] theorem hardReset_cfg (s : State) (rest : List HostInput) : (s.hardReset rest).cfg = s.cfg := rfl
@[simp] theorem hardReset_seq (s : State) (rest : List HostInput) : (s.hardReset rest).seq = [] := rfl
@[simp] theorem hardReset_bits (s : State) (rest : List HostInput) : (s.hardReset rest).bits = [] := rfl
@[simp] theorem hardReset_rp (s : State) (rest : List HostInput) : (s.hardReset rest).rp = 0 := rfl
@[simp] theorem hardReset_fault (s : State) (rest : List HostInput) : (s.hardReset rest).fault = false := rfl
@[simp] theorem hardReset_cause (s : State) (rest : List HostInput) : (s.hardReset rest).cause = 0 := rfl
@[simp] theorem hardReset_finfo (s : State) (rest : List HostInput) : (s.hardReset rest).finfo = 0 := rfl
@[simp] theorem hardReset_stk (s : State) (rest : List HostInput) : (s.hardReset rest).stk = [] := rfl
@[simp] theorem hardReset_inFlight (s : State) (rest : List HostInput) : (s.hardReset rest).inFlight = none := rfl
@[simp] theorem hardReset_rsp (s : State) (rest : List HostInput) : (s.hardReset rest).rsp = none := rfl
@[simp] theorem hardReset_host (s : State) (rest : List HostInput) : (s.hardReset rest).host = rest := rfl
@[simp] theorem hardReset_freeTick (s : State) (rest : List HostInput) : (s.hardReset rest).freeTick = s.freeTick + 1 := rfl

/-! ### accept -/

@[simp] theorem accept_cfg (s : State) (w : CmdWord) (rest : List HostInput) : (s.accept w rest).cfg = s.cfg := rfl
@[simp] theorem accept_seq (s : State) (w : CmdWord) (rest : List HostInput) : (s.accept w rest).seq = s.seq := rfl
@[simp] theorem accept_bits (s : State) (w : CmdWord) (rest : List HostInput) : (s.accept w rest).bits = s.bits := rfl
@[simp] theorem accept_rp (s : State) (w : CmdWord) (rest : List HostInput) : (s.accept w rest).rp = s.rp := rfl
@[simp] theorem accept_fault (s : State) (w : CmdWord) (rest : List HostInput) : (s.accept w rest).fault = s.fault := rfl
@[simp] theorem accept_cause (s : State) (w : CmdWord) (rest : List HostInput) : (s.accept w rest).cause = s.cause := rfl
@[simp] theorem accept_finfo (s : State) (w : CmdWord) (rest : List HostInput) : (s.accept w rest).finfo = s.finfo := rfl
@[simp] theorem accept_stk (s : State) (w : CmdWord) (rest : List HostInput) : (s.accept w rest).stk = s.stk := rfl
@[simp] theorem accept_inFlight (s : State) (w : CmdWord) (rest : List HostInput) : (s.accept w rest).inFlight = some w := rfl
@[simp] theorem accept_rsp (s : State) (w : CmdWord) (rest : List HostInput) : (s.accept w rest).rsp = none := rfl
@[simp] theorem accept_host (s : State) (w : CmdWord) (rest : List HostInput) : (s.accept w rest).host = rest := rfl
@[simp] theorem accept_freeTick (s : State) (w : CmdWord) (rest : List HostInput) : (s.accept w rest).freeTick = s.freeTick + 1 := rfl

/-! ### idle -/

@[simp] theorem idle_cfg (s : State) : (s.idle).cfg = s.cfg := rfl
@[simp] theorem idle_seq (s : State) : (s.idle).seq = s.seq := rfl
@[simp] theorem idle_bits (s : State) : (s.idle).bits = s.bits := rfl
@[simp] theorem idle_rp (s : State) : (s.idle).rp = s.rp := rfl
@[simp] theorem idle_fault (s : State) : (s.idle).fault = s.fault := rfl
@[simp] theorem idle_cause (s : State) : (s.idle).cause = s.cause := rfl
@[simp] theorem idle_finfo (s : State) : (s.idle).finfo = s.finfo := rfl
@[simp] theorem idle_stk (s : State) : (s.idle).stk = s.stk := rfl
@[simp] theorem idle_inFlight (s : State) : (s.idle).inFlight = s.inFlight := rfl
@[simp] theorem idle_rsp (s : State) : (s.idle).rsp = none := rfl
@[simp] theorem idle_host (s : State) : (s.idle).host = s.host := rfl
@[simp] theorem idle_freeTick (s : State) : (s.idle).freeTick = s.freeTick := rfl

/-! ### withFetchWord -/

@[simp] theorem withFetchWord_cfg (s : State) (nbits w : Nat) : (s.withFetchWord nbits w).cfg = s.cfg := rfl
@[simp] theorem withFetchWord_seq (s : State) (nbits w : Nat) : (s.withFetchWord nbits w).seq = s.seq := rfl
@[simp] theorem withFetchWord_bits (s : State) (nbits w : Nat) : (s.withFetchWord nbits w).bits = s.bits := rfl
@[simp] theorem withFetchWord_rp (s : State) (nbits w : Nat) : (s.withFetchWord nbits w).rp = s.rp := rfl
@[simp] theorem withFetchWord_fault (s : State) (nbits w : Nat) : (s.withFetchWord nbits w).fault = s.fault := rfl
@[simp] theorem withFetchWord_cause (s : State) (nbits w : Nat) : (s.withFetchWord nbits w).cause = s.cause := rfl
@[simp] theorem withFetchWord_finfo (s : State) (nbits w : Nat) : (s.withFetchWord nbits w).finfo = s.finfo := rfl
@[simp] theorem withFetchWord_stk (s : State) (nbits w : Nat) : (s.withFetchWord nbits w).stk = s.stk := rfl
@[simp] theorem withFetchWord_inFlight (s : State) (nbits w : Nat) : (s.withFetchWord nbits w).inFlight = none := rfl
@[simp] theorem withFetchWord_rsp (s : State) (nbits w : Nat) : (s.withFetchWord nbits w).rsp = s.rsp := rfl
@[simp] theorem withFetchWord_host (s : State) (nbits w : Nat) : (s.withFetchWord nbits w).host = .command (tableWord nbits w) :: s.host := rfl
@[simp] theorem withFetchWord_freeTick (s : State) (nbits w : Nat) : (s.withFetchWord nbits w).freeTick = s.freeTick := rfl

/-! ### present -/

@[simp] theorem present_cfg (s : State) (w : CmdWord) : (s.present w).cfg = s.cfg := rfl
@[simp] theorem present_seq (s : State) (w : CmdWord) : (s.present w).seq = s.seq := rfl
@[simp] theorem present_bits (s : State) (w : CmdWord) : (s.present w).bits = s.bits := rfl
@[simp] theorem present_rp (s : State) (w : CmdWord) : (s.present w).rp = s.rp := rfl
@[simp] theorem present_fault (s : State) (w : CmdWord) : (s.present w).fault = s.fault := rfl
@[simp] theorem present_cause (s : State) (w : CmdWord) : (s.present w).cause = s.cause := rfl
@[simp] theorem present_finfo (s : State) (w : CmdWord) : (s.present w).finfo = s.finfo := rfl
@[simp] theorem present_stk (s : State) (w : CmdWord) : (s.present w).stk = s.stk := rfl
@[simp] theorem present_inFlight (s : State) (w : CmdWord) : (s.present w).inFlight = none := rfl
@[simp] theorem present_rsp (s : State) (w : CmdWord) : (s.present w).rsp = s.rsp := rfl
@[simp] theorem present_host (s : State) (w : CmdWord) : (s.present w).host = .command w :: s.host := rfl
@[simp] theorem present_freeTick (s : State) (w : CmdWord) : (s.present w).freeTick = s.freeTick := rfl

/-! ### Derived readings -/

theorem wp_eq (s : State) : s.wp = s.bits.length := rfl

theorem unread_eq (s : State) : s.unread = s.bits.drop s.rp := rfl

/-- What a cell reads as depends on the store, the parameters and the free-value counter alone. -/
theorem cellAt_congr {s t : State} (hs : t.seq = s.seq) (hc : t.cfg = s.cfg) (ht : t.freeTick = s.freeTick)
    (j : Nat) : t.cellAt j = s.cellAt j := by
  simp only [State.cellAt, hs, hc, ht]

@[simp] theorem setCell_wp (s : State) (i v : Nat) : (s.setCell i v).wp = s.wp := rfl
@[simp] theorem setCell_unread (s : State) (i v : Nat) : (s.setCell i v).unread = s.unread := rfl
@[simp] theorem respond_wp (s : State) (res : DataWord) : (s.respond res).wp = s.wp := rfl
@[simp] theorem respond_unread (s : State) (res : DataWord) : (s.respond res).unread = s.unread := rfl
@[simp] theorem respond_cellAt (s : State) (res : DataWord) (j : Nat) :
    (s.respond res).cellAt j = s.cellAt j := rfl
@[simp] theorem refuse_wp (s : State) : (s.refuse).wp = s.wp := rfl
@[simp] theorem refuse_unread (s : State) : (s.refuse).unread = s.unread := rfl
@[simp] theorem refuse_cellAt (s : State) (j : Nat) :
    (s.refuse).cellAt j = s.cellAt j := rfl
@[simp] theorem accept_wp (s : State) (w : CmdWord) (rest : List HostInput) : (s.accept w rest).wp = s.wp := rfl
@[simp] theorem accept_unread (s : State) (w : CmdWord) (rest : List HostInput) : (s.accept w rest).unread = s.unread := rfl
@[simp] theorem idle_wp (s : State) : (s.idle).wp = s.wp := rfl
@[simp] theorem idle_unread (s : State) : (s.idle).unread = s.unread := rfl
@[simp] theorem idle_cellAt (s : State) (j : Nat) :
    (s.idle).cellAt j = s.cellAt j := rfl
@[simp] theorem withFetchWord_wp (s : State) (nbits w : Nat) : (s.withFetchWord nbits w).wp = s.wp := rfl
@[simp] theorem withFetchWord_unread (s : State) (nbits w : Nat) : (s.withFetchWord nbits w).unread = s.unread := rfl
@[simp] theorem withFetchWord_cellAt (s : State) (nbits w : Nat) (j : Nat) :
    (s.withFetchWord nbits w).cellAt j = s.cellAt j := rfl
@[simp] theorem present_wp (s : State) (w : CmdWord) : (s.present w).wp = s.wp := rfl
@[simp] theorem present_unread (s : State) (w : CmdWord) : (s.present w).unread = s.unread := rfl
@[simp] theorem present_cellAt (s : State) (w : CmdWord) (j : Nat) :
    (s.present w).cellAt j = s.cellAt j := rfl
@[simp] theorem clear_wp (s : State) : s.clear.wp = 0 := rfl

@[simp] theorem hardReset_wp (s : State) (rest : List HostInput) : (s.hardReset rest).wp = 0 := rfl

/-- Fault entry keeps the sizes of the buffer. -/
theorem raise_wp_le (s : State) (c : Cause) (info : DataWord) : (s.raise c info).wp ≤ s.cfg.bcap := by
  simp [State.wp, State.bitsAfterFault]

/-- Fault entry keeps the order of the two positions. -/
theorem raise_rp_le (s : State) (c : Cause) (info : DataWord) :
    (s.raise c info).rp ≤ (s.raise c info).wp := by
  simpa [State.wp] using Nat.le_of_lt_succ (Nat.mod_lt _ (Nat.succ_pos _))

end Sys2Proof.Machine
end

