-- ==== Sys2Proof/Laws/Bits.lean ====
section
/-!
SUPPORT. The laws of the integer functions of R11: `tobits` has its width and is inverted by `frombits`, a field of
joined parts is the join of the fields, and `bitlen` is the least sufficient width.
-/

namespace Sys2Proof.Machine

@[simp] theorem tobits_zero (v : Nat) : tobits 0 v = [] := rfl

theorem tobits_succ (w v : Nat) : tobits (w + 1) v = v.testBit w :: tobits w v := rfl

@[simp] theorem length_tobits (w v : Nat) : (tobits w v).length = w := by
  induction w with
  | zero => rfl
  | succ w ih => simp [tobits_succ, ih]

/-- Position `k` of a field holds bit `w - 1 - k` of its value (R50). -/
theorem getElem?_tobits (w v k : Nat) (h : k < w) : (tobits w v)[k]? = some (v.testBit (w - 1 - k)) := by
  induction w generalizing k with
  | zero => omega
  | succ w ih =>
    cases k with
    | zero => simp [tobits_succ]
    | succ k =>
      rw [tobits_succ, List.getElem?_cons_succ, ih k (by omega)]
      congr 2
      omega

theorem tobits_zero_value (w : Nat) : tobits w 0 = List.replicate w false := by
  induction w with
  | zero => rfl
  | succ w ih => simp [tobits_succ, ih, List.replicate_succ]

/-- Only the low `w` bits of the value are in the field. -/
theorem tobits_mod (w v : Nat) : tobits w (v % 2 ^ w) = tobits w v := by
  have key : ∀ k ≤ w, tobits k (v % 2 ^ w) = tobits k v := by
    intro k
    induction k with
    | zero => intro _; rfl
    | succ k ih =>
      intro hk
      rw [tobits_succ, tobits_succ, ih (by omega), Nat.testBit_mod_two_pow]
      simp [show k < w by omega]
  exact key w le_rfl

/-! ### frombits -/

theorem foldl_frombits (bs : List Bool) (a : Nat) :
    bs.foldl (fun acc b => 2 * acc + b.toNat) a = a * 2 ^ bs.length + frombits bs := by
  induction bs generalizing a with
  | nil => simp [frombits]
  | cons b bs ih =>
    simp only [List.foldl_cons, frombits, List.length_cons]
    rw [ih, ih (2 * 0 + b.toNat)]
    ring

@[simp] theorem frombits_nil : frombits [] = 0 := rfl

theorem frombits_cons (b : Bool) (bs : List Bool) :
    frombits (b :: bs) = b.toNat * 2 ^ bs.length + frombits bs := by
  have := foldl_frombits bs (2 * 0 + b.toNat)
  simpa [frombits] using this

theorem frombits_append (bs cs : List Bool) :
    frombits (bs ++ cs) = frombits bs * 2 ^ cs.length + frombits cs := by
  induction bs with
  | nil => simp
  | cons b bs ih =>
    rw [List.cons_append, frombits_cons, frombits_cons, ih, List.length_append, pow_add]
    ring

theorem frombits_lt (bs : List Bool) : frombits bs < 2 ^ bs.length := by
  induction bs with
  | nil => simp
  | cons b bs ih =>
    rw [frombits_cons, List.length_cons, pow_succ]
    cases b <;> simp <;> omega

/-- `frombits` reads the low bits `tobits` wrote. -/
theorem frombits_tobits_mod (w v : Nat) : frombits (tobits w v) = v % 2 ^ w := by
  induction w with
  | zero => simp [Nat.mod_one]
  | succ w ih =>
    rw [tobits_succ, frombits_cons, ih, length_tobits, pow_succ, Nat.mod_mul, Nat.toNat_testBit,
      Nat.mul_comm, Nat.add_comm]

/-- `frombits(tobits(w, v)) = v` for a value that fits (R11). -/
theorem frombits_tobits {w v : Nat} (h : v < 2 ^ w) : frombits (tobits w v) = v := by
  rw [frombits_tobits_mod, Nat.mod_eq_of_lt h]

/-- Two bit strings of one length with one value are equal. -/
theorem frombits_inj {bs cs : List Bool} (hl : bs.length = cs.length) (h : frombits bs = frombits cs) :
    bs = cs := by
  induction bs generalizing cs with
  | nil => simpa using hl.symm
  | cons b bs ih =>
    cases cs with
    | nil => simp at hl
    | cons c cs =>
      simp only [List.length_cons, Nat.add_right_cancel_iff] at hl
      rw [frombits_cons, frombits_cons, hl] at h
      have h1 := frombits_lt bs
      have h2 := frombits_lt cs
      rw [hl] at h1
      have hb : b = c := by
        cases b <;> cases c <;> simp at h ⊢ <;> omega
      subst hb
      exact congrArg _ (ih hl (by omega))

/-- `tobits` writes back what `frombits` read. -/
theorem tobits_frombits (bs : List Bool) : tobits bs.length (frombits bs) = bs :=
  frombits_inj (by simp) (by rw [frombits_tobits (frombits_lt bs)])

/-- A field of joined parts is the join of the fields (R52). -/
theorem tobits_append (w1 w2 v1 v2 : Nat) (h : v2 < 2 ^ w2) :
    tobits (w1 + w2) (v1 * 2 ^ w2 + v2) = tobits w1 v1 ++ tobits w2 v2 := by
  apply frombits_inj
  · simp
  · rw [frombits_append, frombits_tobits_mod, frombits_tobits_mod, frombits_tobits h, length_tobits,
      pow_add, Nat.mul_comm (2 ^ w1), Nat.mul_comm v1, Nat.mod_mul, Nat.mul_add_mod, Nat.mod_eq_of_lt h,
      Nat.mul_add_div (Nat.two_pow_pos w2), Nat.div_eq_of_lt h]
    rw [Nat.add_zero, Nat.add_comm, Nat.mul_comm]

/-! ### bitlen -/

@[simp] theorem bitlen_zero : bitlen 0 = 0 := rfl

theorem lt_two_pow_bitlen (x : Nat) : x < 2 ^ bitlen x := by
  unfold bitlen
  split
  · simp_all
  · exact Nat.lt_log2_self

/-- `bitlen` is the least width that holds the value. -/
theorem bitlen_le_iff (x w : Nat) : bitlen x ≤ w ↔ x < 2 ^ w := by
  unfold bitlen
  split
  · simp_all
  · rename_i h
    rw [Nat.succ_le_iff, Nat.log2_lt h]

theorem bitlen_eq_zero_iff (x : Nat) : bitlen x = 0 ↔ x = 0 := by
  unfold bitlen
  split <;> simp_all

end Sys2Proof.Machine
end

