-- ==== Sys2Proof/Laws/Store.lean ====
section
/-!
SUPPORT. The laws of the sequence store: a cell reads what was last written to it, a write leaves every other cell
alone, and every write keeps the canonical form.
-/

namespace Sys2Proof.Machine

@[simp] theorem read_nil (i : Nat) : Memory.read [] i = none := rfl

@[simp] theorem read_write_same (m : Memory) (i v : Nat) :
    Memory.read (Memory.write m i v) i = some v := by
  induction m with
  | nil => simp [Memory.write, Memory.read]
  | cons p rest ih =>
    obtain ⟨k, x⟩ := p
    unfold Memory.write
    split
    · simp [Memory.read]
    · split
      · simp [Memory.read]
      · rename_i h1 h2
        simp [Memory.read, Ne.symm h2, ih]

theorem read_write_other (m : Memory) {i j : Nat} (v : Nat) (h : j ≠ i) :
    Memory.read (Memory.write m i v) j = Memory.read m j := by
  induction m with
  | nil => simp [Memory.write, Memory.read, Ne.symm h]
  | cons p rest ih =>
    obtain ⟨k, x⟩ := p
    unfold Memory.write
    split
    · simp [Memory.read, Ne.symm h]
    · split
      · rename_i h1 h2
        subst h2
        simp [Memory.read, Ne.symm h]
      · simp only [Memory.read, ih]

/-- The head of a written store is the old head or the written cell. -/
theorem write_head (m : Memory) (i v : Nat) :
    ∃ p rest, Memory.write m i v = p :: rest ∧ (p = (i, v) ∨ ∃ x rest', m = (p.1, x) :: rest' ∧ p.1 < i) := by
  cases m with
  | nil => exact ⟨_, _, rfl, .inl rfl⟩
  | cons q rest =>
    obtain ⟨k, x⟩ := q
    unfold Memory.write
    split
    · exact ⟨_, _, rfl, .inl rfl⟩
    · split
      · exact ⟨_, _, rfl, .inl rfl⟩
      · exact ⟨_, _, rfl, .inr ⟨x, rest, rfl, by simp only; omega⟩⟩

/-- A write keeps the canonical form. -/
theorem wf_write (m : Memory) (i v : Nat) (h : Memory.wf m = true) :
    Memory.wf (Memory.write m i v) = true := by
  induction m with
  | nil => rfl
  | cons p rest ih =>
    obtain ⟨k, x⟩ := p
    have htail : Memory.wf rest = true := by
      cases rest with
      | nil => rfl
      | cons q r => obtain ⟨k', x'⟩ := q; simp [Memory.wf] at h; exact h.2
    unfold Memory.write
    split
    · simpa [Memory.wf] using ⟨‹_›, h⟩
    · split
      · rename_i _ h2
        subst h2
        cases rest with
        | nil => rfl
        | cons q r => obtain ⟨k', x'⟩ := q; simpa [Memory.wf] using h
      · have hw := ih htail
        obtain ⟨q, r, hq, hcase⟩ := write_head rest i v
        rw [hq] at hw ⊢
        obtain ⟨k', x'⟩ := q
        have hlt : k < k' := by
          rcases hcase with h' | ⟨y, r', hr, _⟩
          · cases h'; omega
          · subst hr
            simp [Memory.wf] at h
            exact h.1
        simp [Memory.wf, hlt, hw]

/-- Every entry of a written store is the written cell or an old entry. -/
theorem mem_write {m : Memory} {i v : Nat} {p : Nat × Nat} (h : p ∈ Memory.write m i v) :
    p = (i, v) ∨ p ∈ m := by
  induction m with
  | nil => simpa [Memory.write] using h
  | cons q rest ih =>
    obtain ⟨k, x⟩ := q
    unfold Memory.write at h
    split at h
    · simpa using h
    · split at h
      · rcases List.mem_cons.mp h with h | h
        · exact .inl h
        · exact .inr (List.mem_cons_of_mem _ h)
      · rcases List.mem_cons.mp h with h | h
        · exact .inr (h ▸ List.mem_cons_self)
        · exact (ih h).imp_right (List.mem_cons_of_mem _)

/-- A value read from the store is one of its entries. -/
theorem mem_of_read {m : Memory} {i v : Nat} (h : Memory.read m i = some v) : (i, v) ∈ m := by
  induction m with
  | nil => cases h
  | cons q rest ih =>
    obtain ⟨k, x⟩ := q
    unfold Memory.read at h
    split at h
    · rename_i hk
      cases h
      exact hk ▸ List.mem_cons_self
    · exact List.mem_cons_of_mem _ (ih h)

/-! ### Cells of the state -/

theorem cellAt_of_read {s : State} {i v : Nat} (h : Memory.read s.seq i = some v) : s.cellAt i = v := by
  simp [State.cellAt, h]

@[simp] theorem cellAt_setCell_same (s : State) (i v : Nat) : (s.setCell i v).cellAt i = v :=
  cellAt_of_read (by simp)

theorem cellAt_setCell_other (s : State) {i j : Nat} (v : Nat) (h : j ≠ i) :
    (s.setCell i v).cellAt j = s.cellAt j := by
  simp only [State.cellAt, setCell_seq, setCell_cfg, setCell_freeTick, read_write_other _ _ h]

theorem sameCell_setCell_other (s : State) {i j : Nat} (v : Nat) (h : j ≠ i) :
    SameCell s (s.setCell i v) j :=
  ⟨by simp [read_write_other _ _ h], cellAt_setCell_other s v h⟩

/-- Every cell reads below `2 ^ VW`: a written one by the invariant, an unwritten one because its free value is
brought there. -/
theorem cellAt_lt {s : State} (h : ∀ p ∈ s.seq, p.2 < 2 ^ s.cfg.vw) (i : Nat) :
    s.cellAt i < 2 ^ s.cfg.vw := by
  unfold State.cellAt
  split
  · exact h _ (mem_of_read ‹_›)
  · exact Nat.mod_lt _ (Nat.two_pow_pos _)

theorem State.Inv.cellAt_lt {s : State} (h : s.Inv) (i : Nat) : s.cellAt i < 2 ^ s.cfg.vw :=
  Machine.cellAt_lt (fun p hp => (h.seq_fits p hp).2) i

/-- Reset leaves the store in its canonical form. -/
theorem reset_seq_wf : Memory.wf State.reset.seq = true := rfl

/-! ### Unchanged parts -/

theorem SameCell.refl (s : State) (j : Nat) : SameCell s s j := ⟨rfl, rfl⟩

/-- A cell whose entry is unchanged reads as before. -/
theorem SameCell.of_read {s t : State} {j : Nat} (hr : Memory.read t.seq j = Memory.read s.seq j)
    (hc : t.cfg = s.cfg) (ht : t.freeTick = s.freeTick) : SameCell s t j :=
  ⟨hr, by simp only [State.cellAt, hr, hc, ht]⟩

theorem SameCell.trans {s t u : State} {j : Nat} (h : SameCell s t j) (h' : SameCell t u j) :
    SameCell s u j := ⟨h'.1.trans h.1, h'.2.trans h.2⟩

theorem SameCells.of_seq {s t : State} (hs : t.seq = s.seq) (hc : t.cfg = s.cfg)
    (ht : t.freeTick = s.freeTick) : SameCells s t :=
  fun j => ⟨by rw [hs], cellAt_congr hs hc ht j⟩

theorem SameControl.refl (s : State) : SameControl s s := ⟨rfl, rfl, rfl, rfl, rfl, rfl, rfl⟩

theorem SameBuffer.refl (s : State) : SameBuffer s s := ⟨rfl, rfl, rfl⟩

end Sys2Proof.Machine
end

