-- ==== Sys2Proof/Laws/Ops.lean ====
section
/-!
SUPPORT. One lemma for each shared operation that says once everything it can do.
-/

namespace Sys2Proof.Machine

/-! ### Dispatch -/

/-- Out of the faulted state a command is executed (R78). -/
theorem runCommand_live {s : State} (f : State → State) (h : s.fault = false) :
    runCommand f s = .next (f s) := by
  simp [runCommand, h]

/-- In the faulted state a command is refused (R78). -/
theorem runCommand_faulted {s : State} (f : State → State) (h : s.fault = true) :
    runCommand f s = .next s.refuse := by
  simp [runCommand, h]

theorem answers_respond (s : State) (res : DataWord) : Answers (s.respond res) res := ⟨rfl, rfl⟩

theorem refusedIn_refuse (s : State) : RefusedIn s s.refuse := rfl

/-- Fault entry does what R214 says. -/
theorem faultEntered_raise (s : State) (c : Cause) (info : DataWord) : FaultEntered s (s.raise c info) c info :=
  ⟨rfl, rfl, rfl, rfl, rfl, rfl, fun _ => rfl, rfl, rfl, rfl⟩

theorem noStateChange_respond (s : State) (res : DataWord) : NoStateChange s (s.respond res) :=
  ⟨⟨rfl, rfl, rfl, rfl, rfl, rfl, rfl⟩, ⟨rfl, rfl, rfl⟩, fun _ => ⟨rfl, rfl⟩⟩

/-! ### The bit-buffer primitives -/

theorem putField_ok_iff (s t : State) (w v : Nat) :
    s.putField w v = .ok t ↔ s.wp + w ≤ s.cfg.bcap ∧ t = { s with bits := s.bits ++ tobits w v } := by
  unfold State.putField
  split
  · simp; omega
  · simp only [Except.ok.injEq, eq_comm (a := t)]
    exact ⟨fun h => ⟨by omega, h⟩, fun h => h.2⟩

theorem putField_error_iff (s : State) (w v : Nat) (e : Raise) :
    s.putField w v = .error e ↔ s.cfg.bcap < s.wp + w ∧ e = ⟨.capacity, zextNat w⟩ := by
  unfold State.putField
  split
  · simp only [Except.error.injEq, eq_comm (a := e)]
    exact ⟨fun h => ⟨‹_›, h⟩, fun h => h.2⟩
  · simp only [reduceCtorEq, false_iff, not_and]
    intro h; contradiction

theorem getField_ok_iff (s t : State) (w v : Nat) :
    s.getField w = .ok (t, v) ↔
      s.rp + w ≤ s.wp ∧ t = { s with rp := s.rp + w } ∧ v = frombits (s.unread.take w) := by
  unfold State.getField
  split
  · simp; omega
  · simp only [Except.ok.injEq, Prod.mk.injEq, eq_comm (a := t), eq_comm (a := v)]
    exact ⟨fun h => ⟨by omega, h⟩, fun h => h.2⟩

theorem getField_error_iff (s : State) (w : Nat) (e : Raise) :
    s.getField w = .error e ↔ s.wp < s.rp + w ∧ e = ⟨.underflow, zextNat w⟩ := by
  unfold State.getField
  split
  · simp only [Except.error.injEq, eq_comm (a := e)]
    exact ⟨fun h => ⟨‹_›, h⟩, fun h => h.2⟩
  · simp only [reduceCtorEq, false_iff, not_and]
    intro h; contradiction

/-! ### The sequence predicates -/

/-- `firstDescent` finds nothing exactly when the range is nondecreasing. -/
theorem firstDescent_eq_none_iff (f : Nat → Nat) (k i : Nat) :
    firstDescent f k i = none ↔ Nondecreasing f i (i + k) := by
  induction k generalizing i with
  | zero => simp only [firstDescent, true_iff]; intro j h1 h2; omega
  | succ k ih =>
    unfold firstDescent
    split
    · simp only [reduceCtorEq, false_iff, Nondecreasing, not_forall]
      exact ⟨i + 1, by omega, by omega, by simpa using ‹_›⟩
    · rw [ih]
      constructor
      · intro h j h1 h2
        by_cases hj : j = i + 1
        · subst hj; simp; omega
        · exact h j (by omega) (by omega)
      · intro h j h1 h2
        exact h j (by omega) (by omega)

/-- What `firstDescent` finds is the first descent (R13). -/
theorem firstDescent_eq_some_iff (f : Nat → Nat) (k i j : Nat) :
    firstDescent f k i = some j ↔ IsFirstDescent f i (i + k) j := by
  induction k generalizing i with
  | zero =>
    simp only [firstDescent, reduceCtorEq, false_iff, IsFirstDescent]
    intro h; omega
  | succ k ih =>
    unfold firstDescent
    split
    · rename_i hlt
      simp only [Option.some.injEq]
      constructor
      · rintro rfl
        exact ⟨⟨by omega, by omega⟩, by simpa using hlt, fun m h1 h2 => by omega⟩
      · rintro ⟨⟨h1, h2⟩, h3, h4⟩
        by_contra hne
        have := h4 (i + 1) (by omega) (by omega)
        simp only [Nat.add_sub_cancel] at this
        omega
    · rename_i hge
      rw [ih]
      constructor
      · rintro ⟨⟨h1, h2⟩, h3, h4⟩
        refine ⟨⟨by omega, by omega⟩, h3, fun m hm1 hm2 => ?_⟩
        by_cases hm : m = i + 1
        · subst hm; simp; omega
        · exact h4 m (by omega) hm2
      · rintro ⟨⟨h1, h2⟩, h3, h4⟩
        have hne : j ≠ i + 1 := by
          rintro rfl
          simp only [Nat.add_sub_cancel] at h3
          omega
        exact ⟨⟨by omega, by omega⟩, h3, fun m hm1 hm2 => h4 m (by omega) hm2⟩

theorem Nondecreasing.le {f : Nat → Nat} {l h : Nat} (hf : Nondecreasing f l h) {i j : Nat} (h1 : l ≤ i)
    (h2 : i ≤ j) (h3 : j ≤ h) : f i ≤ f j := by
  induction j, h2 using Nat.le_induction with
  | base => exact le_rfl
  | succ n hn ih => exact (ih (by omega)).trans (by simpa using hf (n + 1) (by omega) h3)

theorem Nondecreasing.mono {f : Nat → Nat} {l h l' h' : Nat} (hf : Nondecreasing f l h) (h1 : l ≤ l')
    (h2 : h' ≤ h) : Nondecreasing f l' h' :=
  fun i hi1 hi2 => hf i (by omega) (by omega)

/-! ### The whole machine -/

/-- Every command answers a next state: the block's faults and refusals are next states too (R74). -/
theorem exec_next (i : Instr) (s : State) : ∃ t, exec i s = .next t := by
  cases i <;> exact ⟨_, rfl⟩

/-- Every transaction of a configured block answers a next state. -/
theorem step_next {s : State} (h : s.cfg.Valid) : ∃ t, step s = .next t := by
  unfold step
  rw [if_pos h]
  split
  · exact ⟨_, rfl⟩
  · split
    · unfold runWord
      split
      · exact exec_next _ _
      · exact ⟨_, rfl⟩
    · exact ⟨_, rfl⟩

end Sys2Proof.Machine
end

