-- ==== Sys2Proof/Laws/Coder.lean ====
section
/-!
SUPPORT. What the coder's operations can do: one visit of a node, the fill, and the two traversals, whose inductions
are packaged here once.
-/

namespace Sys2Proof.Machine

/-! ### Nodes -/

/-- The midpoint lies strictly inside a node with an interior (R121). -/
theorem mid_bounds {l h : Nat} (hlt : 1 < h - l) : l < mid l h ∧ mid l h < h := by
  unfold mid
  omega

/-- The children of a node are shorter than the node (R121). -/
theorem mid_lengths {l h : Nat} (hlt : 1 < h - l) :
    mid l h - l + (h - mid l h) = h - l ∧ 0 < mid l h - l ∧ 0 < h - mid l h := by
  have := mid_bounds hlt
  omega

/-! ### The fill -/

/-- What the fill leaves in a cell. -/
theorem read_fillCells (k i v : Nat) (s : State) (j : Nat) :
    Memory.read (fillCells k i v s).seq j = if i ≤ j ∧ j < i + k then some v else Memory.read s.seq j := by
  induction k generalizing i s with
  | zero =>
    rw [if_neg (by omega)]
    rfl
  | succ k ih =>
    rw [fillCells, ih]
    by_cases hj : j = i
    · subst hj
      rw [if_neg (by omega), if_pos (by omega)]
      simp
    · rw [setCell_seq, read_write_other _ _ hj]
      congr 1
      simp only [eq_iff_iff]
      omega

/-- The fill changes the store only. -/
theorem fillCells_eq (k i v : Nat) (s : State) : fillCells k i v s = { s with seq := (fillCells k i v s).seq } := by
  induction k generalizing i s with
  | zero => rfl
  | succ k ih => rw [fillCells, ih]; rfl

/-- The fill keeps the canonical form, and its entries are old or of the filled range. -/
theorem fillCells_wf (k i v : Nat) (s : State) (h : Memory.wf s.seq = true) :
    Memory.wf (fillCells k i v s).seq = true := by
  induction k generalizing i s with
  | zero => exact h
  | succ k ih => exact ih _ _ (wf_write _ _ _ h)

theorem mem_fillCells {k i v : Nat} {s : State} {p : Nat × Nat} (h : p ∈ (fillCells k i v s).seq) :
    p ∈ s.seq ∨ (i ≤ p.1 ∧ p.1 < i + k ∧ p.2 = v) := by
  induction k generalizing i s with
  | zero => exact .inl h
  | succ k ih =>
    rcases ih h with h | h
    · rcases mem_write h with h | h
      · subst h; right; simp
      · exact .inl h
    · right; omega

theorem cellAt_fillCells (k i v : Nat) (s : State) (j : Nat) :
    (fillCells k i v s).cellAt j = if i ≤ j ∧ j < i + k then v else s.cellAt j := by
  have hr := read_fillCells k i v s j
  have hf := fillCells_eq k i v s
  split
  · rw [if_pos ‹_›] at hr
    exact cellAt_of_read hr
  · rw [if_neg ‹_›] at hr
    exact (SameCell.of_read hr (by rw [hf]) (by rw [hf])).2

/-! ### One visit -/

/-- Everything one visit of ENC can do (R123). -/
theorem encNode_cases (l h : Nat) (s : State) :
    ((h - l ≤ 1 ∨ s.cellAt h = s.cellAt l) ∧ encNode l h s = .ok (s, false)) ∨
    (1 < h - l ∧ s.cellAt h ≠ s.cellAt l ∧
      (s.cfg.bcap < s.wp + gw (s.cellAt l) (s.cellAt h) ∧
          encNode l h s = .error ⟨.capacity, zextNat (gw (s.cellAt l) (s.cellAt h))⟩ ∨
        s.wp + gw (s.cellAt l) (s.cellAt h) ≤ s.cfg.bcap ∧
          encNode l h s = .ok ({ s with
            bits := s.bits ++
              tobits (gw (s.cellAt l) (s.cellAt h)) (s.cellAt (mid l h) - s.cellAt l) }, true))) := by
  unfold encNode
  split
  · exact .inl ⟨.inl ‹_›, rfl⟩
  · split
    · exact .inl ⟨.inr ‹_›, rfl⟩
    · refine .inr ⟨by omega, ‹_›, ?_⟩
      split
      · rename_i heq
        obtain ⟨h1, rfl⟩ := (putField_error_iff ..).mp heq
        exact .inl ⟨h1, rfl⟩
      · rename_i heq
        obtain ⟨h1, rfl⟩ := (putField_ok_iff ..).mp heq
        exact .inr ⟨h1, rfl⟩

/-- Everything one visit of DEC can do (R129). -/
theorem decNode_cases (l h : Nat) (s : State) :
    (h - l ≤ 1 ∧ decNode l h s = .ok (s, false)) ∨
    (1 < h - l ∧ s.cellAt h = s.cellAt l ∧
      decNode l h s = .ok (fillCells (h - l - 1) (l + 1) (s.cellAt l) s, false)) ∨
    (1 < h - l ∧ s.cellAt h ≠ s.cellAt l ∧
      (s.wp < s.rp + gw (s.cellAt l) (s.cellAt h) ∧
          decNode l h s = .error ⟨.underflow, zextNat (gw (s.cellAt l) (s.cellAt h))⟩ ∨
        s.rp + gw (s.cellAt l) (s.cellAt h) ≤ s.wp ∧
          (s.cellAt h - s.cellAt l < frombits (s.unread.take (gw (s.cellAt l) (s.cellAt h))) ∧
              decNode l h s = .error ⟨.badcode, zextNat (mid l h)⟩ ∨
            frombits (s.unread.take (gw (s.cellAt l) (s.cellAt h))) ≤ s.cellAt h - s.cellAt l ∧
              decNode l h s = .ok ({ s with
                rp := s.rp + gw (s.cellAt l) (s.cellAt h)
                seq := Memory.write s.seq (mid l h)
                  (s.cellAt l + frombits (s.unread.take (gw (s.cellAt l) (s.cellAt h)))) }, true)))) := by
  unfold decNode
  split
  · exact .inl ⟨‹_›, rfl⟩
  · split
    · exact .inr (.inl ⟨by omega, ‹_›, rfl⟩)
    · refine .inr (.inr ⟨by omega, ‹_›, ?_⟩)
      split
      · rename_i heq
        obtain ⟨h1, rfl⟩ := (getField_error_iff ..).mp heq
        exact .inl ⟨h1, rfl⟩
      · rename_i heq
        obtain ⟨h1, rfl, rfl⟩ := (getField_ok_iff ..).mp heq
        refine .inr ⟨h1, ?_⟩
        split
        · exact .inl ⟨‹_›, rfl⟩
        · exact .inr ⟨by omega, rfl⟩

/-! ### The traversals -/

/-- A property that every visit keeps is kept by the stack form, provided pushing and popping keep it. -/
theorem coderLoop_keeps {visit : Visit} {P : State → Prop}
    (hstk : ∀ s x, P s → P { s with stk := x })
    (hvisit : ∀ l h s t b, P s → visit l h s = .ok (t, b) → P t) :
    ∀ k s t, P s → coderLoop visit k s = .ok t → P t := by
  intro k
  induction k with
  | zero => intro s t hs h; cases h; exact hs
  | succ k ih =>
    intro s t hs h
    unfold coderLoop at h
    split at h
    · cases h; exact hs
    · split at h
      · cases h
      · exact ih _ _ (hvisit _ _ _ _ _ (hstk _ _ hs) ‹_›) h
      · exact ih _ _ (hstk _ _ (hvisit _ _ _ _ _ (hstk _ _ hs) ‹_›)) h

/-- A property that every visit keeps is kept by the recursive form. -/
theorem coderRec_keeps {visit : Visit} {P : State → Prop}
    (hvisit : ∀ l h s t b, P s → visit l h s = .ok (t, b) → P t) :
    ∀ k l h s t, P s → coderRec visit k l h s = .ok t → P t := by
  intro k
  induction k with
  | zero => intro l h s t hs he; cases he; exact hs
  | succ k ih =>
    intro l h s t hs he
    unfold coderRec at he
    split at he
    · cases he
    · cases he; exact hvisit _ _ _ _ _ hs ‹_›
    · split at he
      · cases he
      · exact ih _ _ _ _ (ih _ _ _ _ (hvisit _ _ _ _ _ hs ‹_›) ‹_›) he

/-- Every visit of ENC changes `BITS` only. -/
theorem encNode_frame {l h : Nat} {s t : State} {b : Bool} (he : encNode l h s = .ok (t, b)) :
    t = { s with bits := t.bits } := by
  rcases encNode_cases l h s with ⟨_, h1⟩ | ⟨_, _, ⟨_, h1⟩ | ⟨_, h1⟩⟩ <;>
    rw [h1] at he <;> cases he <;> rfl

/-- Every visit of DEC changes `SEQ` and `RP` only. -/
theorem decNode_frame {l h : Nat} {s t : State} {b : Bool} (he : decNode l h s = .ok (t, b)) :
    t = { s with seq := t.seq, rp := t.rp } := by
  rcases decNode_cases l h s with ⟨_, h1⟩ | ⟨_, _, h1⟩ | ⟨_, _, ⟨_, h1⟩ | ⟨_, ⟨_, h1⟩ | ⟨_, h1⟩⟩⟩ <;>
    rw [h1] at he <;> cases he <;> first | rfl | (rw [fillCells_eq])

/-- The recursion of ENC changes `BITS` only. -/
theorem encRec_frame {k l h : Nat} {s t : State} (he : encRec k l h s = .ok t) :
    t = { s with bits := t.bits } :=
  coderRec_keeps (P := fun t => t = { s with bits := t.bits })
    (fun _ _ u v _ hu hv => by rw [encNode_frame hv, hu]) k l h s t rfl he

/-- The recursion of DEC changes `SEQ` and `RP` only. -/
theorem decRec_frame {k l h : Nat} {s t : State} (he : decRec k l h s = .ok t) :
    t = { s with seq := t.seq, rp := t.rp } :=
  coderRec_keeps (P := fun t => t = { s with seq := t.seq, rp := t.rp })
    (fun _ _ u v _ hu hv => by rw [decNode_frame hv, hu]) k l h s t rfl he

end Sys2Proof.Machine
end

