-- ==== Sys2Proof/Laws/Cumsum.lean ====
section
/-!
SUPPORT. What the two passes over the store can do.
-/

namespace Sys2Proof.Machine

/-! ### Cell 0 -/

/-- What writing cell 0 can do: nothing for `n <= 1` (R153, R156), else the cell takes the value it had (R55). -/
theorem writeFirstCell_cases (n : Nat) (s : State) :
    (n ≤ 1 ∧ writeFirstCell n s = s) ∨ (1 < n ∧ writeFirstCell n s = s.setCell 0 (s.cellAt 0)) := by
  unfold writeFirstCell
  split
  · exact .inl ⟨‹_›, rfl⟩
  · exact .inr ⟨by omega, rfl⟩

/-- Writing cell 0 changes the store only. -/
theorem writeFirstCell_frame (n : Nat) (s : State) :
    writeFirstCell n s = { s with seq := (writeFirstCell n s).seq } := by
  rcases writeFirstCell_cases n s with ⟨_, h⟩ | ⟨_, h⟩
  · rw [h]
  · rw [h]; rfl

/-- Writing cell 0 with its own value changes what no cell reads as. -/
@[simp] theorem writeFirstCell_cellAt (n : Nat) (s : State) (j : Nat) :
    (writeFirstCell n s).cellAt j = s.cellAt j := by
  rcases writeFirstCell_cases n s with ⟨_, h⟩ | ⟨_, h⟩
  · rw [h]
  · rw [h]
    by_cases hj : j = 0
    · subst hj; simp
    · exact cellAt_setCell_other _ _ hj

/-- For `n >= 2` cell 0 is written. -/
theorem read_writeFirstCell {n : Nat} (s : State) (h : 1 < n) :
    Memory.read (writeFirstCell n s).seq 0 = some (s.cellAt 0) := by
  rcases writeFirstCell_cases n s with ⟨_, e⟩ | ⟨_, e⟩
  · omega
  · rw [e]; simp

/-- Every other cell is left alone, and for `n <= 1` cell 0 too. -/
theorem sameCell_writeFirstCell {n : Nat} (s : State) {j : Nat} (h : n ≤ 1 ∨ j ≠ 0) :
    SameCell s (writeFirstCell n s) j := by
  rcases writeFirstCell_cases n s with ⟨_, e⟩ | ⟨_, e⟩ <;> rw [e]
  · exact SameCell.refl s j
  · exact sameCell_setCell_other s _ (by omega)

/-- Writing cell 0 keeps the canonical form. -/
theorem writeFirstCell_wf (n : Nat) (s : State) (hw : Memory.wf s.seq = true) :
    Memory.wf (writeFirstCell n s).seq = true := by
  rcases writeFirstCell_cases n s with ⟨_, h⟩ | ⟨_, h⟩ <;> rw [h]
  · exact hw
  · exact wf_write _ _ _ hw

/-! ### The passes -/

/-- BUILD's pass changes the store only. -/
theorem buildLoop_frame {k i : Nat} {s t : State} (h : buildLoop k i s = .ok t) :
    t = { s with seq := t.seq } := by
  induction k generalizing i s with
  | zero => cases h; rfl
  | succ k ih =>
    unfold buildLoop at h
    split at h
    · cases h
    · rw [ih h]; rfl

/-- INVERT's pass changes the store only. -/
theorem invertLoop_frame (k : Nat) (s : State) : invertLoop k s = { s with seq := (invertLoop k s).seq } := by
  induction k generalizing s with
  | zero => rfl
  | succ k ih => rw [invertLoop, ih]; rfl

/-- Both passes keep the canonical form. -/
theorem buildLoop_wf {k i : Nat} {s t : State} (h : buildLoop k i s = .ok t) (hw : Memory.wf s.seq = true) :
    Memory.wf t.seq = true := by
  induction k generalizing i s with
  | zero => cases h; exact hw
  | succ k ih =>
    unfold buildLoop at h
    split at h
    · cases h
    · exact ih h (wf_write _ _ _ hw)

theorem invertLoop_wf (k : Nat) (s : State) (hw : Memory.wf s.seq = true) :
    Memory.wf (invertLoop k s).seq = true := by
  induction k generalizing s with
  | zero => exact hw
  | succ k ih => exact ih _ (wf_write _ _ _ hw)

/-- What one step of BUILD's pass can do (R152). -/
theorem buildLoop_succ (k i : Nat) (s : State) :
    (2 ^ s.cfg.vw ≤ s.cellAt i + s.cellAt (i + 1) ∧ buildLoop (k + 1) i s = .error ⟨.range, zextNat (i + 1)⟩) ∨
    (s.cellAt i + s.cellAt (i + 1) < 2 ^ s.cfg.vw ∧
      buildLoop (k + 1) i s = buildLoop k (i + 1) (s.setCell (i + 1) (s.cellAt i + s.cellAt (i + 1)))) := by
  rw [buildLoop]
  split
  · exact .inl ⟨‹_›, rfl⟩
  · exact .inr ⟨by omega, rfl⟩

/-- BUILD's pass over `k` cells after cell `i` leaves every other cell alone. -/
theorem sameCell_buildLoop {k i : Nat} {s t : State} (h : buildLoop k i s = .ok t) {j : Nat}
    (hj : j ≤ i ∨ i + k < j) : SameCell s t j := by
  induction k generalizing i s with
  | zero => cases h; exact SameCell.refl _ j
  | succ k ih =>
    rcases buildLoop_succ k i s with ⟨_, e⟩ | ⟨_, e⟩ <;> rw [e] at h
    · cases h
    · exact (sameCell_setCell_other s _ (by omega)).trans (ih h (by omega))

/-- BUILD's pass leaves in each of its cells the new value of the cell before plus the old value (R150, R152). -/
theorem read_buildLoop {k i : Nat} {s t : State} (h : buildLoop k i s = .ok t) {j : Nat} (h1 : i < j)
    (h2 : j ≤ i + k) : Memory.read t.seq j = some (t.cellAt (j - 1) + s.cellAt j) := by
  induction k generalizing i s with
  | zero => omega
  | succ k ih =>
    have hi := (sameCell_buildLoop h (.inl (le_refl i))).2
    rcases buildLoop_succ k i s with ⟨_, e⟩ | ⟨_, e⟩ <;> rw [e] at h
    · cases h
    · by_cases hj : j = i + 1
      · subst hj
        rw [(sameCell_buildLoop h (.inl le_rfl)).1, Nat.add_sub_cancel, hi]
        simp
      · rw [ih h (by omega) (by omega), cellAt_setCell_other _ _ hj]

/-- INVERT's pass from cell `k` down leaves the cells above `k` and cell 0 alone. -/
theorem sameCell_invertLoop (k : Nat) (s : State) {j : Nat} (h : j = 0 ∨ k < j) :
    SameCell s (invertLoop k s) j := by
  induction k generalizing s with
  | zero => exact SameCell.refl s j
  | succ k ih => exact (sameCell_setCell_other s _ (by omega)).trans (ih _ (by omega))

/-- INVERT's pass leaves in cell `i` of `1 .. k` the difference of the old values (R155). -/
theorem cellAt_invertLoop (k : Nat) (s : State) {i : Nat} (h1 : 0 < i) (h2 : i ≤ k) :
    Memory.read (invertLoop k s).seq i = some (s.cellAt i - s.cellAt (i - 1)) := by
  induction k generalizing s with
  | zero => omega
  | succ k ih =>
    rw [invertLoop]
    by_cases hi : i = k + 1
    · subst hi
      rw [(sameCell_invertLoop k _ (.inr (by omega))).1]
      simp
    · rw [ih _ (by omega), cellAt_setCell_other _ _ hi, cellAt_setCell_other _ _ (by omega)]

/-! ### The commands -/

/-- A BUILD whose sums all fit ends with what its pass leaves (R152). -/
theorem exec_build_ok {n : IndexWord} {s t : State} (hf : s.fault = false) (hn : n.toNat ≤ s.cfg.nmax)
    (h : buildLoop (n.toNat - 1) 0 (writeFirstCell n.toNat s) = .ok t) :
    exec (.build n) s = .next (t.respond 0) := by
  rw [exec, execBuild, runCommand_live _ hf, if_neg (by omega), h]

/-- An INVERT of a nondecreasing sequence ends with what its pass leaves (R155). -/
theorem exec_invert_ok {n : IndexWord} {s : State} (hf : s.fault = false) (hn : n.toNat ≤ s.cfg.nmax)
    (h : Nondecreasing s.cellAt 0 (n.toNat - 1)) :
    exec (.invert n) s = .next ((invertLoop (n.toNat - 1) (writeFirstCell n.toNat s)).respond 0) := by
  rw [exec, execInvert, runCommand_live _ hf, if_neg (by omega),
    (firstDescent_eq_none_iff _ _ _).2 (by rwa [Nat.zero_add])]

end Sys2Proof.Machine
end

