-- ==== Sys2Proof/Laws/Encoding.lean ====
section
/-!
SUPPORT. The laws of the command word (R70): each field reads back what was put in it, and the three fields make the
whole word.
-/

namespace Sys2Proof

/-- Bit `i` of a command word, by the field it lies in. -/
theorem getLsbD_cmdWord (op : Opcode) (a : IndexWord) (b : DataWord) (i : Nat) :
    (cmdWord op a b).getLsbD i =
      if i < 64 then b.getLsbD i else if i < 96 then a.getLsbD (i - 64) else op.getLsbD (i - 96) := by
  change BitVec.getLsbD (w := 8 + 32 + 64) (op ++ a ++ b) i = _
  rw [BitVec.getLsbD_append, BitVec.getLsbD_append]
  repeat' split
  all_goals first | rfl | omega

@[simp] theorem cmdOp_cmdWord (op : Opcode) (a : IndexWord) (b : DataWord) : cmdOp (cmdWord op a b) = op := by
  unfold cmdOp
  apply BitVec.eq_of_getLsbD_eq
  intro i hi
  rw [BitVec.getLsbD_extractLsb', getLsbD_cmdWord, if_neg (by omega), if_neg (by omega)]
  simp [hi]

@[simp] theorem cmdA_cmdWord (op : Opcode) (a : IndexWord) (b : DataWord) : cmdA (cmdWord op a b) = a := by
  unfold cmdA
  apply BitVec.eq_of_getLsbD_eq
  intro i hi
  rw [BitVec.getLsbD_extractLsb', getLsbD_cmdWord, if_neg (by omega), if_pos (by omega)]
  simp [hi]

@[simp] theorem cmdB_cmdWord (op : Opcode) (a : IndexWord) (b : DataWord) : cmdB (cmdWord op a b) = b := by
  unfold cmdB
  apply BitVec.eq_of_getLsbD_eq
  intro i hi
  rw [BitVec.getLsbD_extractLsb', getLsbD_cmdWord, if_pos (by omega)]
  simp [hi]

/-- No bit of the word lies outside the three fields. -/
theorem cmdWord_fields (w : CmdWord) : cmdWord (cmdOp w) (cmdA w) (cmdB w) = w := by
  unfold cmdOp cmdA cmdB
  apply BitVec.eq_of_getLsbD_eq
  intro i hi
  simp only [getLsbD_cmdWord, BitVec.getLsbD_extractLsb']
  split
  · simp [*]
  · split
    · rw [show 64 + (i - 64) = i by omega]; simp; omega
    · rw [show 96 + (i - 96) = i by omega]; simp; omega

/-- The decoder on a word given by its fields. -/
theorem decode_cmdWord (op : Opcode) (a : IndexWord) (b : DataWord) :
    decode (cmdWord op a b) = decodeFields op a b := by
  simp [decode]

end Sys2Proof
end

