-- ==== Sys2Proof/Laws/PerInstr.lean ====
section
/-!
SUPPORT. The family `EncodesFields`, one lemma per command: the word the encoder writes has the command's opcode and
two operand fields, and the decoder's field table reads the command back from them.
-/

namespace Sys2Proof.Laws

/-- A command's word is its opcode and two operand fields, the unused ones free, and those fields decode to it. -/
def EncodesFields.Statement (i : Instr) : Prop :=
  ∀ (ua : IndexWord) (ub : DataWord), ∃ a b,
    encodeWith i ua ub = cmdWord i.opcode a b ∧ decodeFields i.opcode a b = .ok i

theorem EncodesFields.nop : EncodesFields.Statement .nop :=
  fun ua ub => ⟨ua, ub, rfl, rfl⟩

theorem EncodesFields.clr : EncodesFields.Statement .clr :=
  fun ua ub => ⟨ua, ub, rfl, rfl⟩

theorem EncodesFields.rdsr (x : IndexWord) : EncodesFields.Statement (.rdsr x) :=
  fun _ ub => ⟨x, ub, rfl, rfl⟩

theorem EncodesFields.sts (x : IndexWord) (y : DataWord) : EncodesFields.Statement (.sts x y) :=
  fun _ _ => ⟨x, y, rfl, rfl⟩

theorem EncodesFields.lds (x : IndexWord) : EncodesFields.Statement (.lds x) :=
  fun _ ub => ⟨x, ub, rfl, rfl⟩

theorem EncodesFields.bwrite (x : IndexWord) (y : DataWord) : EncodesFields.Statement (.bwrite x y) :=
  fun _ _ => ⟨x, y, rfl, rfl⟩

theorem EncodesFields.bread (x : IndexWord) : EncodesFields.Statement (.bread x) :=
  fun _ ub => ⟨x, ub, rfl, rfl⟩

theorem EncodesFields.bpack : EncodesFields.Statement .bpack :=
  fun ua ub => ⟨ua, ub, rfl, rfl⟩

theorem EncodesFields.enc (x : IndexWord) (y : DataWord) : EncodesFields.Statement (.enc x y) :=
  fun _ _ => ⟨x, y, rfl, rfl⟩

theorem EncodesFields.dec (x : IndexWord) (y : DataWord) : EncodesFields.Statement (.dec x y) :=
  fun _ _ => ⟨x, y, rfl, rfl⟩

theorem EncodesFields.build (x : IndexWord) : EncodesFields.Statement (.build x) :=
  fun _ ub => ⟨x, ub, rfl, rfl⟩

theorem EncodesFields.invert (x : IndexWord) : EncodesFields.Statement (.invert x) :=
  fun _ ub => ⟨x, ub, rfl, rfl⟩

theorem EncodesFields.map (y : DataWord) : EncodesFields.Statement (.map y) :=
  fun ua _ => ⟨ua, y, rfl, rfl⟩

theorem EncodesFields.unmap (y : DataWord) : EncodesFields.Statement (.unmap y) :=
  fun ua _ => ⟨ua, y, rfl, rfl⟩

theorem EncodesFields.ste (x : IndexWord) (y : DataWord) : EncodesFields.Statement (.ste x y) :=
  fun _ _ => ⟨x, y, rfl, rfl⟩

theorem EncodesFields.lde (x : IndexWord) : EncodesFields.Statement (.lde x) :=
  fun _ ub => ⟨x, ub, rfl, rfl⟩

end Sys2Proof.Laws
end

