-- ==== Sys2Proof/Tests/Slice0.lean ====
section
/-!
SUPPORT. Tests: what WellFormed refuses, the command words of 95_test_vectors.md, one or two single steps per command
with the results that file gives (the vector is named in each docstring), and for every obligation with hypotheses a
witness that meets them, at a boundary value of each clause.
-/

namespace Sys2Proof.Tests

open Sys2Proof Sys2Proof.Machine

/-! ### WellFormed: each check refuses an ill-formed line (R86, R71) -/

theorem test_wellFormed_refuses_wide_a :
    Asm.wellFormed (.rdsr 4294967296) = false ∧ Asm.wellFormed (.rdsr 4294967295) = true := by decide

theorem test_wellFormed_refuses_negative_a : Asm.wellFormed (.lds (-1)) = false := by decide

theorem test_wellFormed_refuses_wide_b :
    Asm.wellFormed (.sts 0 18446744073709551616) = false ∧
      Asm.wellFormed (.sts 0 18446744073709551615) = true := by decide

theorem test_wellFormed_refuses_negative_b : Asm.wellFormed (.bwrite 8 (-1)) = false := by decide

theorem test_wellFormed_refuses_wide_signed_b :
    Asm.wellFormed (.map (-9223372036854775809)) = false ∧
      Asm.wellFormed (.map (-9223372036854775808)) = true := by decide

theorem test_assemble_refuses_ill_formed : assemble (.ste 0 18446744073709551616) = none := by decide

theorem test_assemble_negative_residual : assemble (.map (-1)) = some (.map 0xFFFFFFFFFFFFFFFF) := by decide

/-- R87: the pseudo-instructions. -/
theorem test_assemble_pseudo :
    assemble (.bputb 80) = assemble (.bwrite 8 80) ∧ assemble .bgetb = assemble (.bread 8) ∧
      assemble .rdstatus = assemble (.rdsr 0) := by decide

/-! ### Decoding: the words of 95_test_vectors.md (R70, R72) -/

theorem test_decode_nop : decode 0x00000000000000000000000000#104 = .ok .nop := by decide
theorem test_decode_clr : decode 0x01000000000000000000000000#104 = .ok .clr := by decide
theorem test_decode_rdsr : decode 0x02000000010000000000000000#104 = .ok (.rdsr 1) := by decide
theorem test_decode_sts : decode 0x03000000030000000000000006#104 = .ok (.sts 3 6) := by decide
theorem test_decode_lds : decode 0x04000000030000000000000000#104 = .ok (.lds 3) := by decide
theorem test_decode_bwrite : decode 0x1000000010000000000000ABCD#104 = .ok (.bwrite 16 0xABCD) := by decide
theorem test_decode_bread : decode 0x11000000080000000000000000#104 = .ok (.bread 8) := by decide
theorem test_decode_bpack : decode 0x12DEADBEEF0123456789ABCDEF#104 = .ok .bpack := by decide
theorem test_decode_enc : decode 0x20000000000000000000000003#104 = .ok (.enc 0 3) := by decide
theorem test_decode_dec : decode 0x21000000000000000000000003#104 = .ok (.dec 0 3) := by decide
theorem test_decode_build : decode 0x30000000040000000000000000#104 = .ok (.build 4) := by decide
theorem test_decode_invert : decode 0x31000000040000000000000000#104 = .ok (.invert 4) := by decide
theorem test_decode_map : decode 0x4000000000FFFFFFFFFFFFFF01#104 = .ok (.map (-255)) := by decide
theorem test_decode_unmap : decode 0x410000000000000000000001FD#104 = .ok (.unmap 509) := by decide
theorem test_decode_ste : decode 0x4200000002FFFFFFFFFFFFFFFE#104 = .ok (.ste 2 (-2)) := by decide
theorem test_decode_lde : decode 0x43000000020000000000000000#104 = .ok (.lde 2) := by decide

/-- V44-5: opcodes that are none. -/
theorem test_decode_rejects :
    decode 0xFF000000010000000000000002#104 = .error (.illegalOpcode 0xFF) ∧
      decode 0x13000000000000000000000000#104 = .error (.illegalOpcode 0x13) ∧
      decode 0x44000000000000000000000000#104 = .error (.illegalOpcode 0x44) := by decide

/-- The word in the table's numbering. -/
theorem test_decodeTableWord :
    decodeTableWord 104 0x42000000020000000000000002 = some (.ste 2 2) ∧
      decodeTableWord 104 0x05000000000000000000000000 = none := by decide

/-! ### Small states -/

/-- The parameters of the vectors with `VW = 8` and `BCAP = 8`. -/
def small : Params := { vw := 8, nmax := 16, bcap := 8 }

/-- A block with the given cells, bits and read position. -/
def blk (p : Params) (cells : Memory) (bits : List Bool) (rp : Nat) : State :=
  { State.resetWith p with seq := cells, bits := bits, rp := rp }

/-- A faulted block. -/
def faultedBlk (c : Cause) (info : DataWord) : State :=
  { State.resetWith Config.referenceParams with fault := true, cause := causeCode c, finfo := info }

/-- A block to which the host presents a word. -/
def presented (s : State) (w : CmdWord) : State := s.present w

/-- The state after a command. -/
def after (i : Instr) (s : State) : State :=
  match exec i s with
  | .next t => t
  | .fault _ => s
  | .refused _ => s

/-- The state after a transaction. -/
def stepped (s : State) : State :=
  match step s with
  | .next t => t
  | .fault _ => s
  | .refused _ => s

theorem exec_after (i : Instr) (s : State) : exec i s = .next (after i s) := by
  obtain ⟨t, h⟩ := exec_next i s
  rw [after, h]

theorem step_stepped {s : State} (h : s.cfg.Valid) : step s = .next (stepped s) := by
  obtain ⟨t, h⟩ := step_next h
  rw [stepped, h]

/-- The bits of a string of digits, most significant first. -/
def bs (w v : Nat) : List Bool := tobits w v

theorem inv_blk {p : Params} {cells : Memory} {bits : List Bool} {rp : Nat} (hp : p.Valid)
    (hw : Memory.wf cells = true) (hf : ∀ q ∈ cells, q.1 < p.nmax ∧ q.2 < 2 ^ p.vw)
    (h1 : bits.length ≤ p.bcap) (h2 : rp ≤ bits.length) : (blk p cells bits rp).Inv :=
  ⟨hp, hw, hf, h1, h2, fun _ => ⟨rfl, rfl⟩, (nomatch ·), rfl, rfl⟩

theorem inv_faultedBlk (c : Cause) (info : DataWord) : (faultedBlk c info).Inv :=
  ⟨(by decide : Config.referenceParams.Valid), rfl, (fun _ h => nomatch h), Nat.zero_le _, le_rfl, (nomatch ·),
    fun _ => ⟨c, rfl⟩, rfl, rfl⟩

/-- Cells `0, 2, 6, 6` (V41-1). -/
def scenario : Memory := [(0, 0), (1, 2), (2, 6), (3, 6)]

abbrev ref : Params := Config.referenceParams

/-! ### Steps: system commands (95_test_vectors.md 2.5, 2.6) -/

/-- V44-3. -/
theorem test_nop : (after .nop (faultedBlk .underflow 3)).rsp = some (okResponse 0) ∧
    (after .nop (faultedBlk .underflow 3)).fault = true := by decide

/-- V60-1. -/
theorem test_clr : (after .clr (faultedBlk .underflow 3)).rsp = some (okResponse 0) ∧
    (after .clr (faultedBlk .underflow 3)).fault = false := by decide

/-- P4, steps 5 and 6. -/
theorem test_rdsr : (after (.rdsr 0) (faultedBlk .underflow 3)).rsp = some (okResponse 0x51) ∧
    (after (.rdsr 1) (faultedBlk .underflow 3)).rsp = some (okResponse 3) := by decide

/-- V44-1. -/
theorem test_rdsr_badarg : (after (.rdsr 7) State.reset).finfo = 7 ∧
    (after (.rdsr 7) State.reset).rsp = some (faultResponse 2) := by decide

/-- V44-2. -/
theorem test_sts : (after (.sts 3 6) State.reset).seq = [(3, 6)] := by decide

theorem test_sts_range : (after (.sts 0 256) (blk small [] [] 0)).rsp = some (faultResponse 3) ∧
    (after (.sts 0 255) (blk small [] [] 0)).seq = [(0, 255)] := by decide

theorem test_lds : (after (.lds 3) (blk ref scenario [] 0)).rsp = some (okResponse 6) := by decide

theorem test_lds_badarg : (after (.lds 16) State.reset).finfo = 16 := by decide

/-- V44-5. -/
theorem test_illegal : (stepped (State.reset.present 0xFF000000010000000000000002#104)).finfo = 0xFF ∧
    (stepped (State.reset.present 0xFF000000010000000000000002#104)).rsp = some (faultResponse 1) := by decide

/-! ### Steps: the bit buffer (2.1) -/

/-- V40-1. -/
theorem test_bwrite : (after (.bwrite 3 4) (blk ref [] [false, true, false] 0)).bits =
    [false, true, false, true, false, false] := by decide

/-- V40-6 and V40-7. -/
theorem test_bwrite_faults : (after (.bwrite 3 8) State.reset).rsp = some (faultResponse 4) ∧
    (after (.bwrite 70 0xFFFFFFFFFFFFFFFF) State.reset).rsp = some (faultResponse 3) := by decide

/-- P5, step 9. -/
theorem test_bread : (after (.bread 8) (blk ref [] (bs 20 0xB579B) 3)).rsp = some (okResponse 0xAB) ∧
    (after (.bread 8) (blk ref [] (bs 20 0xB579B) 3)).rp = 11 := by decide

/-- V40-8. -/
theorem test_bread_underflow : (after (.bread 1) (blk ref [] (bs 6 20) 6)).rsp = some (faultResponse 5) := by
  decide

/-- V40-10. -/
theorem test_bpack : (after .bpack (blk ref [] (bs 9 0) 0)).rsp = some (okResponse 2) ∧
    (after .bpack (blk ref [] (bs 9 0) 0)).wp = 16 := by decide

/-! ### Steps: the coder (2.2) -/

/-- V41-1. -/
theorem test_enc : (after (.enc 0 3) (blk ref scenario [] 0)).bits = bs 6 0x14 ∧
    (after (.enc 0 3) (blk ref scenario [] 0)).rsp = some (okResponse 6) := by decide

/-- V41-15. -/
theorem test_enc_capacity : (after (.enc 0 3) (blk { ref with bcap := 8 } scenario (bs 4 0) 0)).finfo = 3 ∧
    (after (.enc 0 3) (blk { ref with bcap := 8 } scenario (bs 4 0) 0)).rsp = some (faultResponse 6) := by decide

/-- P2, step 5. -/
theorem test_dec : (after (.dec 0 3) (blk ref [(0, 0), (3, 6)] (bs 8 0x50) 0)).seq = scenario ∧
    (after (.dec 0 3) (blk ref [(0, 0), (3, 6)] (bs 8 0x50) 0)).rsp = some (okResponse 6) := by decide

/-- V41-17. -/
theorem test_dec_badcode : (after (.dec 0 3) (blk ref [(0, 0), (3, 6)] (bs 8 0x5C) 0)).finfo = 2 ∧
    (after (.dec 0 3) (blk ref [(0, 0), (3, 6)] (bs 8 0x5C) 0)).rsp = some (faultResponse 8) := by decide

/-! ### Steps: prefix sums (2.3) -/

/-- V42-1. -/
theorem test_build : (after (.build 4) (blk ref [(0, 0), (1, 2), (2, 4), (3, 0)] [] 0)).seq = scenario := by decide

/-- V42-4. -/
theorem test_build_range :
    (after (.build 3) (blk small [(0, 100), (1, 100), (2, 100)] [] 0)).finfo = 2 := by decide

/-- V42-1. -/
theorem test_invert : (after (.invert 4) (blk ref scenario [] 0)).seq = [(0, 0), (1, 2), (2, 4), (3, 0)] := by
  decide

/-- V42-6. -/
theorem test_invert_order :
    (after (.invert 5) (blk ref [(0, 1), (1, 4), (2, 4), (3, 2), (4, 9)] [] 0)).finfo = 3 := by decide

/-! ### Steps: the mapper (2.4) -/

/-- V43-1 and V43-2. -/
theorem test_map : (after (.map (-255)) State.reset).rsp = some (okResponse 0x1FD) ∧
    (after (.map 0x8000000000000000) State.reset).rsp = some (okResponse 0xFFFFFFFFFFFFFFFF) := by decide

/-- V43-3 and V43-2. -/
theorem test_unmap : (after (.unmap 5) State.reset).rsp = some (okResponse 0xFFFFFFFFFFFFFFFD) ∧
    (after (.unmap 0xFFFFFFFFFFFFFFFF) State.reset).rsp = some (okResponse 0x8000000000000000) := by decide

/-- V43-4. -/
theorem test_ste : (after (.ste 2 (-3)) State.reset).seq = [(2, 5)] := by decide

/-- V43-5 and V43-6. -/
theorem test_ste_faults : (after (.ste 3 (-129)) (blk small [] [] 0)).rsp = some (faultResponse 3) ∧
    (after (.ste 16 128) (blk small [] [] 0)).rsp = some (faultResponse 2) := by decide

/-- V43-4. -/
theorem test_lde : (after (.lde 1) (blk ref [(1, 509)] [] 0)).rsp = some (okResponse 0xFFFFFFFFFFFFFF01) := by
  decide

/-! ### The transaction -/

/-- `withFetchWord` makes the next step run the word. -/
theorem test_fetch : (stepped (State.reset.withFetchWord 104 0x03000000030000000000000006)).seq = [(3, 6)] := by
  decide

/-- R242: reset abandons the command in flight, without a response. -/
theorem test_reset_abandons :
    (stepped { State.reset with inFlight := some (encode .bpack), host := [.rst] }).inFlight = none ∧
      (stepped { State.reset with inFlight := some (encode .bpack), host := [.rst] }).rsp = none := by decide

/-! ### Witnesses: encoding and dispatch -/

theorem witness_EncodeInvertsDecode : decode 0x42DEADBEEF0123456789ABCDEF#104 =
    .ok (.ste 0xDEADBEEF 0x0123456789ABCDEF) := by decide

theorem witness_DecoderRejectsExactlyUndefinedOpcodes :
    cmdOp 0x43000000000000000000000000#104 ∈ definedOpcodes ∧
      cmdOp 0x44000000000000000000000000#104 ∉ definedOpcodes := by decide

/-- A presented command, and a command in flight while another is presented. -/
theorem witness_StepRunsDecodedCommand :
    let w := 0x12000000000000000000000000#104
    let s := State.reset.present w
    let f := { State.reset with inFlight := some w, host := [.command 0] }
    (s.cfg.Valid ∧ decode w = .ok .bpack ∧ s.host = .command w :: [] ∧ s.inFlight = none) ∧
      (f.cfg.Valid ∧ (∀ rest, f.host ≠ .rst :: rest) ∧ f.inFlight = some w) :=
  ⟨by decide, by decide, fun _ => nofun, rfl⟩

/-- Faulted: NOP, CLR, the last readable register, a refused register, a refused command; then an undefined opcode
and a defined one out of the faulted state. -/
theorem witness_DispatchFollowsFaultedFilter :
    let f (w : CmdWord) := (faultedBlk .order 9).present w
    let s (w : CmdWord) := State.reset.present w
    (∀ w, (f w).cfg.Valid ∧ (f w).inFlight = none ∧ (f w).host = .command w :: [] ∧
      ((f w).accept w []).fault = true) ∧
    (∀ w, (s w).cfg.Valid ∧ (s w).inFlight = none ∧ (s w).host = .command w :: [] ∧
      ((s w).accept w []).fault = false) ∧
    cmdOp (encode .nop) = 0x00 ∧ cmdOp (encode .clr) = 0x01 ∧
    (cmdOp (encode (.rdsr 6)) = 0x02 ∧ cmdA (encode (.rdsr 6)) ∈ ([0, 1, 4, 5, 6] : List IndexWord)) ∧
    (cmdOp (encode (.rdsr 2)) = 0x02 ∧ cmdA (encode (.rdsr 2)) ∉ ([0, 1, 4, 5, 6] : List IndexWord)) ∧
    (cmdOp (encode (.rdsr 7)) = 0x02 ∧ cmdA (encode (.rdsr 7)) ∉ ([0, 1, 4, 5, 6] : List IndexWord)) ∧
    (cmdOp (encode (.lds 0)) = 0x04 ∧ cmdOp (encode (.lds 0)) ∈ definedOpcodes) ∧
    cmdOp 0x05000000000000000000000000#104 ∉ definedOpcodes :=
  ⟨fun _ => ⟨(by decide : ref.Valid), rfl, rfl, rfl⟩, fun _ => ⟨(by decide : ref.Valid), rfl, rfl, rfl⟩, by decide⟩

theorem witness_FaultedBlockRefusesCommands :
    (faultedBlk .order 9).fault = true ∧ ¬runsWhenFaulted (.rdsr 3) ∧ ¬runsWhenFaulted (.rdsr 7) ∧
      ¬runsWhenFaulted (.map 0) := by
  simp [runsWhenFaulted, faultedBlk]

/-- Two faulted states with different data. -/
theorem witness_FaultedBlockHidesItsData :
    let s := { faultedBlk .order 9 with host := [.command (encode .clr)] }
    let t := { s with seq := scenario, bits := [true], rp := 1, rsp := some (okResponse 5) }
    s.cfg.Valid ∧ s.fault = true ∧ t.fault = true ∧ t.cfg = s.cfg ∧ t.cause = s.cause ∧ t.finfo = s.finfo ∧
      t.host = s.host ∧ t.inFlight = s.inFlight ∧ t.freeTick = s.freeTick ∧ t ≠ s ∧
      (stepped s).fault = false := by decide

/-- A refused command stays faulted, CLR leaves the faulted state, a bad argument enters it. -/
theorem witness_OnlyClrOrResetLeavesTheFaultedState :
    (∃ t, step ((faultedBlk .order 9).present (encode (.lds 0))) = .next t ∧
      (faultedBlk .order 9).fault = true ∧ t.fault = true) ∧
    (∃ t, step ((faultedBlk .order 9).present (encode .clr)) = .next t ∧ t.fault = false) ∧
    (∃ t, step (State.reset.present (encode (.lds 16))) = .next t ∧ State.reset.fault = false ∧ t.fault = true) :=
  ⟨⟨_, step_stepped (by decide), by decide⟩, ⟨_, step_stepped (by decide), by decide⟩, ⟨_, step_stepped (by decide), by decide⟩⟩

theorem witness_FaultsEachCommandCanRaise :
    (blk small [] [] 0).Inv ∧ (blk small [] [] 0).fault = false ∧
      ∃ t, exec (.ste 15 128) (blk small [] [] 0) = .next t ∧ t.fault = true :=
  ⟨inv_blk (by decide) (by decide) (by decide) (by decide) (by decide), rfl, ⟨_, exec_after _ _, by decide⟩⟩

/-- A normal response and one that reports a fault. -/
theorem witness_EveryAcceptedCommandGetsOneResponse :
    let s := State.reset.present (encode (.bread 1))
    (s.cfg.Valid ∧ s.inFlight = none ∧ s.host = .command (encode (.bread 1)) :: []) ∧
      (stepped s).rsp = some (faultResponse 5) ∧
      (stepped (State.reset.present (encode (.bread 0)))).rsp = some (okResponse 0) := by decide

theorem witness_IdleBlockKeepsItsState :
    State.reset.cfg.Valid ∧ State.reset.host = [] ∧ State.reset.inFlight = none := by decide

theorem witness_ResetTakesTheResetState :
    let s := { faultedBlk .order 9 with inFlight := some 0, host := [.rst] }
    s.cfg.Valid ∧ s.host = .rst :: [] := by decide

/-- The ends of the parameter ranges. -/
theorem witness_ResetStateMeetsTheInvariant :
    Params.Valid { vw := 1, nmax := 1, bcap := 8 } ∧
      Params.Valid { vw := 64, nmax := 4294967295, bcap := 18446744073709551608 } := by decide

theorem witness_StepKeepsTheInvariant :
    (blk ref scenario [] 0).Inv ∧ (∃ t, step (blk ref scenario [] 0) = .next t) ∧ State.reset.Inv ∧
      ∃ t, step State.reset = .next t :=
  ⟨inv_blk (by decide) (by decide) (by decide) (by decide) (by decide), step_next (by decide),
    inv_blk (p := ref) (by decide) rfl (by decide) (by decide) (by decide), step_next (by decide)⟩

theorem witness_ParametersNeverChange : ∃ t, step (faultedBlk .order 9) = .next t := step_next (by decide)

/-- LDS writes nothing, ENC writes no cell, DEC no bit. -/
theorem witness_OnlyTheListedCommandsWriteEachStore :
    (∃ t, exec (.enc 0 3) (blk ref scenario [] 0) = .next t ∧ t.fault = false ∧ ¬writesCells (.enc 0 3) ∧
      ¬writesReadPos (.enc 0 3)) ∧
    (∃ t, exec (.dec 0 3) (blk ref [(0, 0), (3, 6)] (bs 6 20) 0) = .next t ∧ t.fault = false ∧
      ¬writesBits (.dec 0 3)) :=
  ⟨⟨_, exec_after _ _, by decide, id, id⟩, ⟨_, exec_after _ _, by decide, id⟩⟩

/-! ### Witnesses: system commands -/

theorem witness_ClrStartsANewSession :
    ∃ t, exec .clr (faultedBlk .order 9) = .next t ∧ (faultedBlk .order 9).fault = true ∧ t.fault = false :=
  ⟨_, exec_after _ _, by decide⟩

theorem witness_RdsrReadsTheStatusRegisters :
    (State.reset.fault = false ∧ 6 < (7 : IndexWord).toNat) ∧
    ((faultedBlk .order 9).fault = true ∧ ((2 : IndexWord).toNat = 2 ∧ (3 : IndexWord).toNat = 3 ∧
      6 < (7 : IndexWord).toNat)) ∧
    ((6 : IndexWord).toNat ≤ 6 ∧ (6 : IndexWord).toNat ∈ [0, 1, 4, 5, 6]) := by decide

theorem witness_StatusIsCauseAndFault :
    (State.reset.Inv ∧ State.reset.fault = false) ∧
      FaultEntered State.reset (State.reset.raise .underflow 3) .underflow 3 :=
  ⟨⟨witness_StepKeepsTheInvariant.2.2.1, rfl⟩, faultEntered_raise _ _ _⟩

theorem witness_StsStoresOneCell :
    let s := blk small [] [] 0
    s.fault = false ∧ s.cfg.nmax ≤ (16 : IndexWord).toNat ∧
      ((15 : IndexWord).toNat < s.cfg.nmax ∧ 2 ^ s.cfg.vw ≤ (256 : DataWord).toNat) ∧
      (255 : DataWord).toNat < 2 ^ s.cfg.vw ∧ State.reset.cfg.vw = 64 := by decide

theorem witness_LdsLoadsOneCell :
    let s := blk ref [(15, 7)] [] 0
    s.fault = false ∧ s.cfg.nmax ≤ (16 : IndexWord).toNat ∧ (15 : IndexWord).toNat < s.cfg.nmax ∧
      Memory.read s.seq 15 = some 7 := by decide

/-! ### Witnesses: the bit buffer -/

/-- Width 9 of 8, value 256 in width 8, one bit too many, and a field that fills the buffer. -/
theorem witness_BwriteAppendsOneField :
    let s := blk small [] [] 0
    let f := blk small [] (bs 8 255) 0
    s.fault = false ∧ f.fault = false ∧ s.cfg.vw < (9 : IndexWord).toNat ∧
      ((8 : IndexWord).toNat ≤ s.cfg.vw ∧ 2 ^ (8 : IndexWord).toNat ≤ (256 : DataWord).toNat) ∧
      ((1 : IndexWord).toNat ≤ f.cfg.vw ∧ (0 : DataWord).toNat < 2 ^ (1 : IndexWord).toNat ∧
        f.cfg.bcap < f.wp + (1 : IndexWord).toNat) ∧
      ((255 : DataWord).toNat < 2 ^ (8 : IndexWord).toNat ∧ s.wp + (8 : IndexWord).toNat ≤ s.cfg.bcap) := by decide

theorem witness_BwriteCornerCases :
    let s := blk small [] [] 0
    s.Inv ∧ s.fault = false ∧
      ((8 : IndexWord).toNat = s.cfg.vw ∧ (255 : DataWord).toNat = 2 ^ s.cfg.vw - 1 ∧ s.wp + s.cfg.vw ≤ s.cfg.bcap) ∧
      ((8 : IndexWord).toNat ≤ s.cfg.vw ∧ s.cfg.vw < 64 ∧ (256 : DataWord) >>> (8 : IndexWord).toNat ≠ 0) ∧
      (8 ≤ s.cfg.vw ∧ s.wp + 8 ≤ s.cfg.bcap) :=
  ⟨inv_blk (by decide) (by decide) (by decide) (by decide) (by decide), rfl, by decide⟩

/-- Width 65 of 64, one bit more than is unread, and all the unread bits. -/
theorem witness_BreadConsumesOneField :
    let s := blk ref [] (bs 6 20) 4
    s.fault = false ∧ s.cfg.vw < (65 : IndexWord).toNat ∧
      ((3 : IndexWord).toNat ≤ s.cfg.vw ∧ s.wp < s.rp + (3 : IndexWord).toNat) ∧
      s.rp + (2 : IndexWord).toNat ≤ s.wp := by decide

theorem witness_BreadCornerCases :
    let s := blk ref [] (bs 6 20) 4
    s.Inv ∧ s.fault = false ∧ ((3 : IndexWord).toNat ≤ s.cfg.vw ∧ (3 : IndexWord).toNat = s.wp - s.rp + 1) ∧
      ((2 : IndexWord).toNat ≤ s.cfg.vw ∧ (2 : IndexWord).toNat = s.wp - s.rp) :=
  ⟨inv_blk (by decide) (by decide) (by decide) (by decide) (by decide), rfl, by decide⟩

theorem witness_BreadReturnsWhatBwriteWrote :
    let s := blk small [] [] 0
    s.fault = false ∧ s.rp = s.wp ∧ (8 : IndexWord).toNat ≤ s.cfg.vw ∧
      (255 : DataWord).toNat < 2 ^ (8 : IndexWord).toNat ∧ s.wp + (8 : IndexWord).toNat ≤ s.cfg.bcap := by decide

/-- A whole byte, and one bit less. -/
theorem witness_BpackPadsToAByte :
    (blk ref [] (bs 8 0) 8).Inv ∧ (blk ref [] (bs 8 0) 8).fault = false ∧ (blk ref [] (bs 8 0) 8).wp % 8 = 0 ∧
      (blk ref [] (bs 7 0) 0).Inv ∧ (blk ref [] (bs 7 0) 0).fault = false :=
  ⟨inv_blk (by decide) (by decide) (by decide) (by decide) (by decide), rfl, rfl,
    inv_blk (by decide) (by decide) (by decide) (by decide) (by decide), rfl⟩

theorem witness_MixedWidthAccessSeesOneBitString :
    let s := blk small [] [] 0
    s.fault = false ∧ s.rp = s.wp ∧ (8 : IndexWord).toNat = (3 : IndexWord).toNat + (5 : IndexWord).toNat ∧
      (8 : IndexWord).toNat ≤ s.cfg.vw ∧ s.cfg.vw ≤ 64 ∧ s.wp + (8 : IndexWord).toNat ≤ s.cfg.bcap ∧
      (7 : DataWord).toNat < 2 ^ (3 : IndexWord).toNat ∧ (31 : DataWord).toNat < 2 ^ (5 : IndexWord).toNat ∧
      (255 : DataWord).toNat = (7 : DataWord).toNat * 2 ^ (5 : IndexWord).toNat + (31 : DataWord).toNat := by decide

theorem witness_BufferIsAFirstInFirstOutQueue :
    let s := blk ref [] (bs 6 20) 4
    s.Inv ∧ Instr.bread 2 ≠ .clr ∧ ∃ t, exec (.bread 2) s = .next t ∧ t.fault = s.fault ∧ t.rp = 6 :=
  ⟨inv_blk (by decide) (by decide) (by decide) (by decide) (by decide), by decide, ⟨_, exec_after _ _, by decide⟩⟩

/-! ### Witnesses: the coder -/

theorem inv_scenario : (blk ref scenario [] 0).Inv :=
  inv_blk (by decide) (by decide) (by decide) (by decide) (by decide)

/-- The cells of the scenario as a function. -/
def chain (i : Nat) : Nat := ((Memory.read scenario i).getD 6)

theorem nondecreasing_scenario : Nondecreasing (blk ref scenario [] 0).cellAt 0 3 := by
  intro i h1 h2
  interval_cases i <;> decide

theorem nondecreasing_chain : Nondecreasing chain 0 3 := by
  intro i h1 h2
  interval_cases i <;> decide

/-- V41-14, V41-13, V41-15 and V41-1. -/
theorem witness_EncAppendsTheCodeStream :
    let s := blk ref scenario [] 0
    let d := blk ref [(0, 5), (1, 9), (2, 5)] [] 0
    let c := blk { ref with bcap := 8 } scenario (bs 4 0) 0
    (s.Inv ∧ d.Inv ∧ c.Inv) ∧ (s.fault = false ∧ d.fault = false ∧ c.fault = false) ∧
      ¬((5 : IndexWord).toNat ≤ (2 : DataWord).toNat ∧ (2 : DataWord).toNat < s.cfg.nmax) ∧
      ¬((0 : IndexWord).toNat ≤ (16 : DataWord).toNat ∧ (16 : DataWord).toNat < s.cfg.nmax) ∧
      IsFirstDescent d.cellAt 0 2 2 ∧
      (Nondecreasing c.cellAt 0 3 ∧ encFields c.cellAt 0 3 = [(3, 2)] ++ (3, 4) :: [] ∧
        c.wp + fieldsWidth [(3, 2)] ≤ c.cfg.bcap ∧ c.cfg.bcap < c.wp + fieldsWidth [(3, 2)] + 3) ∧
      (Nondecreasing s.cellAt 0 3 ∧ s.wp + (encBits s.cellAt 0 3).length ≤ s.cfg.bcap) ∧
      (chain 0 = 0 ∧ chain 1 = 2 ∧ chain 2 = 6 ∧ chain 3 = 6) :=
  ⟨⟨inv_scenario, inv_blk (by decide) (by decide) (by decide) (by decide) (by decide),
      inv_blk (by decide) (by decide) (by decide) (by decide) (by decide)⟩, by decide, by decide, by decide,
    ⟨by decide, by decide, fun j h1 h2 => by interval_cases j; decide⟩,
    ⟨fun i h1 h2 => by interval_cases i <;> decide, by decide, by decide, by decide⟩,
    ⟨nondecreasing_scenario, by decide⟩, by decide⟩

/-- A leaf, a flat range, a node, and a run of `EncNode`. -/
theorem witness_EncBitsFollowsTheRecursion :
    (1 - 0 ≤ 1 ∧ chain 3 = chain 2 ∧ 1 < 3 - 0 ∧ chain 3 ≠ chain 0) ∧
      ∃ t, encRec (3 - 0) 0 3 (blk ref scenario [] 0) = .ok t := ⟨by decide, ⟨_, rfl⟩⟩

/-- Cells 0, 1; cells 2, 3 with equal values; a node whose midpoint equals its low bound (V41-6). -/
theorem witness_EncCornerCases :
    let s := blk ref scenario [] 0
    (s.Inv ∧ s.fault = false ∧ (1 : DataWord).toNat < s.cfg.nmax ∧ Nondecreasing s.cellAt 0 1 ∧
      (1 : DataWord).toNat ≤ (0 : IndexWord).toNat + 1) ∧
    (Nondecreasing s.cellAt 2 3 ∧ s.cellAt 2 = s.cellAt 3) ∧
    (1 < 3 - 0 ∧ (fun i => if i = 3 then 5 else 0) 0 < (fun i => if i = 3 then 5 else 0) 3 ∧
      (fun i => if i = 3 then 5 else 0) (mid 0 3) = (fun i => if i = 3 then 5 else 0) 0) :=
  ⟨⟨inv_scenario, rfl, by decide, nondecreasing_scenario.mono (by decide) (by decide), by decide⟩,
    ⟨nondecreasing_scenario.mono (by decide) (by decide), by decide⟩, by decide⟩

theorem witness_CodeStreamSizeBound : Nondecreasing chain 0 3 ∧ ∀ i, 0 ≤ i → i ≤ 3 → chain i < 2 ^ 3 :=
  ⟨nondecreasing_chain, fun i _ h => by interval_cases i <;> decide⟩

theorem witness_MidpointSplitsANode : 0 ≤ 2 ∧ 2 ≤ 2 - 0 ∧ 0 ≤ 3 ∧ (3 - 0) % 2 = 1 := by decide

/-- The widest range of V41-9 and equal endpoints. -/
theorem witness_FieldWidthIsExact :
    (1 ≤ 1 ∧ 1 ≤ 2 ^ 0) ∧ 0 < 1 ∧ (0 ≤ 2 ^ 64 - 1 ∧ 2 ^ 64 - 1 < 2 ^ 64) ∧ (5 ≤ 5 ∧ 5 < 2 ^ 3) := by decide

theorem witness_StackFormAgreesWithRecursion : (blk ref scenario [] 0).stk = [] := rfl

/-- One node deep: the two children are on the stack. -/
theorem witness_WorkStackHoldsAtMost33 :
    (0 ≤ 3 ∧ 3 < 2 ^ 32) ∧
    (∃ t, encLoop 1 { blk ref scenario [] 0 with stk := [(0, 3)] } = .ok t ∧ t.stk = [(0, 1), (1, 3)]) ∧
    ∃ t, decLoop 1 { blk ref scenario (bs 6 20) 0 with stk := [(0, 3)] } = .ok t ∧ t.stk = [(0, 1), (1, 3)] :=
  ⟨by decide, ⟨_, rfl, rfl⟩, ⟨_, rfl, rfl⟩⟩

/-- The loader of P2: the endpoint cells and the payload. -/
def loaded (n v : Nat) : State := blk ref [(0, 0), (3, 6)] (bs n v) 0

theorem inv_loaded (n v : Nat) (h : n ≤ 256) : (loaded n v).Inv :=
  inv_blk (by decide) (by decide) (by decide) (by rw [bs, length_tobits]; exact h) (Nat.zero_le _)

/-- V41-14's ranges, V41-18, V41-16 and V41-1. -/
theorem witness_DecRunsDecNode :
    let d := blk ref [(0, 6), (3, 0)] [] 0
    ((loaded 6 20).Inv ∧ (loaded 5 10).Inv ∧ d.Inv) ∧ d.fault = false ∧
      ¬((5 : IndexWord).toNat ≤ (2 : DataWord).toNat ∧ (2 : DataWord).toNat < d.cfg.nmax) ∧
      ¬((0 : IndexWord).toNat ≤ (16 : DataWord).toNat ∧ (16 : DataWord).toNat < d.cfg.nmax) ∧
      d.cellAt 3 < d.cellAt 0 ∧
      ((loaded 5 10).cellAt 0 ≤ (loaded 5 10).cellAt 3 ∧
        decRec 3 0 3 (loaded 5 10) = .error ⟨.underflow, 3⟩) ∧
      ∃ u, decRec 3 0 3 (loaded 6 20) = .ok u :=
  ⟨⟨inv_loaded 6 20 (by decide), inv_loaded 5 10 (by decide),
      inv_blk (by decide) (by decide) (by decide) (by decide) (by decide)⟩, rfl, by decide, by decide, by decide,
    ⟨by decide, rfl⟩, ⟨_, rfl⟩⟩

/-- A leaf; a flat range; a node with 2 of 3 bits, with the reserved value 7, with a legal value whose left child
completes, and with one whose left child `(0, 2)` of the range `(0, 4)` has too few bits. -/
theorem witness_DecNodeFollowsTheRecursion :
    let f := blk ref [(0, 14), (3, 14)] [] 0
    let w := blk ref [(0, 0), (4, 6)] (bs 3 4) 0
    1 - 0 ≤ 1 ∧ (1 < 3 - 0 ∧ f.cellAt 3 = f.cellAt 0) ∧
      ((loaded 2 1).cellAt 3 ≠ (loaded 2 1).cellAt 0 ∧ (loaded 2 1).wp < (loaded 2 1).rp + bitlen 6) ∧
      ((loaded 3 7).rp + bitlen 6 ≤ (loaded 3 7).wp ∧ 6 < frombits ((loaded 3 7).unread.take (bitlen 6))) ∧
      ((loaded 6 20).rp + bitlen 6 ≤ (loaded 6 20).wp ∧ frombits ((loaded 6 20).unread.take (bitlen 6)) ≤ 6 ∧
        ∃ u, decRec (1 - 0) 0 1 { loaded 6 20 with rp := 3, seq := Memory.write (loaded 6 20).seq 1 2 } = .ok u) ∧
      (1 < 4 - 0 ∧ w.cellAt 4 ≠ w.cellAt 0 ∧ w.rp + bitlen 6 ≤ w.wp ∧
        frombits (w.unread.take (bitlen 6)) ≤ 6 ∧
        decRec (2 - 0) 0 2 { w with rp := 3, seq := Memory.write w.seq 2 4 } = .error ⟨.underflow, 3⟩) :=
  ⟨by decide, by decide, by decide, by decide, ⟨by decide, by decide, ⟨_, rfl⟩⟩,
    ⟨by decide, by decide, by decide, by decide, rfl⟩⟩

/-- Two bits of three, and the reserved field value 7 of V41-17. -/
theorem witness_DecFaultsAtTheRoot :
    ((loaded 2 1).Inv ∧ (loaded 3 7).Inv) ∧ (loaded 2 1).fault = false ∧ (loaded 3 7).fault = false ∧
      (3 : DataWord).toNat < (loaded 2 1).cfg.nmax ∧ (0 : IndexWord).toNat + 2 ≤ (3 : DataWord).toNat ∧
      (loaded 2 1).cellAt 0 < (loaded 2 1).cellAt 3 ∧ (loaded 3 7).cellAt 0 < (loaded 3 7).cellAt 3 ∧
      (loaded 2 1).wp - (loaded 2 1).rp < gw ((loaded 2 1).cellAt 0) ((loaded 2 1).cellAt 3) ∧
      gw ((loaded 3 7).cellAt 0) ((loaded 3 7).cellAt 3) ≤ (loaded 3 7).wp - (loaded 3 7).rp ∧
      (loaded 3 7).cellAt 3 - (loaded 3 7).cellAt 0 <
        frombits ((loaded 3 7).unread.take (gw ((loaded 3 7).cellAt 0) ((loaded 3 7).cellAt 3))) :=
  ⟨⟨inv_loaded 2 1 (by decide), inv_loaded 3 7 (by decide)⟩, by decide⟩

/-- V41-4 and V41-3. -/
theorem witness_DecShortAndFlatRanges :
    let s := blk ref [(0, 5), (1, 9)] [] 0
    let f := blk ref [(0, 14), (3, 14)] [] 0
    (s.Inv ∧ f.Inv) ∧ s.fault = false ∧ f.fault = false ∧
      ((1 : DataWord).toNat ≤ (0 : IndexWord).toNat + 1 ∧ s.cellAt 0 ≤ s.cellAt 1) ∧
      ((0 : IndexWord).toNat + 2 ≤ (3 : DataWord).toNat ∧ f.cellAt 0 = f.cellAt 3) :=
  ⟨⟨inv_blk (by decide) (by decide) (by decide) (by decide) (by decide),
    inv_blk (by decide) (by decide) (by decide) (by decide) (by decide)⟩, by decide⟩

/-- P2: the payload holds the stream and two bits of padding. -/
theorem witness_DecReconstructsTheEncodedSequence :
    let s := loaded 8 0x50
    s.Inv ∧ s.fault = false ∧ (0 : IndexWord).toNat ≤ (3 : DataWord).toNat ∧ (3 : DataWord).toNat < s.cfg.nmax ∧
      Nondecreasing chain 0 3 ∧ s.unread = encBits chain 0 3 ++ [false, false] ∧ s.cellAt 0 = chain 0 ∧
      s.cellAt 3 = chain 3 :=
  ⟨inv_loaded 8 0x50 (by decide), rfl, by decide, by decide, nondecreasing_chain, by decide, by decide, by decide⟩

theorem witness_DecOutputIsNondecreasingAndReencodes :
    (loaded 8 0x50).Inv ∧ (loaded 8 0x50).fault = false ∧
      (∃ t, exec (.dec 0 3) (loaded 8 0x50) = .next t ∧ t.fault = false) ∧ (0 : IndexWord).toNat = 0 ∧
      (4 : IndexWord).toNat = (3 : DataWord).toNat + 1 :=
  ⟨inv_loaded 8 0x50 (by decide), rfl, ⟨_, exec_after _ _, by decide⟩, by decide, by decide⟩

/-- Two blocks with all three parameters different. -/
theorem witness_CodeStreamIndependentOfParameters :
    let s := blk ref scenario [] 0
    let s' := blk { vw := 8, nmax := 4, bcap := 8 } scenario [] 0
    (s.Inv ∧ s'.Inv) ∧ s.fault = false ∧ s'.fault = false ∧ (∀ i, 0 ≤ i → i ≤ 3 → s'.cellAt i = s.cellAt i) ∧
      (∃ t, exec (.enc 0 3) s = .next t ∧ t.fault = false) ∧
      ∃ t', exec (.enc 0 3) s' = .next t' ∧ t'.fault = false :=
  ⟨⟨inv_scenario, inv_blk (by decide) (by decide) (by decide) (by decide) (by decide)⟩, rfl, rfl,
    fun i _ h => by interval_cases i <;> decide, ⟨_, exec_after _ _, by decide⟩, ⟨_, exec_after _ _, by decide⟩⟩

/-- V41-8: cells 3 to 11. -/
theorem witness_CodeStreamDependsOnDistances : 0 ≤ 8 ∧ (0 + 3, 8 + 3) = (3, 11) := by decide

/-- P1 and P2 as one session, on two blocks with different parameters. -/
theorem witness_EncThenDecRestoresTheCells :
    let s := blk ref scenario [] 0
    let u := blk { vw := 8, nmax := 4, bcap := 8 } [(0, 0), (3, 6)] (bs 6 20) 0
    s.Inv ∧ s.fault = false ∧ s.rp = s.wp ∧ u.Inv ∧ u.fault = false ∧ (3 : DataWord).toNat < u.cfg.nmax ∧
      u.cellAt 0 = s.cellAt 0 ∧ u.cellAt 3 = s.cellAt 3 ∧
      ∃ t, exec (.enc 0 3) s = .next t ∧ t.fault = false ∧ SameBuffer t u :=
  ⟨inv_scenario, rfl, rfl, inv_blk (by decide) (by decide) (by decide) (by decide) (by decide), rfl, by decide,
    by decide, by decide, ⟨_, exec_after _ _, by decide, by decide, by decide, by decide⟩⟩

/-! ### Witnesses: prefix sums -/

/-- V42-7, V42-4, and the longest build that fits, besides `n = 0` and `n = 1`. -/
theorem witness_BuildReplacesByPrefixSums :
    let o := blk small [(0, 200), (1, 56)] [] 0
    let s := blk small [(0, 200), (1, 55)] [] 0
    (o.Inv ∧ s.Inv) ∧ o.fault = false ∧ s.fault = false ∧ o.cfg.nmax < (17 : IndexWord).toNat ∧
      ((2 : IndexWord).toNat ≤ o.cfg.nmax ∧ 1 < (2 : IndexWord).toNat ∧ 2 ^ o.cfg.vw ≤ prefixSum o.cellAt 1 ∧
        ∀ j, j < 1 → prefixSum o.cellAt j < 2 ^ o.cfg.vw) ∧
      (∀ i, i < (2 : IndexWord).toNat → prefixSum s.cellAt i < 2 ^ s.cfg.vw) ∧ (1 : IndexWord).toNat ≤ 1 ∧
      (∀ i, i < (0 : IndexWord).toNat → prefixSum s.cellAt i < 2 ^ s.cfg.vw) :=
  ⟨⟨inv_blk (by decide) (by decide) (by decide) (by decide) (by decide),
    inv_blk (by decide) (by decide) (by decide) (by decide) (by decide)⟩, rfl, rfl, by decide, by decide,
    by decide, by decide, by decide⟩

/-- V42-7, V42-6 and V42-1, besides `n = 1`. -/
theorem witness_InvertReplacesByDifferences :
    let d := blk ref [(0, 3), (1, 2)] [] 0
    let s := blk ref scenario [] 0
    d.fault = false ∧ s.fault = false ∧ s.cfg.nmax < (17 : IndexWord).toNat ∧
      ((2 : IndexWord).toNat ≤ d.cfg.nmax ∧ IsFirstDescent d.cellAt 0 ((2 : IndexWord).toNat - 1) 1) ∧
      ((4 : IndexWord).toNat ≤ s.cfg.nmax ∧ Nondecreasing s.cellAt 0 ((4 : IndexWord).toNat - 1)) ∧
      Nondecreasing s.cellAt 0 ((1 : IndexWord).toNat - 1) :=
  ⟨rfl, rfl, by decide, ⟨by decide, by decide, by decide, fun j h1 h2 => by omega⟩,
    ⟨by decide, nondecreasing_scenario⟩, nondecreasing_scenario.mono (by decide) (by decide)⟩

theorem witness_BuildAndInvertLaws : Nondecreasing chain 0 3 := nondecreasing_chain

theorem witness_BuildAndInvertUndoEachOther :
    (blk ref scenario [] 0).Inv ∧ (blk ref scenario [] 0).fault = false ∧
      (∃ t, exec (.build 4) (blk ref scenario [] 0) = .next t ∧ t.fault = false) ∧
      ∃ t, exec (.invert 4) (blk ref scenario [] 0) = .next t ∧ t.fault = false :=
  ⟨inv_scenario, rfl, ⟨_, exec_after _ _, by decide⟩, ⟨_, exec_after _ _, by decide⟩⟩

/-- The least `n` with cell 0 unwritten, whatever its free value, and a written range. -/
theorem witness_BuildAndInvertWriteTheirCells :
    let b := blk ref [(1, 0)] [] 0
    let d := blk ref [(1, 2 ^ 64 - 1)] [] 0
    let s := blk ref scenario [] 0
    (b.Inv ∧ d.Inv ∧ s.Inv) ∧ 2 ≤ (2 : IndexWord).toNat ∧ 2 ≤ (4 : IndexWord).toNat ∧
      Memory.read b.seq 0 = none ∧ Memory.read d.seq 0 = none ∧
      (∃ t, exec (.build 2) b = .next t ∧ t.fault = false) ∧
      (∃ t, exec (.invert 2) d = .next t ∧ t.fault = false) ∧
      (∃ t, exec (.build 4) s = .next t ∧ t.fault = false) ∧
      ∃ t, exec (.invert 4) s = .next t ∧ t.fault = false := by
  have hb : (blk ref [(1, 0)] [] 0).Inv := inv_blk (by decide) (by decide) (by decide) (by decide) (by decide)
  have hd : (blk ref [(1, 2 ^ 64 - 1)] [] 0).Inv :=
    inv_blk (by decide) (by decide) (by decide) (by decide) (by decide)
  refine ⟨⟨hb, hd, inv_scenario⟩, by decide, by decide, rfl, rfl, ⟨_, exec_after _ _, ?_⟩, ⟨_, exec_after _ _, ?_⟩,
    ⟨_, exec_after _ _, by decide⟩, ⟨_, exec_after _ _, by decide⟩⟩
  · have h0 := hb.cellAt_lt 0
    rcases buildLoop_succ 0 0 (writeFirstCell 2 (blk ref [(1, 0)] [] 0)) with ⟨h, _⟩ | ⟨_, h⟩
    · rw [writeFirstCell_cellAt, writeFirstCell_cellAt] at h
      exact absurd h (Nat.not_le.2 h0)
    · rw [after, exec_build_ok (n := 2) rfl (by decide) h]; rfl
  · have h0 : (blk ref [(1, 2 ^ 64 - 1)] [] 0).cellAt 0 < 2 ^ 64 := hd.cellAt_lt 0
    have hn : Nondecreasing (blk ref [(1, 2 ^ 64 - 1)] [] 0).cellAt 0 ((2 : IndexWord).toNat - 1) := by
      intro i h1 h2
      obtain rfl : i = 1 := Nat.le_antisymm h2 h1
      exact Nat.le_pred_of_lt h0
    rw [after, exec_invert_ok rfl (by decide) hn]; rfl

/-! ### Witnesses: the mapper -/

theorem witness_MapperLaws :
    (0 ≤ (0 : Int)) ∧ ((-1 : Int) < 0) ∧ 0 % 2 = 0 ∧ 1 % 2 = 1 := by decide

theorem witness_MapRespondsTheMappedValue :
    State.reset.fault = false ∧ 0 ≤ (0 : DataWord).toInt ∧ (0x8000000000000000 : DataWord).toInt < 0 := by decide

theorem witness_UnmapRespondsTheResidual :
    State.reset.fault = false ∧ (0 : DataWord).toNat % 2 = 0 ∧
      (0xFFFFFFFFFFFFFFFF : DataWord).toNat % 2 = 1 := by decide

/-- V43-6 and the two ends of V43-5. -/
theorem witness_SteStoresTheMappedResidual :
    let s := blk small [] [] 0
    s.fault = false ∧ s.cfg.nmax ≤ (16 : IndexWord).toNat ∧ (15 : IndexWord).toNat < s.cfg.nmax ∧
      2 ^ s.cfg.vw ≤ mapInt (128 : DataWord).toInt ∧ mapInt (127 : DataWord).toInt < 2 ^ s.cfg.vw ∧
      mapInt (-128 : DataWord).toInt < 2 ^ s.cfg.vw := by decide

theorem witness_LdeLoadsTheResidual :
    let s := blk small [(15, 255)] [] 0
    s.Inv ∧ s.fault = false ∧ s.cfg.nmax ≤ (16 : IndexWord).toNat ∧ (15 : IndexWord).toNat < s.cfg.nmax :=
  ⟨inv_blk (by decide) (by decide) (by decide) (by decide) (by decide), by decide⟩

theorem witness_SteThenLdeReturnsTheResidual :
    let s := blk small [] [] 0
    s.Inv ∧ s.fault = false ∧ (15 : IndexWord).toNat < s.cfg.nmax ∧
      (-2 ^ (s.cfg.vw - 1) ≤ (-128 : DataWord).toInt ∧ (127 : DataWord).toInt ≤ 2 ^ (s.cfg.vw - 1) - 1) ∧
      ¬((128 : DataWord).toInt ≤ 2 ^ (s.cfg.vw - 1) - 1) ∧ State.reset.cfg.vw = 64 ∧
      (∃ t, exec (.ste 15 (-128)) s = .next t ∧ ∃ t', exec (.ste 15 127) t = .next t' ∧ t'.fault = false) :=
  ⟨inv_blk (by decide) (by decide) (by decide) (by decide) (by decide), rfl, by decide, by decide, by decide, rfl,
    ⟨_, exec_after _ _, _, exec_after _ _, by decide⟩⟩

end Sys2Proof.Tests
end

/-!
O16: every transaction keeps the invariant of the state. The invariant has to be weakened while a command runs, when a
command is in flight and the work stack is in use (`State.CommandInv`). Every operation a command is made of keeps the
weaker form, and each of the ways a command ends (`respond`, `refuse`, `raise`) gives the full one back. For ENC and DEC
the traversal also has to empty the work stack: its bound on the nodes visited is never reached (R255).
-/

namespace Sys2Proof.Machine

/-! ### The invariant while a command runs -/

/-- What `State.Inv` says of everything but the work stack and the command in flight. -/
def State.CommandInv (s : State) : Prop := State.Inv { s with stk := [], inFlight := none }

theorem State.Inv.commandInv {s : State} (h : s.Inv) : s.CommandInv :=
  { h with stk_empty := rfl, not_in_flight := rfl }

theorem State.CommandInv.cellAt_lt {s : State} (h : s.CommandInv) (i : Nat) : s.cellAt i < 2 ^ s.cfg.vw :=
  State.Inv.cellAt_lt h i

/-- Neither the response, the host's inputs, the work stack nor the free values are spoken of, so acceptance keeps
the invariant. -/
theorem State.CommandInv.accept {s : State} (h : s.CommandInv) (w : CmdWord) (rest : List HostInput) :
    (s.accept w rest).CommandInv := { h with }

/-- Pushing and popping nodes is no concern of the invariant of a running command. -/
theorem State.CommandInv.withStk {s : State} (h : s.CommandInv) (x : List (Nat × Nat)) :
    State.CommandInv { s with stk := x } := h

/-- Storing a value of `VW` bits in an existing cell keeps the invariant (R30). -/
theorem State.CommandInv.setCell {s : State} (h : s.CommandInv) {i v : Nat} (hi : i < s.cfg.nmax)
    (hv : v < 2 ^ s.cfg.vw) : (s.setCell i v).CommandInv :=
  { h with
    seq_wf := wf_write _ _ _ h.seq_wf
    seq_fits := fun p hp => by
      rcases mem_write hp with rfl | hp
      · exact ⟨hi, hv⟩
      · exact h.seq_fits p hp }

/-- Appending bits within the capacity keeps the invariant (R31). -/
theorem State.CommandInv.appendBits {s : State} (h : s.CommandInv) {bs : List Bool}
    (hb : s.wp + bs.length ≤ s.cfg.bcap) : State.CommandInv { s with bits := s.bits ++ bs } :=
  { h with
    wp_le := by simpa [State.wp] using hb
    rp_le := by
      have hrp : s.rp ≤ s.bits.length := h.rp_le
      simp only [State.wp, List.length_append]
      omega }

/-- Moving the read position within the appended bits keeps the invariant (R31). -/
theorem State.CommandInv.withRp {s : State} (h : s.CommandInv) {r : Nat} (hr : r ≤ s.wp) :
    State.CommandInv { s with rp := r } := { h with rp_le := hr }

theorem State.CommandInv.putField {s t : State} (h : s.CommandInv) {w v : Nat} (he : s.putField w v = .ok t) :
    t.CommandInv := by
  obtain ⟨hcap, rfl⟩ := (putField_ok_iff ..).mp he
  exact h.appendBits (by simpa using hcap)

theorem State.CommandInv.getField {s t : State} (h : s.CommandInv) {w v : Nat} (he : s.getField w = .ok (t, v)) :
    t.CommandInv := by
  obtain ⟨hwp, rfl, -⟩ := (getField_ok_iff ..).mp he
  exact h.withRp hwp

theorem putField_stk {s t : State} {w v : Nat} (he : s.putField w v = .ok t) : t.stk = s.stk := by
  obtain ⟨-, rfl⟩ := (putField_ok_iff ..).mp he
  rfl

theorem getField_stk {s t : State} {w v : Nat} (he : s.getField w = .ok (t, v)) : t.stk = s.stk := by
  obtain ⟨-, rfl, -⟩ := (getField_ok_iff ..).mp he
  rfl

/-! ### The ends of a command and the ways out of the faulted state -/

theorem State.CommandInv.respond {s : State} (h : s.CommandInv) (hstk : s.stk = []) (res : DataWord) :
    (s.respond res).Inv := { h with stk_empty := hstk, not_in_flight := rfl }

theorem State.CommandInv.refuse {s : State} (h : s.CommandInv) (hstk : s.stk = []) : s.refuse.Inv :=
  { h with stk_empty := hstk, not_in_flight := rfl }

/-- Fault entry establishes the invariant whatever the state was, for valid parameters (R214). -/
theorem raise_inv {s : State} (h : s.cfg.Valid) (c : Cause) (info : DataWord) : (s.raise c info).Inv where
  cfg_valid := h
  seq_wf := rfl
  seq_fits := by simp
  wp_le := raise_wp_le s c info
  rp_le := raise_rp_le s c info
  clear_cause := by simp
  sticky_cause := fun _ => ⟨c, rfl⟩
  stk_empty := rfl
  not_in_flight := rfl

/-- One check of R213: fault entry, or the command goes on. -/
theorem check_inv {s u : State} (h : s.cfg.Valid) {p : Prop} [Decidable p] {c : Cause} {info : DataWord}
    (hu : ¬p → u.Inv) : (if p then s.raise c info else u).Inv := by
  split
  · exact raise_inv h c info
  · exact hu ‹_›

/-- The reset state meets the invariant, for valid parameters (R40, R41). -/
theorem resetWith_inv {p : Params} (h : p.Valid) : (State.resetWith p).Inv where
  cfg_valid := h
  seq_wf := rfl
  seq_fits := by simp [State.resetWith]
  wp_le := Nat.zero_le _
  rp_le := Nat.le_refl 0
  clear_cause := fun _ => ⟨rfl, rfl⟩
  sticky_cause := by simp [State.resetWith]
  stk_empty := rfl
  not_in_flight := rfl

theorem hardReset_inv {s : State} (h : s.cfg.Valid) (rest : List HostInput) : (s.hardReset rest).Inv :=
  { resetWith_inv h with }

theorem clear_commandInv {s : State} (h : s.cfg.Valid) : s.clear.CommandInv := { resetWith_inv h with }

theorem State.Inv.idle {s : State} (h : s.Inv) : s.idle.Inv := { h with }

/-! ### The passes over the store -/

theorem State.CommandInv.fillCells {s : State} (h : s.CommandInv) {k i v : Nat} (hi : i + k ≤ s.cfg.nmax)
    (hv : v < 2 ^ s.cfg.vw) : (fillCells k i v s).CommandInv := by
  induction k generalizing i s with
  | zero => exact h
  | succ k ih =>
    have hcell : (s.setCell i v).CommandInv := h.setCell (by omega) hv
    exact ih hcell (by rw [setCell_cfg]; omega) hv

theorem State.CommandInv.writeFirstCell {s : State} (h : s.CommandInv) {n : Nat} (hn : n ≤ s.cfg.nmax) :
    (writeFirstCell n s).CommandInv := by
  rcases writeFirstCell_cases n s with ⟨-, e⟩ | ⟨hlt, e⟩ <;> rw [e]
  · exact h
  · exact h.setCell (by omega) (h.cellAt_lt 0)

theorem writeFirstCell_cfg (n : Nat) (s : State) : (writeFirstCell n s).cfg = s.cfg := by
  rw [writeFirstCell_frame n s]

theorem writeFirstCell_stk (n : Nat) (s : State) : (writeFirstCell n s).stk = s.stk := by
  rw [writeFirstCell_frame n s]

theorem buildLoop_stk {k i : Nat} {s t : State} (he : buildLoop k i s = .ok t) : t.stk = s.stk := by
  rw [buildLoop_frame he]

theorem invertLoop_stk (k : Nat) (s : State) : (invertLoop k s).stk = s.stk := by
  rw [invertLoop_frame k s]

/-- BUILD stores only sums that its RANGE check let pass (R152). -/
theorem State.CommandInv.buildLoop {s t : State} (h : s.CommandInv) {k i : Nat} (hi : k = 0 ∨ i + k < s.cfg.nmax)
    (he : buildLoop k i s = .ok t) : t.CommandInv := by
  induction k generalizing i s with
  | zero => cases he; exact h
  | succ k ih =>
    rcases buildLoop_succ k i s with ⟨-, e⟩ | ⟨hsum, e⟩ <;> rw [e] at he
    · cases he
    · have hcell := h.setCell (i := i + 1) (by omega) hsum
      exact ih hcell (by rw [setCell_cfg]; omega) he

/-- INVERT stores only differences, which lie below the cells they are taken from (R155). -/
theorem State.CommandInv.invertLoop {s : State} (h : s.CommandInv) {k : Nat} (hk : k = 0 ∨ k < s.cfg.nmax) :
    (invertLoop k s).CommandInv := by
  induction k generalizing s with
  | zero => exact h
  | succ k ih =>
    have hcell := h.setCell (i := k + 1) (v := s.cellAt (k + 1) - s.cellAt k) (by omega)
      ((Nat.sub_le _ _).trans_lt (h.cellAt_lt _))
    exact ih hcell (by rw [setCell_cfg]; omega)

/-! ### The traversal of ENC and DEC -/

/-- How many nodes the traversal of a node visits at most: `2(h - l) - 1`, and one for `l = h` (R255). -/
def nodeVisits (n : Nat × Nat) : Nat := max 1 (2 * (n.2 - n.1) - 1)

theorem nodeVisits_pos (n : Nat × Nat) : 0 < nodeVisits n := Nat.le_max_left _ _

/-- A node's visits pay for its own and those of its children. -/
theorem nodeVisits_children {l h : Nat} (hlt : 1 < h - l) :
    nodeVisits (l, mid l h) + nodeVisits (mid l h, h) + 1 = nodeVisits (l, h) := by
  have := mid_lengths hlt
  simp only [nodeVisits]
  omega

theorem nodeVisits_le_nodeBound (l h : Nat) : nodeVisits (l, h) ≤ nodeBound l h := by
  simp only [nodeVisits, nodeBound]
  omega

/-- The nodes on the stack end in cells that exist, and `k` visits are enough for all of them. -/
def StackFits (nmax k : Nat) (stk : List (Nat × Nat)) : Prop :=
  (∀ n ∈ stk, n.2 < nmax) ∧ (stk.map nodeVisits).sum ≤ k

theorem StackFits.single {nmax l h : Nat} (hh : h < nmax) : StackFits nmax (nodeBound l h) [(l, h)] :=
  ⟨by simpa using hh, by simpa using nodeVisits_le_nodeBound l h⟩

/-- Without visits left the stack is empty. -/
theorem StackFits.eq_nil {nmax : Nat} {stk : List (Nat × Nat)} (hs : StackFits nmax 0 stk) : stk = [] := by
  cases stk with
  | nil => rfl
  | cons n rest =>
    have hpos := nodeVisits_pos n
    have hsum := hs.2
    rw [List.map_cons, List.sum_cons] at hsum
    omega

/-- A visited node without children comes off the stack. -/
theorem StackFits.pop {nmax k : Nat} {n : Nat × Nat} {rest : List (Nat × Nat)}
    (hs : StackFits nmax (k + 1) (n :: rest)) : StackFits nmax k rest := by
  obtain ⟨hend, hsum⟩ := hs
  have hpos := nodeVisits_pos n
  rw [List.map_cons, List.sum_cons] at hsum
  exact ⟨fun m hm => hend m (List.mem_cons_of_mem _ hm), by omega⟩

/-- A visited node with an interior is replaced by its two children. -/
theorem StackFits.split {nmax k l h : Nat} {rest : List (Nat × Nat)} (hs : StackFits nmax (k + 1) ((l, h) :: rest))
    (hlt : 1 < h - l) : StackFits nmax k ((l, mid l h) :: (mid l h, h) :: rest) := by
  obtain ⟨hend, hsum⟩ := hs
  have hchildren := nodeVisits_children hlt
  have hmid := mid_bounds hlt
  simp only [List.forall_mem_cons] at hend
  obtain ⟨hh, hrest⟩ := hend
  simp only [List.map_cons, List.sum_cons] at hsum
  refine ⟨?_, ?_⟩
  · simp only [List.forall_mem_cons]
    exact ⟨hmid.2.trans hh, hh, hrest⟩
  · simp only [List.map_cons, List.sum_cons]
    omega

/-- What the traversal needs of a visit: it keeps the invariant at every node that ends in a cell that exists, leaves
the parameters and the work stack alone, and gives children only to a node with an interior. -/
structure SoundVisit (visit : Visit) : Prop where
  keeps : ∀ {l h : Nat} {s t : State} {b : Bool}, s.CommandInv → h < s.cfg.nmax → visit l h s = .ok (t, b) →
    t.CommandInv
  frame : ∀ {l h : Nat} {s t : State} {b : Bool}, visit l h s = .ok (t, b) → t.cfg = s.cfg ∧ t.stk = s.stk
  interior : ∀ {l h : Nat} {s t : State}, visit l h s = .ok (t, true) → 1 < h - l

/-- The traversal keeps the invariant, and with enough visits for what the stack holds it leaves the stack empty. (The
package of `coderLoop_keeps` does not fit: that a node's cells exist is known from the stack it comes off.) -/
theorem SoundVisit.commandInv_coderLoop {visit : Visit} (hv : SoundVisit visit) {k : Nat} {s t : State}
    (hs : s.CommandInv) (hfit : StackFits s.cfg.nmax k s.stk) (he : coderLoop visit k s = .ok t) :
    t.CommandInv ∧ t.stk = [] := by
  induction k generalizing s with
  | zero => cases he; exact ⟨hs, hfit.eq_nil⟩
  | succ k ih =>
    unfold coderLoop at he
    split at he
    · rename_i hnil
      cases he
      exact ⟨hs, hnil⟩
    · rename_i l h rest hcons
      rw [hcons] at hfit
      have hh : h < s.cfg.nmax := hfit.1 (l, h) List.mem_cons_self
      have hpopped := hs.withStk rest
      split at he
      · cases he
      · rename_i u hu
        obtain ⟨hcfg, hstk⟩ := hv.frame hu
        exact ih (hv.keeps hpopped hh hu) (by rw [hcfg, hstk]; exact hfit.pop) he
      · rename_i u hu
        obtain ⟨hcfg, hstk⟩ := hv.frame hu
        refine ih ((hv.keeps hpopped hh hu).withStk _) ?_ he
        simp only [hcfg, hstk]
        exact hfit.split (hv.interior hu)

/-- The whole traversal of a range, as ENC and DEC run it. -/
theorem SoundVisit.commandInv_range {visit : Visit} (hv : SoundVisit visit) {l h : Nat} {s t : State}
    (hs : s.CommandInv) (hh : h < s.cfg.nmax)
    (he : coderLoop visit (nodeBound l h) { s with stk := [(l, h)] } = .ok t) : t.CommandInv ∧ t.stk = [] :=
  hv.commandInv_coderLoop (hs.withStk _) (StackFits.single hh) he

/-- A visit of ENC only appends a field that fits (R123). -/
theorem encNode_sound : SoundVisit encNode where
  keeps {l h s t b} hs _ he := by
    rcases encNode_cases l h s with ⟨-, e⟩ | ⟨-, -, ⟨-, e⟩ | ⟨hcap, e⟩⟩ <;> rw [e] at he <;> cases he
    · exact hs
    · exact hs.appendBits (by simpa using hcap)
  frame he := by rw [encNode_frame he]; exact ⟨rfl, rfl⟩
  interior {l h s t} he := by
    rcases encNode_cases l h s with ⟨-, e⟩ | ⟨hlt, -⟩
    · rw [e] at he; cases he
    · exact hlt

/-- A decoded midpoint lies between the values of its node's ends, which is what BADCODE checks, so it has `VW` bits
(R129). -/
theorem decNode_sound : SoundVisit decNode where
  keeps {l h s t b} hs hh he := by
    have hl := hs.cellAt_lt l
    have hhi := hs.cellAt_lt h
    rcases decNode_cases l h s with ⟨-, e⟩ | ⟨hlt, -, e⟩ | ⟨hlt, -, ⟨-, e⟩ | ⟨hwp, ⟨-, e⟩ | ⟨hcode, e⟩⟩⟩ <;>
      rw [e] at he <;> cases he
    · exact hs
    · exact hs.fillCells (by omega) hl
    · have hmid := mid_bounds hlt
      exact (hs.withRp hwp).setCell (hmid.2.trans hh) (show _ < 2 ^ s.cfg.vw by omega)
  frame he := by rw [decNode_frame he]; exact ⟨rfl, rfl⟩
  interior {l h s t} he := by
    rcases decNode_cases l h s with ⟨-, e⟩ | ⟨hlt, -⟩ | ⟨hlt, -⟩
    · rw [e] at he; cases he
    · exact hlt
    · exact hlt

/-! ### The commands -/

section Commands

variable {s : State} (hs : s.CommandInv) (hstk : s.stk = [])
include hs hstk

/-- Under the dispatch of R78 only the executed command is left to look at. -/
theorem runCommand_inv {f : State → State} (hf : (f s).Inv) : ∃ t, runCommand f s = .next t ∧ t.Inv := by
  cases hfault : s.fault with
  | true => exact ⟨_, runCommand_faulted f hfault, hs.refuse hstk⟩
  | false => exact ⟨_, runCommand_live f hfault, hf⟩

theorem execRdsr_inv (r : IndexWord) : ∃ t, execRdsr r s = .next t ∧ t.Inv := by
  refine ⟨_, rfl, ?_⟩
  split
  · exact hs.refuse hstk
  · split
    · exact hs.respond hstk _
    · exact raise_inv hs.cfg_valid _ _

theorem execSts_inv (i : IndexWord) (v : DataWord) : ∃ t, execSts i v s = .next t ∧ t.Inv :=
  runCommand_inv hs hstk <| check_inv hs.cfg_valid fun hi => check_inv hs.cfg_valid fun hv =>
    (hs.setCell (Nat.not_le.1 hi) (Nat.not_le.1 hv)).respond hstk _

theorem execLds_inv (i : IndexWord) : ∃ t, execLds i s = .next t ∧ t.Inv :=
  runCommand_inv hs hstk <| check_inv hs.cfg_valid fun _ => hs.respond hstk _

theorem execBwrite_inv (w : IndexWord) (v : DataWord) : ∃ t, execBwrite w v s = .next t ∧ t.Inv := by
  refine runCommand_inv hs hstk <| check_inv hs.cfg_valid fun _ => check_inv hs.cfg_valid fun _ => ?_
  split
  · rename_i t he
    exact (hs.putField he).respond ((putField_stk he).trans hstk) _
  · exact raise_inv hs.cfg_valid _ _

theorem execBread_inv (w : IndexWord) : ∃ t, execBread w s = .next t ∧ t.Inv := by
  refine runCommand_inv hs hstk <| check_inv hs.cfg_valid fun _ => ?_
  split
  · rename_i t v he
    exact (hs.getField he).respond ((getField_stk he).trans hstk) _
  · exact raise_inv hs.cfg_valid _ _

theorem execBpack_inv : ∃ t, execBpack s = .next t ∧ t.Inv := by
  refine runCommand_inv hs hstk ?_
  split
  · rename_i t he
    exact (hs.putField he).respond ((putField_stk he).trans hstk) _
  · exact raise_inv hs.cfg_valid _ _

theorem execEnc_inv (l : IndexWord) (h : DataWord) : ∃ t, execEnc l h s = .next t ∧ t.Inv := by
  refine runCommand_inv hs hstk <| check_inv hs.cfg_valid fun harg => ?_
  split
  · exact raise_inv hs.cfg_valid _ _
  · split
    · rename_i t he
      obtain ⟨ht, hempty⟩ := encNode_sound.commandInv_range hs (not_not.1 harg).2 he
      exact ht.respond hempty _
    · exact raise_inv hs.cfg_valid _ _

theorem execDec_inv (l : IndexWord) (h : DataWord) : ∃ t, execDec l h s = .next t ∧ t.Inv := by
  refine runCommand_inv hs hstk <| check_inv hs.cfg_valid fun harg => check_inv hs.cfg_valid fun _ => ?_
  split
  · rename_i t he
    obtain ⟨ht, hempty⟩ := decNode_sound.commandInv_range hs (not_not.1 harg).2 he
    exact ht.respond hempty _
  · exact raise_inv hs.cfg_valid _ _

theorem execBuild_inv (n : IndexWord) : ∃ t, execBuild n s = .next t ∧ t.Inv := by
  refine runCommand_inv hs hstk <| check_inv hs.cfg_valid fun hn => ?_
  have hfirst := hs.writeFirstCell (Nat.not_lt.1 hn)
  split
  · rename_i t he
    have ht := hfirst.buildLoop (by rw [writeFirstCell_cfg]; omega) he
    exact ht.respond (by rw [buildLoop_stk he, writeFirstCell_stk, hstk]) _
  · exact raise_inv hs.cfg_valid _ _

theorem execInvert_inv (n : IndexWord) : ∃ t, execInvert n s = .next t ∧ t.Inv := by
  refine runCommand_inv hs hstk <| check_inv hs.cfg_valid fun hn => ?_
  have hfirst := hs.writeFirstCell (Nat.not_lt.1 hn)
  split
  · exact raise_inv hs.cfg_valid _ _
  · have hpass := hfirst.invertLoop (k := n.toNat - 1) (by rw [writeFirstCell_cfg]; omega)
    exact hpass.respond (by rw [invertLoop_stk, writeFirstCell_stk, hstk]) _

theorem execMap_inv (e : DataWord) : ∃ t, execMap e s = .next t ∧ t.Inv :=
  runCommand_inv hs hstk <| hs.respond hstk _

theorem execUnmap_inv (n : DataWord) : ∃ t, execUnmap n s = .next t ∧ t.Inv :=
  runCommand_inv hs hstk <| hs.respond hstk _

theorem execSte_inv (i : IndexWord) (e : DataWord) : ∃ t, execSte i e s = .next t ∧ t.Inv :=
  runCommand_inv hs hstk <| check_inv hs.cfg_valid fun hi => check_inv hs.cfg_valid fun he =>
    (hs.setCell (Nat.not_le.1 hi) (Nat.not_le.1 he)).respond hstk _

theorem execLde_inv (i : IndexWord) : ∃ t, execLde i s = .next t ∧ t.Inv :=
  runCommand_inv hs hstk <| check_inv hs.cfg_valid fun _ => hs.respond hstk _

/-- Every command ends in a state that meets the invariant. -/
theorem exec_inv (i : Instr) : ∃ t, exec i s = .next t ∧ t.Inv := by
  cases i with
  | nop => exact ⟨_, rfl, hs.respond hstk _⟩
  | clr => exact ⟨_, rfl, (clear_commandInv hs.cfg_valid).respond rfl _⟩
  | rdsr r => exact execRdsr_inv hs hstk r
  | sts c v => exact execSts_inv hs hstk c v
  | lds c => exact execLds_inv hs hstk c
  | bwrite w v => exact execBwrite_inv hs hstk w v
  | bread w => exact execBread_inv hs hstk w
  | bpack => exact execBpack_inv hs hstk
  | enc l h => exact execEnc_inv hs hstk l h
  | dec l h => exact execDec_inv hs hstk l h
  | build n => exact execBuild_inv hs hstk n
  | invert n => exact execInvert_inv hs hstk n
  | map e => exact execMap_inv hs hstk e
  | unmap n => exact execUnmap_inv hs hstk n
  | ste c e => exact execSte_inv hs hstk c e
  | lde c => exact execLde_inv hs hstk c

/-- Every command word does, an undefined opcode included (R79). -/
theorem runWord_inv (w : CmdWord) : ∃ t, runWord w s = .next t ∧ t.Inv := by
  unfold runWord
  split
  · exact exec_inv hs hstk _
  · exact runCommand_inv hs hstk (raise_inv hs.cfg_valid _ _)

end Commands

/-! ### The transaction -/

/-- Where the command word of a transaction comes from: it is in flight, or it is accepted (R77). -/
theorem fetch_cases {s u : State} {w : CmdWord} (h : s.fetch = some (w, u)) :
    (s.inFlight = some w ∧ u = s) ∨
    (s.inFlight = none ∧ ∃ rest, s.host = .command w :: rest ∧ u = s.accept w rest) := by
  unfold State.fetch at h
  split at h
  · cases h; exact .inl ⟨‹_›, rfl⟩
  · split at h
    · cases h; exact .inr ⟨‹_›, _, ‹_›, rfl⟩
    · cases h

/-- Everything one transaction of a configured block can do: a reset, a command, or nothing. -/
theorem step_cases {s t : State} (h : step s = .next t) :
    (∃ rest, s.host = .rst :: rest ∧ t = s.hardReset rest) ∨
    (∃ w u, s.fetch = some (w, u) ∧ runWord w u = .next t) ∨
    (s.fetch = none ∧ t = s.idle) := by
  unfold step at h
  split at h
  · split at h
    · cases h; exact .inl ⟨_, ‹_›, rfl⟩
    · split at h
      · exact .inr (.inl ⟨_, _, ‹_›, h⟩)
      · cases h; exact .inr (.inr ⟨‹_›, rfl⟩)
  · cases h

/-- The state a command is executed in meets the invariant of a running command, with an empty work stack. -/
theorem State.Inv.fetch {s u : State} (h : s.Inv) {w : CmdWord} (hf : s.fetch = some (w, u)) :
    u.CommandInv ∧ u.stk = [] := by
  rcases fetch_cases hf with ⟨-, rfl⟩ | ⟨-, rest, -, rfl⟩
  · exact ⟨h.commandInv, h.stk_empty⟩
  · exact ⟨h.commandInv.accept w rest, h.stk_empty⟩

/-- Settles O16: by the three kinds of transaction. -/
theorem stepKeepsTheInvariant : Obligations.StepKeepsTheInvariant := by
  intro s t hs hstep
  rcases step_cases hstep with ⟨rest, -, rfl⟩ | ⟨w, u, hfetch, hrun⟩ | ⟨-, rfl⟩
  · exact hardReset_inv hs.cfg_valid rest
  · obtain ⟨hu, hstk⟩ := hs.fetch hfetch
    obtain ⟨t', hrun', ht'⟩ := runWord_inv hu hstk w
    cases hrun.symm.trans hrun'
    exact ht'
  · exact hs.idle

end Sys2Proof.Machine

/-!
The statements of 10_state.md. What a command can do is said once, in `CommandEnds`: it is refused, it enters the
faulted state, it clears the session, or it completes with a `CommandEffect` on the stores it may write. The fault
registers, the parameters, the frame of each store and the queue discipline of the bit buffer are then read off it. The
bound on the work stack has an invariant of its own, `HalvingStack`.
-/

namespace Sys2Proof.Machine

/-! ### What a completing command does to the stores -/

/-- What command `i` can have done to the state it leaves at `u`, when it neither faults nor clears: each store changes
only under a command listed for it (10_state.md section 1), `BITS` grows at its end, and `RP` goes forward over appended
bits. -/
structure CommandEffect (i : Instr) (s u : State) : Prop where
  cfg : u.cfg = s.cfg
  fault : u.fault = s.fault
  cause : u.cause = s.cause
  finfo : u.finfo = s.finfo
  freeTick : u.freeTick = s.freeTick
  cells : ¬writesCells i → u.seq = s.seq
  bits : ¬writesBits i → u.bits = s.bits
  readPos : ¬writesReadPos i → u.rp = s.rp
  appends : s.bits <+: u.bits
  rp_le : s.rp ≤ u.rp
  rp_le_max : u.rp ≤ max s.rp u.wp

namespace CommandEffect

variable {i : Instr} {s u v : State}

theorem refl (i : Instr) (s : State) : CommandEffect i s s where
  cfg := rfl
  fault := rfl
  cause := rfl
  finfo := rfl
  freeTick := rfl
  cells _ := rfl
  bits _ := rfl
  readPos _ := rfl
  appends := List.prefix_rfl
  rp_le := le_rfl
  rp_le_max := le_max_left _ _

theorem trans (h : CommandEffect i s u) (h' : CommandEffect i u v) : CommandEffect i s v where
  cfg := h'.cfg.trans h.cfg
  fault := h'.fault.trans h.fault
  cause := h'.cause.trans h.cause
  finfo := h'.finfo.trans h.finfo
  freeTick := h'.freeTick.trans h.freeTick
  cells hi := (h'.cells hi).trans (h.cells hi)
  bits hi := (h'.bits hi).trans (h.bits hi)
  readPos hi := (h'.readPos hi).trans (h.readPos hi)
  appends := h.appends.trans h'.appends
  rp_le := h.rp_le.trans h'.rp_le
  rp_le_max := by
    have hwp : u.wp ≤ v.wp := h'.appends.length_le
    have hu := h.rp_le_max
    have hv := h'.rp_le_max
    omega

/-- Pushing and popping nodes is no effect on the stores. -/
theorem withStk (h : CommandEffect i s u) (x : List (Nat × Nat)) : CommandEffect i s { u with stk := x } :=
  { h with }

theorem store (hi : writesCells i) (m : Memory) : CommandEffect i s { s with seq := m } :=
  { refl i s with cells := fun hn => absurd hi hn }

/-- An update of the store alone is an effect of a command that writes cells. -/
theorem ofStore (hi : writesCells i) (h : u = { s with seq := u.seq }) : CommandEffect i s u :=
  h ▸ store hi u.seq

theorem append (hi : writesBits i) (bs : List Bool) : CommandEffect i s { s with bits := s.bits ++ bs } :=
  { refl i s with
    bits := fun hn => absurd hi hn
    appends := List.prefix_append _ _
    rp_le_max := le_max_left _ _ }

theorem consume (hi : writesReadPos i) {w : Nat} (hw : s.rp + w ≤ s.wp) :
    CommandEffect i s { s with rp := s.rp + w } :=
  { refl i s with
    readPos := fun hn => absurd hi hn
    rp_le := Nat.le_add_right _ _
    rp_le_max := hw.trans (le_max_right _ _) }

theorem putField (hi : writesBits i) {w x : Nat} (h : s.putField w x = .ok u) : CommandEffect i s u := by
  obtain ⟨-, rfl⟩ := (putField_ok_iff ..).mp h
  exact append hi _

theorem getField (hi : writesReadPos i) {w x : Nat} (h : s.getField w = .ok (u, x)) : CommandEffect i s u := by
  obtain ⟨hw, rfl, -⟩ := (getField_ok_iff ..).mp h
  exact consume hi hw

theorem encNode {l h : Nat} {b : Bool} (hi : writesBits i) (he : encNode l h s = .ok (u, b)) :
    CommandEffect i s u := by
  rcases encNode_cases l h s with ⟨-, e⟩ | ⟨-, -, ⟨-, e⟩ | ⟨-, e⟩⟩ <;> rw [e] at he <;> cases he
  · exact refl i s
  · exact append hi _

theorem decNode {l h : Nat} {b : Bool} (hc : writesCells i) (hr : writesReadPos i)
    (he : decNode l h s = .ok (u, b)) : CommandEffect i s u := by
  rcases decNode_cases l h s with ⟨-, e⟩ | ⟨-, -, e⟩ | ⟨-, -, ⟨-, e⟩ | ⟨hw, ⟨-, e⟩ | ⟨-, e⟩⟩⟩ <;>
    rw [e] at he <;> cases he
  · exact refl i s
  · exact ofStore hc (fillCells_eq ..)
  · exact (consume hr hw).trans (store hc _)

/-- The traversal has the effects of its visits. -/
theorem coderLoop {visit : Visit} (hvisit : ∀ {l h : Nat} {s u : State} {b : Bool},
    visit l h s = .ok (u, b) → CommandEffect i s u) {k : Nat} {stk : List (Nat × Nat)}
    (he : coderLoop visit k { s with stk := stk } = .ok u) : CommandEffect i s u :=
  coderLoop_keeps (P := CommandEffect i s) (fun _ x h => h.withStk x)
    (fun _ _ _ _ _ h hv => h.trans (hvisit hv)) k _ u ((refl i s).withStk stk) he

theorem buildLoop {n k j : Nat} (hi : writesCells i) (he : buildLoop k j (writeFirstCell n s) = .ok u) :
    CommandEffect i s u :=
  (ofStore hi (writeFirstCell_frame n s)).trans (ofStore hi (buildLoop_frame he))

theorem invertLoop (hi : writesCells i) (n k : Nat) : CommandEffect i s (invertLoop k (writeFirstCell n s)) :=
  (ofStore hi (writeFirstCell_frame n s)).trans (ofStore hi (invertLoop_frame k _))

/-- A command that is not listed as writing cells leaves the whole store as it was. -/
theorem sameCells (h : CommandEffect i s u) (hi : ¬writesCells i) : SameCells s u :=
  SameCells.of_seq (h.cells hi) h.cfg h.freeTick

/-- The bits before `RP` are never looked at again: the unread bits with the added ones are the consumed ones followed
by what is unread now (R31, R66). -/
theorem queue (h : CommandEffect i s u) (hrp : s.rp ≤ s.wp) :
    ∃ added consumed : List Bool, u.bits = s.bits ++ added ∧ u.wp = s.wp + added.length ∧
      u.rp = s.rp + consumed.length ∧ s.unread ++ added = consumed ++ u.unread := by
  obtain ⟨added, hadded⟩ := h.appends
  have hwp : u.wp = s.wp + added.length := by simp [State.wp, ← hadded]
  have hle := h.rp_le
  have hmax := h.rp_le_max
  have hunread : s.unread ++ added = u.bits.drop s.rp := by
    rw [← hadded, List.drop_append_of_le_length hrp, unread_eq]
  refine ⟨added, (u.bits.drop s.rp).take (u.rp - s.rp), hadded.symm, hwp, ?_, ?_⟩
  · rw [List.length_take, List.length_drop, ← wp_eq]
    omega
  · rw [hunread, unread_eq, ← Nat.add_sub_of_le hle, ← List.drop_drop, Nat.add_sub_cancel_left,
      List.take_append_drop]

end CommandEffect

/-! ### How a command ends -/

/-- The four ways command `i` can end in state `s` (R74, R78, R177, R214). -/
inductive CommandEnds (i : Instr) (s : State) : State → Prop
  | refused (hf : s.fault = true) : CommandEnds i s s.refuse
  | raised (hf : s.fault = false) (c : Cause) (info : DataWord) : CommandEnds i s (s.raise c info)
  | cleared (hi : i = .clr) : CommandEnds i s (s.clear.respond 0)
  | completed {u : State} (h : CommandEffect i s u) (res : DataWord) : CommandEnds i s (u.respond res)

/-- What the dispatch of R78 can do. -/
theorem runCommand_cases {f : State → State} {s t : State} (h : runCommand f s = .next t) :
    (s.fault = true ∧ t = s.refuse) ∨ (s.fault = false ∧ t = f s) := by
  cases hf : s.fault with
  | true => rw [runCommand_faulted f hf] at h; cases h; exact .inl ⟨rfl, rfl⟩
  | false => rw [runCommand_live f hf] at h; cases h; exact .inr ⟨rfl, rfl⟩

/-- Under the dispatch of R78 only the executed command is left to look at. -/
theorem runCommand_ends {i : Instr} {f : State → State} {s t : State} (h : runCommand f s = .next t)
    (hf : s.fault = false → CommandEnds i s (f s)) : CommandEnds i s t := by
  rcases runCommand_cases h with ⟨hfault, rfl⟩ | ⟨hlive, rfl⟩
  · exact .refused hfault
  · exact hf hlive

/-- One check of R213: fault entry, or the command goes on. -/
theorem check_ends {i : Instr} {s t : State} {p : Prop} [Decidable p] {c : Cause} {info : DataWord}
    (hlive : s.fault = false) (ht : CommandEnds i s t) :
    CommandEnds i s (if p then s.raise c info else t) := by
  split
  · exact .raised hlive c info
  · exact ht

/-- A status register that is readable in the faulted state exists (R24, R78). -/
theorem readSr_of_readableWhenFaulted {r : Nat} (h : readableWhenFaulted r = true) (s : State) :
    ∃ v, s.readSr r = some v := by
  simp only [readableWhenFaulted, Bool.or_eq_true, beq_iff_eq] at h
  rcases h with (((rfl | rfl) | rfl) | rfl) | rfl <;> exact ⟨_, rfl⟩

theorem execRdsr_ends {r : IndexWord} {s t : State} (h : execRdsr r s = .next t) : CommandEnds (.rdsr r) s t := by
  cases h
  split
  · rename_i hcond
    exact .refused (Bool.and_eq_true_iff.1 hcond).1
  · rename_i hcond
    split
    · exact .completed (.refl _ s) _
    · rename_i hnone
      refine .raised ?_ _ _
      by_contra hlive
      have hfault : s.fault = true := by simpa using hlive
      have hreadable : readableWhenFaulted r.toNat = true := by simpa [hfault] using hcond
      obtain ⟨v, hv⟩ := readSr_of_readableWhenFaulted hreadable s
      simp [hv] at hnone

theorem execSts_ends {i : IndexWord} {v : DataWord} {s t : State} (h : execSts i v s = .next t) :
    CommandEnds (.sts i v) s t :=
  runCommand_ends h fun hf => check_ends hf (check_ends hf (.completed (.store (by trivial) _) 0))

theorem execLds_ends {i : IndexWord} {s t : State} (h : execLds i s = .next t) :
    CommandEnds (.lds i) s t :=
  runCommand_ends h fun hf => check_ends hf (.completed (.refl _ s) _)

theorem execBwrite_ends {w : IndexWord} {v : DataWord} {s t : State} (h : execBwrite w v s = .next t) :
    CommandEnds (.bwrite w v) s t := by
  refine runCommand_ends h fun hf => check_ends hf (check_ends hf ?_)
  split
  · exact .completed (.putField (by trivial) ‹_›) _
  · exact .raised hf _ _

theorem execBread_ends {w : IndexWord} {s t : State} (h : execBread w s = .next t) :
    CommandEnds (.bread w) s t := by
  refine runCommand_ends h fun hf => check_ends hf ?_
  split
  · exact .completed (.getField (by trivial) ‹_›) _
  · exact .raised hf _ _

theorem execBpack_ends {s t : State} (h : execBpack s = .next t) : CommandEnds .bpack s t := by
  refine runCommand_ends h fun hf => ?_
  split
  · exact .completed (.putField (by trivial) ‹_›) _
  · exact .raised hf _ _

theorem execEnc_ends {l : IndexWord} {h : DataWord} {s t : State} (he : execEnc l h s = .next t) :
    CommandEnds (.enc l h) s t := by
  refine runCommand_ends he fun hf => check_ends hf ?_
  split
  · exact .raised hf _ _
  · split
    · exact .completed (.coderLoop (.encNode (by trivial)) ‹_›) _
    · exact .raised hf _ _

theorem execDec_ends {l : IndexWord} {h : DataWord} {s t : State} (he : execDec l h s = .next t) :
    CommandEnds (.dec l h) s t := by
  refine runCommand_ends he fun hf => check_ends hf (check_ends hf ?_)
  split
  · exact .completed (.coderLoop (.decNode (by trivial) (by trivial)) ‹_›) _
  · exact .raised hf _ _

theorem execBuild_ends {n : IndexWord} {s t : State} (h : execBuild n s = .next t) :
    CommandEnds (.build n) s t := by
  refine runCommand_ends h fun hf => check_ends hf ?_
  split
  · exact .completed (.buildLoop (by trivial) ‹_›) _
  · exact .raised hf _ _

theorem execInvert_ends {n : IndexWord} {s t : State} (h : execInvert n s = .next t) :
    CommandEnds (.invert n) s t := by
  refine runCommand_ends h fun hf => check_ends hf ?_
  split
  · exact .raised hf _ _
  · exact .completed (.invertLoop (by trivial) _ _) _

theorem execMap_ends {e : DataWord} {s t : State} (h : execMap e s = .next t) :
    CommandEnds (.map e) s t :=
  runCommand_ends h fun _ => .completed (.refl _ s) _

theorem execUnmap_ends {n : DataWord} {s t : State} (h : execUnmap n s = .next t) :
    CommandEnds (.unmap n) s t :=
  runCommand_ends h fun _ => .completed (.refl _ s) _

theorem execSte_ends {i : IndexWord} {e : DataWord} {s t : State} (h : execSte i e s = .next t) :
    CommandEnds (.ste i e) s t :=
  runCommand_ends h fun hf => check_ends hf (check_ends hf (.completed (.store (by trivial) _) 0))

theorem execLde_ends {i : IndexWord} {s t : State} (h : execLde i s = .next t) :
    CommandEnds (.lde i) s t :=
  runCommand_ends h fun hf => check_ends hf (.completed (.refl _ s) _)

/-- Every command ends in one of the four ways. -/
theorem exec_ends {i : Instr} {s t : State} (h : exec i s = .next t) : CommandEnds i s t := by
  cases i with
  | nop => cases h; exact .completed (.refl _ s) 0
  | clr => cases h; exact .cleared rfl
  | rdsr r => exact execRdsr_ends h
  | sts c v => exact execSts_ends h
  | lds c => exact execLds_ends h
  | bwrite w v => exact execBwrite_ends h
  | bread w => exact execBread_ends h
  | bpack => exact execBpack_ends h
  | enc l h' => exact execEnc_ends h
  | dec l h' => exact execDec_ends h
  | build n => exact execBuild_ends h
  | invert n => exact execInvert_ends h
  | map e => exact execMap_ends h
  | unmap n => exact execUnmap_ends h
  | ste c e => exact execSte_ends h
  | lde c => exact execLde_ends h

/-! ### The stores -/

/-- Settles O18: of the four ways to end, fault entry changes `FAULT`, and CLR is listed for every store. -/
theorem onlyTheListedCommandsWriteEachStore : Obligations.OnlyTheListedCommandsWriteEachStore := by
  intro i s t h hfault
  cases exec_ends h with
  | refused => exact ⟨fun _ _ => ⟨rfl, rfl⟩, fun _ => ⟨rfl, rfl⟩, fun _ => rfl⟩
  | raised hf => exact absurd (hfault.trans hf) (by simp)
  | cleared hi =>
    subst hi
    exact ⟨fun hn => absurd trivial hn, fun hn => absurd trivial hn, fun hn => absurd trivial hn⟩
  | completed heff =>
    exact ⟨heff.sameCells, fun hi => ⟨heff.bits hi, congrArg List.length (heff.bits hi)⟩, heff.readPos⟩

/-- Settles O32: a refused command moves no bit, and a completed one obeys the queue discipline. -/
theorem bufferIsAFirstInFirstOutQueue : Obligations.BufferIsAFirstInFirstOutQueue := by
  intro i s t hs hi h hfault
  cases exec_ends h with
  | refused => exact (CommandEffect.refl i s).queue hs.rp_le
  | raised hf => exact absurd (hfault.trans hf) (by simp)
  | cleared hclr => exact absurd hclr hi
  | completed heff => exact heff.queue hs.rp_le

/-! ### The fault registers -/

/-- One row of the field table (R72): the row's own command, or what the later rows say. -/
theorem opcode_of_table_row {op k : Opcode} {i j : Instr} {later : Except DecodeReject Instr} (hj : j.opcode = k)
    (hlater : later = .ok i → op = i.opcode) : (if op = k then .ok j else later) = .ok i → op = i.opcode := by
  intro h
  split at h
  · cases h
    exact ‹op = k›.trans hj.symm
  · exact hlater h

/-- The opcode of a decoded word is the command's (R72). -/
theorem opcode_of_decode {w : CmdWord} {i : Instr} (h : decode w = .ok i) : cmdOp w = i.opcode := by
  unfold decode decodeFields at h
  revert h
  iterate 16 refine opcode_of_table_row rfl ?_
  exact nofun

/-- `FAULT`, `CAUSE` and `FINFO` are as before. -/
def SameFaultRegisters (s t : State) : Prop := t.fault = s.fault ∧ t.cause = s.cause ∧ t.finfo = s.finfo

/-- The faulted state is entered with one of the eight causes, and the response reports it (R214). -/
def EntersFault (s t : State) : Prop :=
  s.fault = false ∧ t.fault = true ∧ ∃ c : Cause, t.cause = causeCode c ∧ t.rsp = some (faultResponse (causeCode c))

theorem entersFault_raise {s : State} (h : s.fault = false) (c : Cause) (info : DataWord) :
    EntersFault s (s.raise c info) := ⟨h, rfl, c, rfl, rfl⟩

/-- A command leaves the fault registers alone, is CLR, or enters the faulted state. -/
theorem exec_faultRegisters {i : Instr} {s t : State} (h : exec i s = .next t) :
    SameFaultRegisters s t ∨ (i = .clr ∧ t.fault = false) ∨ EntersFault s t := by
  cases exec_ends h with
  | refused => exact .inl ⟨rfl, rfl, rfl⟩
  | raised hf c info => exact .inr (.inr (entersFault_raise hf c info))
  | cleared hi => exact .inr (.inl ⟨hi, rfl⟩)
  | completed heff => exact .inl ⟨heff.fault, heff.cause, heff.finfo⟩

/-- The same of a command word, an undefined opcode included (R79). -/
theorem runWord_faultRegisters {w : CmdWord} {s t : State} (h : runWord w s = .next t) :
    SameFaultRegisters s t ∨ (cmdOp w = 0x01 ∧ t.fault = false) ∨ EntersFault s t := by
  unfold runWord at h
  split at h
  · rename_i i hdec
    refine (exec_faultRegisters h).imp_right (Or.imp_left ?_)
    rintro ⟨rfl, hclear⟩
    exact ⟨opcode_of_decode hdec, hclear⟩
  · rcases runCommand_cases h with ⟨-, rfl⟩ | ⟨hlive, rfl⟩
    · exact .inl ⟨rfl, rfl, rfl⟩
    · exact .inr (.inr (entersFault_raise hlive _ _))

/-- Acceptance changes no fault register. -/
theorem fetch_faultRegisters {s u : State} {w : CmdWord} (h : s.fetch = some (w, u)) : SameFaultRegisters s u := by
  rcases fetch_cases h with ⟨-, rfl⟩ | ⟨-, rest, -, rfl⟩ <;> exact ⟨rfl, rfl, rfl⟩

/-- A transaction leaves the fault registers alone, clears `FAULT` by reset or the opcode of CLR, or enters the faulted
state. -/
theorem step_faultRegisters {s t : State} (h : step s = .next t) :
    SameFaultRegisters s t ∨
    (((∃ rest, s.host = .rst :: rest) ∨ ∃ w u, s.fetch = some (w, u) ∧ cmdOp w = 0x01) ∧ t.fault = false) ∨
    EntersFault s t := by
  rcases step_cases h with ⟨rest, hrst, rfl⟩ | ⟨w, u, hfetch, hrun⟩ | ⟨-, rfl⟩
  · exact .inr (.inl ⟨.inl ⟨rest, hrst⟩, rfl⟩)
  · obtain ⟨hfault, hcause, hfinfo⟩ := fetch_faultRegisters hfetch
    rcases runWord_faultRegisters hrun with ⟨hf, hc, hi⟩ | ⟨hop, hclear⟩ | ⟨hlive, henter⟩
    · exact .inl ⟨hf.trans hfault, hc.trans hcause, hi.trans hfinfo⟩
    · exact .inr (.inl ⟨.inr ⟨w, u, hfetch, hop⟩, hclear⟩)
    · exact .inr (.inr ⟨hfault.symm.trans hlive, henter⟩)
  · exact .inl ⟨rfl, rfl, rfl⟩

/-- Settles O10: each clause picks its case of `step_faultRegisters` by the two values of `FAULT`. -/
theorem onlyClrOrResetLeavesTheFaultedState : Obligations.OnlyClrOrResetLeavesTheFaultedState := by
  intro s t h
  rcases step_faultRegisters h with ⟨hsame, hregs⟩ | ⟨hcause, hclear⟩ | ⟨hlive, hset, hreport⟩
  · exact ⟨fun _ _ => hregs, by simp_all, by simp_all⟩
  · exact ⟨by simp_all, fun _ _ => hcause, by simp_all⟩
  · exact ⟨by simp_all, by simp_all, fun _ _ => hreport⟩

/-! ### The parameters -/

theorem exec_cfg {i : Instr} {s t : State} (h : exec i s = .next t) : t.cfg = s.cfg := by
  cases exec_ends h with
  | refused => rfl
  | raised => rfl
  | cleared => rfl
  | completed heff => exact heff.cfg

theorem runWord_cfg {w : CmdWord} {s t : State} (h : runWord w s = .next t) : t.cfg = s.cfg := by
  unfold runWord at h
  split at h
  · exact exec_cfg h
  · rcases runCommand_cases h with ⟨-, rfl⟩ | ⟨-, rfl⟩ <;> rfl

theorem fetch_cfg {s u : State} {w : CmdWord} (h : s.fetch = some (w, u)) : u.cfg = s.cfg := by
  rcases fetch_cases h with ⟨-, rfl⟩ | ⟨-, rest, -, rfl⟩ <;> rfl

theorem step_cfg {s t : State} (h : step s = .next t) : t.cfg = s.cfg := by
  rcases step_cases h with ⟨rest, -, rfl⟩ | ⟨w, u, hfetch, hrun⟩ | ⟨-, rfl⟩
  · rfl
  · exact (runWord_cfg hrun).trans (fetch_cfg hfetch)
  · rfl

/-- RDSR of a register that is readable in the faulted state answers it in every state and changes nothing (R78,
R178). -/
theorem exec_rdsr_readable {r : IndexWord} {s : State} {v : DataWord}
    (hr : readableWhenFaulted r.toNat = true) (hv : s.readSr r.toNat = some v) :
    ∃ t, exec (.rdsr r) s = .next t ∧ Answers t v ∧ NoStateChange s t :=
  ⟨s.respond v, by simp [exec, execRdsr, hr, hv], answers_respond s v, noStateChange_respond s v⟩

/-- Settles O17: registers 4, 5 and 6 are readable in the faulted state too. -/
theorem parametersNeverChange : Obligations.ParametersNeverChange :=
  ⟨fun _ _ => step_cfg,
    fun _ => ⟨exec_rdsr_readable rfl rfl, exec_rdsr_readable rfl rfl, exec_rdsr_readable rfl rfl⟩⟩

/-! ### `STATUS` -/

/-- RDSR 0 answers the status word in every state (R26). -/
theorem exec_rdsr_status (s : State) : ∃ t, exec (.rdsr 0) s = .next t ∧ Answers t (statusWord s.cause s.fault) := by
  obtain ⟨t, hexec, hanswer, -⟩ := exec_rdsr_readable (r := 0) (s := s) rfl rfl
  exact ⟨t, hexec, hanswer⟩

/-- The value of the status word (R26). -/
theorem statusWord_toNat (c : CauseWord) (f : Bool) : (statusWord c f).toNat = 16 * c.toNat + f.toNat := by
  cases f <;> revert c <;> decide

theorem statusWord_clear : statusWord 0 false = 0 := by decide

theorem statusWord_underflow : statusWord (causeCode .underflow) true = 0x51 := by decide

/-- Settles O22: by the status word of each state. -/
theorem statusIsCauseAndFault : Obligations.StatusIsCauseAndFault := by
  refine ⟨fun s => ?_, fun s hs hf => ?_, fun s t info hentered => ?_⟩
  · obtain ⟨t, hexec, hanswer⟩ := exec_rdsr_status s
    exact ⟨t, _, hexec, hanswer, rfl, statusWord_toNat _ _⟩
  · have hstatus := exec_rdsr_status s
    rwa [hf, (hs.clear_cause hf).1, statusWord_clear] at hstatus
  · obtain ⟨hfault, hcause, -⟩ := hentered
    have hstatus := exec_rdsr_status t
    rwa [hfault, hcause, statusWord_underflow] at hstatus

/-! ### Reset -/

/-- Settles O15: `resetWith_inv`, and the fields of the reset state. -/
theorem resetStateMeetsTheInvariant : Obligations.ResetStateMeetsTheInvariant := by
  refine ⟨fun p hp => ⟨resetWith_inv hp, rfl, rfl, rfl, rfl, fun r hr => ?_, fun _ => rfl⟩,
    resetWith_inv (by decide)⟩
  interval_cases r
  · exact congrArg some statusWord_clear
  all_goals rfl

/-! ### The work stack -/

/-- The nodes on the work stack lie within `l .. h`, and each has at most half the length the one below it may have:
a node with `r` nodes below it has at most `2 ^ (32 - r)`. -/
def HalvingStack (l h : Nat) : List (Nat × Nat) → Prop
  | [] => True
  | (a, b) :: rest =>
    (l ≤ a ∧ a ≤ b ∧ b ≤ h) ∧ rest.length ≤ 32 ∧ b - a ≤ 2 ^ (32 - rest.length) ∧ HalvingStack l h rest

namespace HalvingStack

variable {l h : Nat} {stk : List (Nat × Nat)}

theorem single (hle : l ≤ h) (hlt : h < 2 ^ 32) : HalvingStack l h [(l, h)] :=
  ⟨⟨le_rfl, hle, le_rfl⟩, Nat.zero_le _, by simp only [List.length_nil]; omega, trivial⟩

theorem length_le (hs : HalvingStack l h stk) : stk.length ≤ 33 := by
  cases stk with
  | nil => exact Nat.zero_le _
  | cons n rest =>
    obtain ⟨-, hlen, -⟩ := hs
    exact Nat.succ_le_succ hlen

theorem within (hs : HalvingStack l h stk) : ∀ p ∈ stk, l ≤ p.1 ∧ p.1 ≤ p.2 ∧ p.2 ≤ h := by
  induction stk with
  | nil => simp
  | cons n rest ih =>
    obtain ⟨hn, -, -, hrest⟩ := hs
    exact List.forall_mem_cons.2 ⟨hn, ih hrest⟩

theorem pop {n : Nat × Nat} (hs : HalvingStack l h (n :: stk)) : HalvingStack l h stk := by
  obtain ⟨-, -, -, hrest⟩ := hs
  exact hrest

/-- A node with an interior is longer than 1, so it is not the 33rd, and its two children have half its length
(R121). -/
theorem split {a b : Nat} (hs : HalvingStack l h ((a, b) :: stk)) (hlt : 1 < b - a) :
    HalvingStack l h ((a, mid a b) :: (mid a b, b) :: stk) := by
  obtain ⟨⟨hla, hab, hbh⟩, hlen, hlong, hrest⟩ := hs
  have hroom : stk.length < 32 := by
    refine lt_of_le_of_ne hlen fun hfull => ?_
    rw [hfull, Nat.sub_self, pow_zero] at hlong
    omega
  have hhalf : 2 ^ (32 - stk.length) = 2 * 2 ^ (32 - (stk.length + 1)) := by
    rw [← pow_succ', show 32 - (stk.length + 1) + 1 = 32 - stk.length by omega]
  obtain ⟨ham, hmb⟩ := mid_bounds hlt
  have hmid : mid a b = a + (b - a) / 2 := rfl
  refine ⟨⟨hla, ham.le, by omega⟩, by simpa using hroom, ?_, ⟨by omega, hmb.le, hbh⟩, hlen, by omega, hrest⟩
  simp only [List.length_cons]
  omega

end HalvingStack

/-- The traversal keeps the stack halving, however many nodes it has visited: a visit leaves the work stack alone and
gives children only to a node with an interior. -/
theorem SoundVisit.halvingStack_coderLoop {visit : Visit} (hv : SoundVisit visit) {l h k : Nat} {s t : State}
    (hs : HalvingStack l h s.stk) (he : coderLoop visit k s = .ok t) : HalvingStack l h t.stk := by
  induction k generalizing s with
  | zero => cases he; exact hs
  | succ k ih =>
    unfold coderLoop at he
    split at he
    · cases he; exact hs
    · rename_i a b rest hcons
      rw [hcons] at hs
      split at he
      · cases he
      · rename_i u hu
        obtain ⟨-, hstk⟩ := hv.frame hu
        exact ih (by rw [hstk]; exact hs.pop) he
      · rename_i u hu
        obtain ⟨-, hstk⟩ := hv.frame hu
        exact ih (by simpa only [hstk] using hs.split (hv.interior hu)) he

/-- Settles O40: the stack starts halving with the root alone, and both traversals keep it so (R34). -/
theorem workStackHoldsAtMost33 : Obligations.WorkStackHoldsAtMost33 := by
  intro s t l h k hle hlt hrun
  have hstk : HalvingStack l h t.stk := by
    rcases hrun with henc | hdec
    · exact encNode_sound.halvingStack_coderLoop (.single hle hlt) henc
    · exact decNode_sound.halvingStack_coderLoop (.single hle hlt) hdec
  exact ⟨hstk.length_le, hstk.within⟩

end Sys2Proof.Machine

/-!
O31: the bit buffer is one bit string. Two rules about what is unread carry it: BWRITE puts its field behind the unread
bits, and BREAD of a field that stands at their front answers its value and takes it off. The rest is `tobits_append`:
the fields of two parts make the field of the joined value.
-/

namespace Sys2Proof.Machine

/-! ### The unread bits -/

/-- With `RP` not beyond `WP`, appended bits stand behind the unread ones (R31, R66). -/
theorem unread_append {s : State} (h : s.rp ≤ s.wp) (bs : List Bool) :
    State.unread { s with bits := s.bits ++ bs } = s.unread ++ bs :=
  List.drop_append_of_le_length h

/-- Moving `RP` forward takes bits from the front of the unread ones (R31, R66). -/
theorem unread_advance (s : State) (w : Nat) : State.unread { s with rp := s.rp + w } = s.unread.drop w :=
  List.drop_drop.symm

theorem length_unread (s : State) : s.unread.length = s.wp - s.rp := List.length_drop

/-- A block out of the faulted state whose unread bits are `q`, with cells of `vw` bits and room for `room` more bits in
its buffer: all that BWRITE and BREAD depend on. -/
structure UnreadIs (s : State) (vw room : Nat) (q : List Bool) : Prop where
  live : s.fault = false
  width : s.cfg.vw = vw
  rp_le : s.rp ≤ s.wp
  fits : s.wp + room ≤ s.cfg.bcap
  unread : s.unread = q

/-- Nothing is unread when `RP` has reached `WP`. -/
theorem UnreadIs.of_rp_eq_wp {s : State} {room : Nat} (hf : s.fault = false) (hrp : s.rp = s.wp)
    (hroom : s.wp + room ≤ s.cfg.bcap) : UnreadIs s s.cfg.vw room [] where
  live := hf
  width := rfl
  rp_le := hrp.le
  fits := hroom
  unread := List.drop_eq_nil_of_le hrp.ge

/-! ### The two commands -/

section Commands

variable {s : State} {vw room : Nat} {q : List Bool} {w : IndexWord} {v : DataWord}

/-- A BWRITE that passes its checks puts its field behind the unread bits (R101). -/
theorem UnreadIs.bwrite (h : UnreadIs s vw (w.toNat + room) q) (hw : w.toNat ≤ vw) (hv : v.toNat < 2 ^ w.toNat) :
    ∃ t, exec (.bwrite w v) s = .next t ∧ UnreadIs t vw room (q ++ tobits w.toNat v.toNat) := by
  obtain ⟨hf, rfl, hrp, hfits, rfl⟩ := h
  have hwp : State.wp { s with bits := s.bits ++ tobits w.toNat v.toNat } = s.wp + w.toNat := by simp [State.wp]
  refine ⟨State.respond { s with bits := s.bits ++ tobits w.toNat v.toNat } 0, ?_, hf, rfl, ?_, ?_,
    unread_append hrp _⟩
  · rw [exec, execBwrite, runCommand_live _ hf, if_neg (by omega), if_neg (by omega),
      (putField_ok_iff ..).2 ⟨by omega, rfl⟩]
  · rw [respond_wp, hwp]
    exact hrp.trans (Nat.le_add_right _ _)
  · rw [respond_wp, hwp, Nat.add_assoc]
    exact hfits

/-- A BREAD of the field at the front of the unread bits answers the value it was made of and takes it off (R104). -/
theorem UnreadIs.bread (h : UnreadIs s vw room (tobits w.toNat v.toNat ++ q)) (hw : w.toNat ≤ vw)
    (hv : v.toNat < 2 ^ w.toNat) :
    ∃ t, exec (.bread w) s = .next t ∧ Answers t v ∧ UnreadIs t vw room q := by
  obtain ⟨hf, rfl, hrp, hfits, hunread⟩ := h
  have hwp : s.rp + w.toNat ≤ s.wp := by
    have hlen := length_unread s
    rw [hunread, List.length_append, length_tobits] at hlen
    omega
  have hval : zextNat (frombits (s.unread.take w.toNat)) = v := by
    rw [hunread, List.take_left' (length_tobits ..), frombits_tobits hv, zextNat, BitVec.ofNat_toNat,
      BitVec.setWidth_eq]
  refine ⟨State.respond { s with rp := s.rp + w.toNat } v, ?_, answers_respond _ _, hf, rfl, hwp, hfits, ?_⟩
  · rw [exec, execBread, runCommand_live _ hf, if_neg (by omega), (getField_ok_iff ..).2 ⟨hwp, rfl, rfl⟩]
    simp only [hval]
  · rw [respond_unread, unread_advance, hunread, List.drop_left' (length_tobits ..)]

end Commands

/-! ### One bit string -/

/-- The join of two values that fit their widths fits the joint width (R52). -/
theorem join_lt {w1 w2 v1 v2 : Nat} (h1 : v1 < 2 ^ w1) (h2 : v2 < 2 ^ w2) : v1 * 2 ^ w2 + v2 < 2 ^ (w1 + w2) := by
  have hjoin := frombits_lt (tobits w1 v1 ++ tobits w2 v2)
  rwa [frombits_append, frombits_tobits h1, frombits_tobits h2, List.length_append, length_tobits,
    length_tobits] at hjoin

/-- Settles O31: written either way the unread bits are the same, by `tobits_append`, so either way of reading finds its
fields at their front. -/
theorem mixedWidthAccessSeesOneBitString : Obligations.MixedWidthAccessSeesOneBitString := by
  intro s w1 w2 w v1 v2 v hf hempty hw hvw _ hcap hv1 hv2 hv
  have hbits : tobits w.toNat v.toNat = tobits w1.toNat v1.toNat ++ tobits w2.toNat v2.toNat := by
    rw [hw, hv, tobits_append _ _ _ _ hv2]
  have hfit : v.toNat < 2 ^ w.toNat := by
    rw [hw, hv]
    exact join_lt hv1 hv2
  have hw1 : w1.toNat ≤ s.cfg.vw := by omega
  have hw2 : w2.toNat ≤ s.cfg.vw := by omega
  have hs : UnreadIs s s.cfg.vw w.toNat [] := .of_rp_eq_wp hf hempty hcap
  constructor
  · rw [hw] at hs
    obtain ⟨t1, hexec1, ht1⟩ := hs.bwrite hw1 hv1
    obtain ⟨t2, hexec2, ht2⟩ := UnreadIs.bwrite (room := 0) ht1 hw2 hv2
    rw [List.nil_append, ← hbits, ← List.append_nil (tobits _ _)] at ht2
    obtain ⟨t3, hexec3, hanswer, -⟩ := ht2.bread hvw hfit
    exact ⟨t1, t2, t3, hexec1, hexec2, hexec3, hanswer⟩
  · obtain ⟨t1, hexec1, ht1⟩ := UnreadIs.bwrite (room := 0) hs hvw hfit
    rw [List.nil_append, hbits] at ht1
    obtain ⟨t2, hexec2, hanswer1, ht2⟩ := ht1.bread hw1 hv1
    rw [← List.append_nil (tobits _ _)] at ht2
    obtain ⟨t3, hexec3, hanswer2, -⟩ := ht2.bread hw2 hv2
    exact ⟨t1, t2, t3, hexec1, hexec2, hanswer1, hexec3, hanswer2⟩

end Sys2Proof.Machine

/-!
O60: BUILD and INVERT of at least two cells write every one of them, cell 0 too, so what they leave survives an
acceptance, where the free values move on. Each command is tied to its function of R150 once (`buildLoop_holds`,
`invertLoop_holds`); BUILD completes when its sums fit, INVERT when its cells do not descend; and the two functions undo
each other (R151).
-/

namespace Sys2Proof.Machine

/-! ### The laws of R151 -/

/-- A first difference depends on no cell above its own. -/
theorem firstDiff_congr {f g : Nat → Nat} {i : Nat} (h : ∀ j ≤ i, f j = g j) : firstDiff f i = firstDiff g i := by
  unfold firstDiff
  rw [h 0 (Nat.zero_le i), h i le_rfl, h (i - 1) (Nat.sub_le i 1)]

/-- A running sum depends on no cell above its own. -/
theorem prefixSum_congr {f g : Nat → Nat} {i : Nat} (h : ∀ j ≤ i, f j = g j) : prefixSum f i = prefixSum g i := by
  induction i with
  | zero => exact h 0 le_rfl
  | succ i ih => rw [prefixSum, prefixSum, ih fun j hj => h j (by omega), h (i + 1) le_rfl]

theorem firstDiff_prefixSum (f : Nat → Nat) (i : Nat) : firstDiff (prefixSum f) i = f i := by
  cases i with
  | zero => rfl
  | succ i => exact Nat.add_sub_cancel_left _ _

theorem nondecreasing_prefixSum (f : Nat → Nat) (l h : Nat) : Nondecreasing (prefixSum f) l h := by
  intro i hl _
  obtain ⟨k, rfl⟩ : ∃ k, i = k + 1 := ⟨i - 1, by omega⟩
  exact Nat.le_add_right _ _

/-- The differences of a sequence that does not descend are exact, so their sums give it back. -/
theorem prefixSum_firstDiff {c : Nat → Nat} {i : Nat} (h : Nondecreasing c 0 i) : prefixSum (firstDiff c) i = c i := by
  induction i with
  | zero => rfl
  | succ i ih =>
    rw [prefixSum, ih (h.mono le_rfl (Nat.le_succ i))]
    exact Nat.add_sub_cancel' (h (i + 1) (Nat.succ_pos i) le_rfl)

/-! ### Written cells -/

/-- The cells below `n` are written, and hold the values of `f`. -/
def HoldsBelow (n : Nat) (f : Nat → Nat) (s : State) : Prop := ∀ j, j < n → Memory.read s.seq j = some (f j)

namespace HoldsBelow

variable {n : Nat} {f g : Nat → Nat} {s : State}

theorem cellAt (h : HoldsBelow n f s) {j : Nat} (hj : j < n) : s.cellAt j = f j := cellAt_of_read (h j hj)

/-- A written cell keeps its value across an acceptance, where the free values move on. -/
theorem accept (h : HoldsBelow n f s) (w : CmdWord) (rest : List HostInput) : HoldsBelow n f (s.accept w rest) := h

theorem respond (h : HoldsBelow n f s) (res : DataWord) : HoldsBelow n f (s.respond res) := h

theorem congr (h : HoldsBelow n f s) (hfg : ∀ j < n, f j = g j) : HoldsBelow n g s :=
  fun j hj => hfg j hj ▸ h j hj

end HoldsBelow

/-! ### What BUILD leaves, and when it completes -/

/-- BUILD's pass after cell 0 is written leaves the running sums in all of the cells (R55, R152). -/
theorem buildLoop_holds {n : Nat} {s t : State} (hn : 2 ≤ n)
    (h : buildLoop (n - 1) 0 (writeFirstCell n s) = .ok t) : HoldsBelow n (prefixSum s.cellAt) t := by
  intro j hj
  induction j with
  | zero => exact (sameCell_buildLoop h (.inl le_rfl)).1.trans (read_writeFirstCell s hn)
  | succ j ih =>
    have hpass := read_buildLoop h (j := j + 1) (by omega) (by omega)
    rwa [Nat.add_sub_cancel, cellAt_of_read (ih (by omega)), writeFirstCell_cellAt] at hpass

/-- BUILD's pass after cell `i` completes if cell `i` holds the running sum of some `f`, the cells after it hold `f`, and
the running sums fit (R152). -/
theorem buildLoop_completes {f : Nat → Nat} {k i : Nat} {s : State} (hi : s.cellAt i = prefixSum f i)
    (hcells : ∀ j, i < j → j ≤ i + k → s.cellAt j = f j)
    (hfit : ∀ j, i < j → j ≤ i + k → prefixSum f j < 2 ^ s.cfg.vw) : ∃ t, buildLoop k i s = .ok t := by
  induction k generalizing i s with
  | zero => exact ⟨s, rfl⟩
  | succ k ih =>
    have hsum : s.cellAt i + s.cellAt (i + 1) = prefixSum f (i + 1) := by
      rw [hi, hcells (i + 1) (by omega) (by omega), prefixSum]
    rcases buildLoop_succ k i s with ⟨hrange, -⟩ | ⟨-, e⟩
    · have := hfit (i + 1) (by omega) (by omega)
      omega
    · rw [e, hsum]
      refine ih (cellAt_setCell_same _ _ _) (fun j h1 h2 => ?_) (fun j h1 h2 => hfit j (by omega) (by omega))
      rw [cellAt_setCell_other _ _ (by omega), hcells j (by omega) (by omega)]

/-- A BUILD that does not fault has passed its checks and holds the running sums in all of its cells. -/
theorem exec_build_holds {n : IndexWord} {s t : State} (hf : s.fault = false) (hn : 2 ≤ n.toNat)
    (h : exec (.build n) s = .next t) (ht : t.fault = false) :
    n.toNat ≤ s.cfg.nmax ∧ HoldsBelow n.toNat (prefixSum s.cellAt) t := by
  rw [exec, execBuild, runCommand_live _ hf] at h
  split at h
  · cases h; simp at ht
  · split at h <;> cases h
    · rename_i hmax _ u hu
      exact ⟨Nat.not_lt.1 hmax, (buildLoop_holds hn hu).respond 0⟩
    · simp at ht

/-- A BUILD whose running sums fit completes (R152). -/
theorem exec_build_completes {n : IndexWord} {s : State} (hf : s.fault = false) (hmax : n.toNat ≤ s.cfg.nmax)
    (hfit : ∀ j, j < n.toNat → prefixSum s.cellAt j < 2 ^ s.cfg.vw) :
    ∃ u, exec (.build n) s = .next u ∧ u.fault = false := by
  obtain ⟨u, hu⟩ : ∃ u, buildLoop (n.toNat - 1) 0 (writeFirstCell n.toNat s) = .ok u := by
    refine buildLoop_completes (f := s.cellAt) (writeFirstCell_cellAt ..) (fun j _ _ => writeFirstCell_cellAt ..) ?_
    intro j h1 h2
    rw [writeFirstCell_cfg]
    exact hfit j (by omega)
  refine ⟨_, exec_build_ok hf hmax hu, ?_⟩
  rw [respond_fault, buildLoop_frame hu, writeFirstCell_frame]
  exact hf

/-! ### What INVERT leaves, and when it completes -/

/-- INVERT's pass after cell 0 is written leaves the first differences in all of the cells (R55, R155). -/
theorem invertLoop_holds {n : Nat} (s : State) (hn : 2 ≤ n) :
    HoldsBelow n (firstDiff s.cellAt) (invertLoop (n - 1) (writeFirstCell n s)) := by
  intro j hj
  cases j with
  | zero => exact (sameCell_invertLoop _ _ (.inl rfl)).1.trans (read_writeFirstCell s hn)
  | succ j =>
    have hpass := cellAt_invertLoop (n - 1) (writeFirstCell n s) (i := j + 1) (by omega) (by omega)
    rwa [writeFirstCell_cellAt, writeFirstCell_cellAt] at hpass

/-- An INVERT that does not fault has passed its checks and holds the first differences in all of its cells. -/
theorem exec_invert_holds {n : IndexWord} {s t : State} (hf : s.fault = false) (hn : 2 ≤ n.toNat)
    (h : exec (.invert n) s = .next t) (ht : t.fault = false) :
    n.toNat ≤ s.cfg.nmax ∧ Nondecreasing s.cellAt 0 (n.toNat - 1) ∧ HoldsBelow n.toNat (firstDiff s.cellAt) t := by
  rw [exec, execInvert, runCommand_live _ hf] at h
  split at h
  · cases h; simp at ht
  · split at h <;> cases h
    · simp at ht
    · rename_i hmax _ hnone
      rw [firstDescent_eq_none_iff, Nat.zero_add] at hnone
      exact ⟨Nat.not_lt.1 hmax, hnone, (invertLoop_holds s hn).respond 0⟩

/-- An INVERT of cells that do not descend completes (R155). -/
theorem exec_invert_completes {n : IndexWord} {s : State} (hf : s.fault = false) (hmax : n.toNat ≤ s.cfg.nmax)
    (hmono : Nondecreasing s.cellAt 0 (n.toNat - 1)) :
    ∃ u, exec (.invert n) s = .next u ∧ u.fault = false := by
  refine ⟨_, exec_invert_ok hf hmax hmono, ?_⟩
  rw [respond_fault, invertLoop_frame, writeFirstCell_frame]
  exact hf

/-! ### One after the other -/

section Restore

variable {n : IndexWord} {s t : State} {c : Nat → Nat} (hf : t.fault = false) (hn : 2 ≤ n.toNat)
  (hmax : n.toNat ≤ t.cfg.nmax)
include hf hn hmax

/-- INVERT of cells that hold the running sums of `c` completes and leaves `c` (R151). -/
theorem exec_invert_restores (ht : HoldsBelow n.toNat (prefixSum c) t) :
    ∃ u, exec (.invert n) t = .next u ∧ u.fault = false ∧ HoldsBelow n.toNat c u := by
  have hmono : Nondecreasing t.cellAt 0 (n.toNat - 1) := by
    intro i h1 h2
    rw [ht.cellAt (by omega), ht.cellAt (by omega)]
    exact nondecreasing_prefixSum c 0 i i h1 le_rfl
  obtain ⟨u, hexec, hu⟩ := exec_invert_completes hf hmax hmono
  obtain ⟨-, -, hholds⟩ := exec_invert_holds hf hn hexec hu
  refine ⟨u, hexec, hu, hholds.congr fun j hj => ?_⟩
  rw [firstDiff_congr fun i hi => ht.cellAt (by omega), firstDiff_prefixSum]

/-- BUILD of cells that hold the first differences of `c` completes and leaves `c`, if `c` does not descend and its
values fit (R151). -/
theorem exec_build_restores (ht : HoldsBelow n.toNat (firstDiff c) t) (hmono : Nondecreasing c 0 (n.toNat - 1))
    (hfit : ∀ j, c j < 2 ^ t.cfg.vw) :
    ∃ u, exec (.build n) t = .next u ∧ u.fault = false ∧ HoldsBelow n.toNat c u := by
  have hsum (j : Nat) (hj : j < n.toNat) : prefixSum t.cellAt j = c j := by
    rw [prefixSum_congr fun i hi => ht.cellAt (by omega), prefixSum_firstDiff (hmono.mono le_rfl (by omega))]
  obtain ⟨u, hexec, hu⟩ := exec_build_completes hf hmax fun j hj => by rw [hsum j hj]; exact hfit j
  obtain ⟨-, hholds⟩ := exec_build_holds hf hn hexec hu
  exact ⟨u, hexec, hu, hholds.congr hsum⟩

end Restore

/-- Settles O60: what the first command leaves is written, so the second one finds it after the acceptance. -/
theorem buildAndInvertWriteTheirCells : Obligations.BuildAndInvertWriteTheirCells := by
  intro n s t w rest hs hf hn
  refine ⟨fun hexec ht => ?_, fun hexec ht => ?_⟩
  · obtain ⟨hmax, hholds⟩ := exec_build_holds hf hn hexec ht
    rw [← exec_cfg hexec] at hmax
    exact ⟨hholds, exec_invert_restores ht hn hmax (hholds.accept w rest)⟩
  · obtain ⟨hmax, hmono, hholds⟩ := exec_invert_holds hf hn hexec ht
    have hfit : ∀ j, s.cellAt j < 2 ^ t.cfg.vw := by rw [exec_cfg hexec]; exact hs.cellAt_lt
    rw [← exec_cfg hexec] at hmax
    exact ⟨hholds, exec_build_restores ht hn hmax (hholds.accept w rest) hmono hfit⟩

end Sys2Proof.Machine

/-!
The command word (R70 to R73, R79). One lemma says what the encoder writes (`encodesFields`, of the family of
Laws/PerInstr), three read the field table: row by row, on the defined opcodes, and on the others.
-/

namespace Sys2Proof.Machine

/-! ### The encoder -/

/-- The word of every command is its opcode and two operand fields, which decode to it (R72). -/
theorem encodesFields (i : Instr) : Laws.EncodesFields.Statement i := by
  cases i with
  | nop => exact Laws.EncodesFields.nop
  | clr => exact Laws.EncodesFields.clr
  | rdsr r => exact Laws.EncodesFields.rdsr r
  | sts c v => exact Laws.EncodesFields.sts c v
  | lds c => exact Laws.EncodesFields.lds c
  | bwrite w v => exact Laws.EncodesFields.bwrite w v
  | bread w => exact Laws.EncodesFields.bread w
  | bpack => exact Laws.EncodesFields.bpack
  | enc l h => exact Laws.EncodesFields.enc l h
  | dec l h => exact Laws.EncodesFields.dec l h
  | build n => exact Laws.EncodesFields.build n
  | invert n => exact Laws.EncodesFields.invert n
  | map e => exact Laws.EncodesFields.map e
  | unmap n => exact Laws.EncodesFields.unmap n
  | ste c e => exact Laws.EncodesFields.ste c e
  | lde c => exact Laws.EncodesFields.lde c

/-- R73: what stands in the unused fields does not reach the decoder. -/
theorem decode_encodeWith (i : Instr) (ua : IndexWord) (ub : DataWord) : decode (encodeWith i ua ub) = .ok i := by
  obtain ⟨a, b, hword, hfields⟩ := encodesFields i ua ub
  rw [hword, decode_cmdWord, hfields]

theorem cmdOp_encodeWith (i : Instr) (ua : IndexWord) (ub : DataWord) : cmdOp (encodeWith i ua ub) = i.opcode := by
  obtain ⟨a, b, hword, -⟩ := encodesFields i ua ub
  rw [hword, cmdOp_cmdWord]

/-- Settles O1: by the fields of the word each command is encoded as. -/
theorem decodeInvertsEncode : Obligations.DecodeInvertsEncode :=
  fun i ua ub => ⟨decode_encodeWith i ua ub, cmdOp_encodeWith i ua ub⟩

/-! ### The field table -/

/-- One row of the field table (R72): if the row's command has the row's word, and the later rows have theirs, then so
does what the table answers. -/
theorem encodeWith_of_table_row {op k : Opcode} {a : IndexWord} {b : DataWord} {i j : Instr}
    {later : Except DecodeReject Instr} (hj : encodeWith j a b = cmdWord k a b)
    (hlater : later = .ok i → encodeWith i a b = cmdWord op a b) :
    (if op = k then .ok j else later) = .ok i → encodeWith i a b = cmdWord op a b := by
  intro h
  split at h
  · cases h
    rw [hj, ‹op = k›]
  · exact hlater h

/-- The fields the table reads a command from are those its word is made of. -/
theorem encodeWith_of_decodeFields {op : Opcode} {a : IndexWord} {b : DataWord} {i : Instr}
    (h : decodeFields op a b = .ok i) : encodeWith i a b = cmdWord op a b := by
  unfold decodeFields at h
  revert h
  iterate 16 refine encodeWith_of_table_row rfl ?_
  exact nofun

/-- Settles O2: by the rows of the field table; the three fields are the whole word. -/
theorem encodeInvertsDecode : Obligations.EncodeInvertsDecode :=
  fun w _ h => (encodeWith_of_decodeFields h).trans (cmdWord_fields w)

/-! ### The opcodes -/

/-- Each of the sixteen opcodes has its row (R72). -/
theorem decodeFields_defined {op : Opcode} (hop : op ∈ definedOpcodes) (a : IndexWord) (b : DataWord) :
    ∃ i, decodeFields op a b = .ok i ∧ i.opcode = op := by
  revert op
  simp only [definedOpcodes, List.forall_mem_cons]
  iterate 16 refine ⟨⟨_, rfl, rfl⟩, ?_⟩
  exact List.forall_mem_nil _

/-- No other opcode has a row (R79). -/
theorem decodeFields_undefined {op : Opcode} (hop : op ∉ definedOpcodes) (a : IndexWord) (b : DataWord) :
    decodeFields op a b = .error (.illegalOpcode op) := by
  simp only [definedOpcodes, List.mem_cons, List.not_mem_nil, or_false, not_or] at hop
  simp only [decodeFields, hop, if_false]

theorem decode_defined {w : CmdWord} (hop : cmdOp w ∈ definedOpcodes) :
    ∃ i, decode w = .ok i ∧ i.opcode = cmdOp w := decodeFields_defined hop _ _

theorem decode_undefined {w : CmdWord} (hop : cmdOp w ∉ definedOpcodes) :
    decode w = .error (.illegalOpcode (cmdOp w)) := decodeFields_undefined hop _ _

/-- Settles O3: the list is looked through, and each opcode has its row or none. -/
theorem decoderRejectsExactlyUndefinedOpcodes : Obligations.DecoderRejectsExactlyUndefinedOpcodes :=
  ⟨by decide, fun _ => ⟨decode_defined, decode_undefined⟩⟩

/-- Settles O4: seven closed words, decoded. -/
theorem specWordsDecode : Obligations.SpecWordsDecode := by
  unfold Obligations.SpecWordsDecode
  decide

end Sys2Proof.Machine

/-!
No command looks at the command in flight or at what the host still presents: with other ports a command does the same
and leaves them idle and untouched (`exec_withPorts`). So a response ends the command in flight and keeps the host's
inputs (`exec_ports`), and the unused fields of the accepted word, which only the command in flight still holds, have no
effect (R73).
-/

namespace Sys2Proof.Machine

/-! ### The ports -/

/-- The state with another command in flight and other pending inputs. -/
def State.withPorts (s : State) (x : Option CmdWord) (hs : List HostInput) : State :=
  { s with inFlight := x, host := hs }

section Ports

variable {s t : State} {x : Option CmdWord} {hs : List HostInput}

@[simp] theorem withPorts_stk : (s.withPorts x hs).stk = s.stk := rfl

@[simp] theorem withPorts_wp : (s.withPorts x hs).wp = s.wp := rfl

@[simp] theorem withPorts_cellAt : (s.withPorts x hs).cellAt = s.cellAt := rfl

theorem putField_withPorts (w v : Nat) :
    (s.withPorts x hs).putField w v = (s.putField w v).map (·.withPorts x hs) := by
  rw [State.putField, State.putField, apply_ite (Except.map _)]
  rfl

theorem getField_withPorts (w : Nat) :
    (s.withPorts x hs).getField w = (s.getField w).map (Prod.map (·.withPorts x hs) id) := by
  rw [State.getField, State.getField, apply_ite (Except.map _)]
  rfl

/-! ### The passes over the store -/

theorem fillCells_withPorts (k i v : Nat) (s : State) :
    fillCells k i v (s.withPorts x hs) = (fillCells k i v s).withPorts x hs := by
  induction k generalizing i s with
  | zero => rfl
  | succ k ih => exact ih (i + 1) (s.setCell i v)

theorem writeFirstCell_withPorts (n : Nat) (s : State) :
    writeFirstCell n (s.withPorts x hs) = (writeFirstCell n s).withPorts x hs := by
  rw [writeFirstCell, writeFirstCell, apply_ite (State.withPorts · x hs)]
  rfl

theorem buildLoop_withPorts (k i : Nat) (s : State) :
    buildLoop k i (s.withPorts x hs) = (buildLoop k i s).map (·.withPorts x hs) := by
  induction k generalizing i s with
  | zero => rfl
  | succ k ih =>
    rw [buildLoop, buildLoop, apply_ite (Except.map _)]
    exact if_congr Iff.rfl rfl (ih (i + 1) (s.setCell (i + 1) _))

theorem invertLoop_withPorts (k : Nat) (s : State) :
    invertLoop k (s.withPorts x hs) = (invertLoop k s).withPorts x hs := by
  induction k generalizing s with
  | zero => rfl
  | succ k ih => exact ih (s.setCell (k + 1) _)

/-! ### The traversals -/

/-- A visit that does not look at the ports and leaves them alone. -/
def PortBlind (visit : Visit) : Prop :=
  ∀ l h s x hs, visit l h (s.withPorts x hs) = (visit l h s).map (Prod.map (·.withPorts x hs) id)

theorem encNode_portBlind : PortBlind encNode := by
  intro l h s x hs
  simp only [encNode, withPorts_cellAt, putField_withPorts]
  split
  · rfl
  · split
    · rfl
    · cases s.putField _ _ <;> rfl

theorem decNode_portBlind : PortBlind decNode := by
  intro l h s x hs
  simp only [decNode, withPorts_cellAt, getField_withPorts, fillCells_withPorts]
  split
  · rfl
  · split
    · rfl
    · cases s.getField _ with
      | error e => rfl
      | ok r =>
        refine Eq.trans ?_ (apply_ite (Except.map _) (_ < r.2) _ _).symm
        rfl

theorem coderLoop_withPorts {visit : Visit} (hv : PortBlind visit) (k : Nat) (s : State) :
    coderLoop visit k (s.withPorts x hs) = (coderLoop visit k s).map (·.withPorts x hs) := by
  induction k generalizing s with
  | zero => rfl
  | succ k ih =>
    simp only [coderLoop, withPorts_stk]
    cases s.stk with
    | nil => rfl
    | cons n rest =>
      have hpop : visit n.1 n.2 { s.withPorts x hs with stk := rest } =
          (visit n.1 n.2 { s with stk := rest }).map (Prod.map (·.withPorts x hs) id) :=
        hv n.1 n.2 { s with stk := rest } x hs
      simp only [hpop]
      cases visit n.1 n.2 { s with stk := rest } with
      | error e => rfl
      | ok r =>
        obtain ⟨t, b⟩ := r
        cases b with
        | false => exact ih t
        | true => exact ih { t with stk := _ }

/-! ### The commands -/

/-- The dispatch of R78 does not look at the ports, if the command does not. -/
theorem runCommand_withPorts {f : State → State} (hf : f (s.withPorts x hs) = (f s).withPorts none hs)
    (h : runCommand f s = .next t) : runCommand f (s.withPorts x hs) = .next (t.withPorts none hs) := by
  rcases runCommand_cases h with ⟨hfault, rfl⟩ | ⟨hlive, rfl⟩
  · exact runCommand_faulted f hfault
  · exact (runCommand_live (s := s.withPorts x hs) f hlive).trans (congrArg Host.Outcome.next hf)

/-- Nor does a check of R213, if the rest of the command does not. -/
theorem check_withPorts {u u' : State} {p : Prop} [Decidable p] {c : Cause} {info : DataWord}
    (hu : u' = u.withPorts none hs) :
    (if p then (s.withPorts x hs).raise c info else u') = (if p then s.raise c info else u).withPorts none hs := by
  split
  · rfl
  · exact hu

theorem execRdsr_withPorts {r : IndexWord} (h : execRdsr r s = .next t) :
    execRdsr r (s.withPorts x hs) = .next (t.withPorts none hs) := by
  cases h
  have hsr : (s.withPorts x hs).readSr r.toNat = s.readSr r.toNat := rfl
  rw [execRdsr, hsr, apply_ite (State.withPorts · none hs)]
  cases s.readSr r.toNat <;> rfl

theorem execSts_withPorts {i : IndexWord} {v : DataWord} (h : execSts i v s = .next t) :
    execSts i v (s.withPorts x hs) = .next (t.withPorts none hs) :=
  runCommand_withPorts (check_withPorts (check_withPorts rfl)) h

theorem execLds_withPorts {i : IndexWord} (h : execLds i s = .next t) :
    execLds i (s.withPorts x hs) = .next (t.withPorts none hs) :=
  runCommand_withPorts (check_withPorts rfl) h

theorem execBwrite_withPorts {w : IndexWord} {v : DataWord} (h : execBwrite w v s = .next t) :
    execBwrite w v (s.withPorts x hs) = .next (t.withPorts none hs) := by
  refine runCommand_withPorts (check_withPorts (check_withPorts ?_)) h
  rw [putField_withPorts]
  cases s.putField _ _ <;> rfl

theorem execBread_withPorts {w : IndexWord} (h : execBread w s = .next t) :
    execBread w (s.withPorts x hs) = .next (t.withPorts none hs) := by
  refine runCommand_withPorts (check_withPorts ?_) h
  rw [getField_withPorts]
  cases s.getField _ <;> rfl

theorem execBpack_withPorts (h : execBpack s = .next t) :
    execBpack (s.withPorts x hs) = .next (t.withPorts none hs) := by
  refine runCommand_withPorts ?_ h
  rw [putField_withPorts, withPorts_wp]
  cases s.putField _ _ <;> rfl

/-- The range a traversal starts from does not look at the ports. -/
theorem range_withPorts {visit : Visit} (hv : PortBlind visit) (k l h : Nat) :
    coderLoop visit k { s.withPorts x hs with stk := [(l, h)] } =
      (coderLoop visit k { s with stk := [(l, h)] }).map (·.withPorts x hs) :=
  coderLoop_withPorts hv k { s with stk := [(l, h)] }

theorem execEnc_withPorts {l : IndexWord} {h : DataWord} (he : execEnc l h s = .next t) :
    execEnc l h (s.withPorts x hs) = .next (t.withPorts none hs) := by
  refine runCommand_withPorts (check_withPorts ?_) he
  rw [withPorts_cellAt, encLoop, range_withPorts encNode_portBlind]
  cases firstDescent s.cellAt _ _ with
  | some i => rfl
  | none => cases coderLoop encNode _ _ <;> rfl

theorem execDec_withPorts {l : IndexWord} {h : DataWord} (he : execDec l h s = .next t) :
    execDec l h (s.withPorts x hs) = .next (t.withPorts none hs) := by
  refine runCommand_withPorts (check_withPorts (check_withPorts ?_)) he
  rw [decLoop, range_withPorts decNode_portBlind]
  cases coderLoop decNode _ _ <;> rfl

theorem execBuild_withPorts {n : IndexWord} (h : execBuild n s = .next t) :
    execBuild n (s.withPorts x hs) = .next (t.withPorts none hs) := by
  refine runCommand_withPorts (check_withPorts ?_) h
  rw [writeFirstCell_withPorts, buildLoop_withPorts]
  cases buildLoop _ _ _ <;> rfl

theorem execInvert_withPorts {n : IndexWord} (h : execInvert n s = .next t) :
    execInvert n (s.withPorts x hs) = .next (t.withPorts none hs) := by
  refine runCommand_withPorts (check_withPorts ?_) h
  rw [withPorts_cellAt, writeFirstCell_withPorts, invertLoop_withPorts]
  cases firstDescent s.cellAt _ _ <;> rfl

theorem execMap_withPorts {e : DataWord} (h : execMap e s = .next t) :
    execMap e (s.withPorts x hs) = .next (t.withPorts none hs) := runCommand_withPorts rfl h

theorem execUnmap_withPorts {n : DataWord} (h : execUnmap n s = .next t) :
    execUnmap n (s.withPorts x hs) = .next (t.withPorts none hs) := runCommand_withPorts rfl h

theorem execSte_withPorts {i : IndexWord} {e : DataWord} (h : execSte i e s = .next t) :
    execSte i e (s.withPorts x hs) = .next (t.withPorts none hs) :=
  runCommand_withPorts (check_withPorts (check_withPorts rfl)) h

theorem execLde_withPorts {i : IndexWord} (h : execLde i s = .next t) :
    execLde i (s.withPorts x hs) = .next (t.withPorts none hs) :=
  runCommand_withPorts (check_withPorts rfl) h

/-- Every command does the same whatever is in flight and pending, and leaves nothing in flight and the pending inputs
as they were. -/
theorem exec_withPorts {i : Instr} (h : exec i s = .next t) (x : Option CmdWord) (hs : List HostInput) :
    exec i (s.withPorts x hs) = .next (t.withPorts none hs) := by
  cases i with
  | nop => cases h; rfl
  | clr => cases h; rfl
  | rdsr r => exact execRdsr_withPorts h
  | sts c v => exact execSts_withPorts h
  | lds c => exact execLds_withPorts h
  | bwrite w v => exact execBwrite_withPorts h
  | bread w => exact execBread_withPorts h
  | bpack => exact execBpack_withPorts h
  | enc l h' => exact execEnc_withPorts h
  | dec l h' => exact execDec_withPorts h
  | build n => exact execBuild_withPorts h
  | invert n => exact execInvert_withPorts h
  | map e => exact execMap_withPorts h
  | unmap n => exact execUnmap_withPorts h
  | ste c e => exact execSte_withPorts h
  | lde c => exact execLde_withPorts h

/-- Every command ends the command in flight and keeps what the host still presents. -/
theorem exec_ports {i : Instr} (h : exec i s = .next t) : t.inFlight = none ∧ t.host = s.host := by
  have hsame : Host.Outcome.next t = .next (t.withPorts none s.host) :=
    h.symm.trans (exec_withPorts h s.inFlight s.host)
  injection hsame with ht
  rw [ht]
  exact ⟨rfl, rfl⟩

/-- The command in flight has no effect on the command executed: R73 for the fields only the word holds. -/
theorem exec_withInFlight (i : Instr) (s : State) (x : Option CmdWord) : exec i (s.withPorts x s.host) = exec i s := by
  obtain ⟨t, h⟩ := exec_next i s
  obtain ⟨hflight, hhost⟩ := exec_ports h
  rw [exec_withPorts h, h, ← hflight, ← hhost]
  rfl

end Ports

/-! ### The transaction of a command word -/

/-- A presented word is accepted and run (R77). -/
theorem step_presented {s : State} {w : CmdWord} {rest : List HostInput} (hcfg : s.cfg.Valid)
    (hflight : s.inFlight = none) (hhost : s.host = .command w :: rest) : step s = runWord w (s.accept w rest) := by
  unfold step
  rw [if_pos hcfg]
  simp [State.fetch, hflight, hhost]

/-- A word in flight is run before anything the host presents but `rst` (entry 9). -/
theorem step_inFlight {s : State} {w : CmdWord} (hcfg : s.cfg.Valid) (hhost : ∀ rest, s.host ≠ .rst :: rest)
    (hflight : s.inFlight = some w) : step s = runWord w s := by
  unfold step
  rw [if_pos hcfg]
  split
  · exact absurd ‹_› (hhost _)
  · simp [State.fetch, hflight]

/-- Outside R7 there is no transaction (U15). -/
theorem step_not_configured {s : State} (hcfg : ¬s.cfg.Valid) : step s = .fault .notAConfiguration := if_neg hcfg

theorem runWord_of_decode {w : CmdWord} {i : Instr} (h : decode w = .ok i) (s : State) : runWord w s = exec i s := by
  simp [runWord, h]

theorem runWord_undefined {w : CmdWord} (h : cmdOp w ∉ definedOpcodes) (s : State) :
    runWord w s = execUndefined (cmdOp w) s := by
  simp [runWord, decode_undefined h]

/-- Settles O6: the two ways a word comes to be run. -/
theorem stepRunsDecodedCommand : Obligations.StepRunsDecodedCommand :=
  fun _ _ _ hcfg hdec =>
    ⟨fun _ hhost hflight => (step_presented hcfg hflight hhost).trans (runWord_of_decode hdec _),
      fun hhost hflight => (step_inFlight hcfg hhost hflight).trans (runWord_of_decode hdec _)⟩

/-- Presenting any word of a command executes the command, in the state after acceptance. -/
theorem step_present_of_decode {s : State} {w : CmdWord} {i : Instr} (hcfg : s.cfg.Valid) (h : decode w = .ok i) :
    step (s.present w) = exec i ((s.present w).accept w s.host) :=
  (step_presented (s := s.present w) hcfg rfl rfl).trans (runWord_of_decode h _)

/-- The states two words are accepted into differ in the command in flight only. -/
theorem accept_present (s : State) (w w' : CmdWord) :
    (s.present w).accept w s.host = ((s.present w').accept w' s.host).withPorts (some w) s.host := rfl

/-- Settles O5: the two words decode to one command, which does not look at the command in flight. -/
theorem unusedOperandFieldsHaveNoEffect : Obligations.UnusedOperandFieldsHaveNoEffect := by
  refine fun i ua ub => ⟨rfl, fun s => ?_⟩
  have hzero : decode (encode i) = .ok i := decode_encodeWith i 0 0
  by_cases hcfg : s.cfg.Valid
  · rw [step_present_of_decode hcfg (decode_encodeWith i ua ub), step_present_of_decode hcfg hzero]
    exact (congrArg (exec i) (accept_present s _ (encode i))).trans (exec_withInFlight i _ _)
  · rw [step_not_configured (s := s.present _) hcfg, step_not_configured (s := s.present _) hcfg]

end Sys2Proof.Machine

/-!
Dispatch and response (R74, R78). In the faulted state a command is refused or is one of the few that run there
(`exec_refuses`, `exec_responds`), and the opcode and the `a` field of the word say which
(`runsWhenFaulted_of_decode`). What every response says is read off the ways a command ends.
-/

namespace Sys2Proof.Machine

/-! ### The faulted state -/

/-- The registers read in the faulted state, as the filter computes them and as R78 lists them. -/
theorem readableWhenFaulted_iff (r : IndexWord) :
    readableWhenFaulted r.toNat = true ↔ r ∈ ([0, 1, 4, 5, 6] : List IndexWord) := by
  simp [readableWhenFaulted, ← BitVec.toNat_inj, or_assoc]

theorem runsWhenFaulted_rdsr (r : IndexWord) :
    runsWhenFaulted (.rdsr r) ↔ r ∈ ([0, 1, 4, 5, 6] : List IndexWord) := by
  simp [runsWhenFaulted]

/-- R78, R215: the commands that are refused in the faulted state. -/
theorem exec_refuses {i : Instr} {s : State} (hf : s.fault = true) (hi : ¬runsWhenFaulted i) :
    exec i s = .next s.refuse := by
  cases i with
  | nop => exact absurd trivial hi
  | clr => exact absurd trivial hi
  | rdsr r =>
    rw [runsWhenFaulted_rdsr, ← readableWhenFaulted_iff, Bool.not_eq_true] at hi
    simp [exec, execRdsr, hf, hi]
  -- the other thirteen run under the filter of `runCommand`
  | _ => exact congrArg Host.Outcome.next (if_pos hf)

/-- R78: the others are executed, and respond normally. -/
theorem exec_responds {i : Instr} (hi : runsWhenFaulted i) (s : State) :
    ∃ (u : State) (res : DataWord), exec i s = .next (u.respond res) := by
  cases i with
  | nop => exact ⟨s, 0, rfl⟩
  | clr => exact ⟨s.clear, 0, rfl⟩
  | rdsr r =>
    rw [runsWhenFaulted_rdsr, ← readableWhenFaulted_iff] at hi
    obtain ⟨v, hv⟩ := readSr_of_readableWhenFaulted hi s
    exact ⟨s, v, by simp [exec, execRdsr, hi, hv]⟩
  | _ => exact hi.elim

/-- Settles O8: the refused state is the one R78 describes. -/
theorem faultedBlockRefusesCommands : Obligations.FaultedBlockRefusesCommands :=
  fun _ s hf hi => ⟨s.refuse, exec_refuses hf hi, refusedIn_refuse s⟩

/-- A word is refused in the faulted state unless it decodes to a command that runs there; an undefined opcode is
refused like any other (R78). -/
theorem runWord_refuses {w : CmdWord} {s : State} (hf : s.fault = true)
    (hw : ∀ i, decode w = .ok i → ¬runsWhenFaulted i) : runWord w s = .next s.refuse := by
  by_cases hop : cmdOp w ∈ definedOpcodes
  · obtain ⟨i, hdec, -⟩ := decode_defined hop
    rw [runWord_of_decode hdec, exec_refuses hf (hw i hdec)]
  · rw [runWord_undefined hop]
    exact runCommand_faulted _ hf

/-! ### The filter of R78, by the fields of the word -/

theorem decode_of_cmdOp {w : CmdWord} {op : Opcode} (hop : cmdOp w = op) :
    decode w = decodeFields op (cmdA w) (cmdB w) := by
  rw [decode, hop]

/-- The opcodes and registers of the commands that run in the faulted state. -/
theorem runsWhenFaulted_of_decode {w : CmdWord} {i : Instr} (hdec : decode w = .ok i) (hi : runsWhenFaulted i) :
    cmdOp w = 0x00 ∨ cmdOp w = 0x01 ∨ (cmdOp w = 0x02 ∧ cmdA w ∈ ([0, 1, 4, 5, 6] : List IndexWord)) := by
  have hop := opcode_of_decode hdec
  cases i with
  | nop => exact .inl hop
  | clr => exact .inr (.inl hop)
  | rdsr r =>
    have hrow : (Except.ok (.rdsr r) : Except DecodeReject Instr) = .ok (.rdsr (cmdA w)) :=
      hdec.symm.trans (decode_of_cmdOp hop)
    cases hrow
    exact .inr (.inr ⟨hop, (runsWhenFaulted_rdsr _).1 hi⟩)
  | _ => exact hi.elim

/-- Settles O7: each clause names the word's row of the field table, or that it has none. -/
theorem dispatchFollowsFaultedFilter : Obligations.DispatchFollowsFaultedFilter := by
  intro s w rest hcfg hflight hhost u
  rw [step_presented hcfg hflight hhost]
  refine ⟨fun hf => ⟨fun hop => ?_, fun hop => ?_, fun hop ha => ?_, fun hnop hclr hrdsr => ?_⟩,
    fun hf => ⟨fun hop => ?_, fun hop => ?_⟩⟩
  · rw [runWord_of_decode (decode_of_cmdOp hop)]
    exact ⟨u.respond 0, rfl, answers_respond u 0, noStateChange_respond u 0⟩
  · exact runWord_of_decode (decode_of_cmdOp hop) u
  · rw [runWord_of_decode (decode_of_cmdOp hop)]
    rw [← readableWhenFaulted_iff] at ha
    obtain ⟨v, hv⟩ := readSr_of_readableWhenFaulted ha u
    obtain ⟨t, hexec, hanswer, hsame⟩ := exec_rdsr_readable ha hv
    exact ⟨t, v, hv, hexec, hanswer, hsame⟩
  · refine ⟨u.refuse, runWord_refuses hf fun i hdec hi => ?_, refusedIn_refuse u⟩
    rcases runsWhenFaulted_of_decode hdec hi with h | h | h
    · exact hnop h
    · exact hclr h
    · exact hrdsr h
  · rw [runWord_undefined hop]
    exact ⟨_, runCommand_live _ hf, faultEntered_raise u _ _⟩
  · obtain ⟨i, hdec, hi⟩ := decode_defined hop
    exact ⟨i, hdec, hi, runWord_of_decode hdec u⟩

/-! ### The response -/

/-- A state shows a response in the format of R74, whose fault bit says whether `bad` holds. -/
def ShowsResponse (t : State) (bad : Prop) : Prop :=
  ∃ r, t.rsp = some r ∧ (r.fault = true ↔ bad) ∧ (r.fault = false → r.cause = 0) ∧
    (r.fault = true → r.cause = t.cause ∧ r.res = 0)

theorem showsResponse_respond {bad : Prop} (h : ¬bad) (u : State) (res : DataWord) :
    ShowsResponse (u.respond res) bad :=
  ⟨okResponse res, rfl, iff_of_false nofun h, fun _ => rfl, nofun⟩

theorem showsResponse_refuse {bad : Prop} (h : bad) (s : State) : ShowsResponse s.refuse bad :=
  ⟨faultResponse s.cause, rfl, iff_of_true rfl h, nofun, fun _ => ⟨rfl, rfl⟩⟩

theorem showsResponse_raise {bad : Prop} (h : bad) (s : State) (c : Cause) (info : DataWord) :
    ShowsResponse (s.raise c info) bad :=
  ⟨faultResponse (causeCode c), rfl, iff_of_true rfl h, nofun, fun _ => ⟨rfl, rfl⟩⟩

/-- Out of the faulted state a response reports exactly the entry into it. -/
theorem runWord_response_live {w : CmdWord} {s t : State} (hf : s.fault = false) (h : runWord w s = .next t) :
    ShowsResponse t (t.fault = true) := by
  by_cases hop : cmdOp w ∈ definedOpcodes
  · obtain ⟨i, hdec, -⟩ := decode_defined hop
    rw [runWord_of_decode hdec] at h
    cases exec_ends h with
    | refused hfault => simp [hf] at hfault
    | raised _ c info => exact showsResponse_raise rfl s c info
    | cleared => exact showsResponse_respond (by simp) _ _
    | completed heff res => exact showsResponse_respond (by simp [heff.fault, hf]) _ _
  · rw [runWord_undefined hop, execUndefined, runCommand_live _ hf] at h
    cases h
    exact showsResponse_raise rfl s _ _

/-- In the faulted state it reports exactly a refusal. -/
theorem runWord_response_faulted {w : CmdWord} {s t : State} (hf : s.fault = true) (h : runWord w s = .next t) :
    ShowsResponse t (∀ i, decode w = .ok i → ¬runsWhenFaulted i) := by
  by_cases hw : ∀ i, decode w = .ok i → ¬runsWhenFaulted i
  · cases (runWord_refuses hf hw).symm.trans h
    exact showsResponse_refuse hw s
  · have hruns := hw
    push Not at hruns
    obtain ⟨i, hdec, hi⟩ := hruns
    obtain ⟨u, res, hexec⟩ := exec_responds hi s
    rw [runWord_of_decode hdec, hexec] at h
    cases h
    exact showsResponse_respond hw u res

/-- A command word's run ends the command in flight and keeps what the host still presents. -/
theorem runWord_ports {w : CmdWord} {s t : State} (h : runWord w s = .next t) :
    t.inFlight = none ∧ t.host = s.host := by
  by_cases hop : cmdOp w ∈ definedOpcodes
  · obtain ⟨i, hdec, -⟩ := decode_defined hop
    rw [runWord_of_decode hdec] at h
    exact exec_ports h
  · rw [runWord_undefined hop] at h
    rcases runCommand_cases h with ⟨-, rfl⟩ | ⟨-, rfl⟩ <;> exact ⟨rfl, rfl⟩

/-- R74: the fields of a response lie where the format puts them. -/
theorem rspWord_fields (r : Response) :
    (rspWord r).extractLsb' 68 1 = BitVec.ofBool r.fault ∧
      (rspWord r).extractLsb' 64 4 = r.cause ∧ (rspWord r).extractLsb' 0 64 = r.res := by
  refine ⟨?_, ?_, BitVec.extractLsb'_append_eq_right⟩
  · rw [rspWord, BitVec.extractLsb'_append_eq_of_le (by decide)]
    exact BitVec.extractLsb'_append_eq_left
  · rw [rspWord, BitVec.extractLsb'_append_eq_of_le (by decide)]
    exact BitVec.extractLsb'_append_eq_right

/-- Settles O12: a live block reports its faults, a faulted one its refusals. -/
theorem everyAcceptedCommandGetsOneResponse : Obligations.EveryAcceptedCommandGetsOneResponse := by
  refine ⟨fun s w rest hcfg hflight hhost => ?_, rspWord_fields⟩
  obtain ⟨t, hstep⟩ := step_next hcfg
  have hrun := hstep
  rw [step_presented hcfg hflight hhost] at hrun
  obtain ⟨hdone, hkept⟩ := runWord_ports hrun
  cases hf : s.fault with
  | false =>
    obtain ⟨r, hrsp, hbit, hok, hbad⟩ := runWord_response_live (s := s.accept w rest) hf hrun
    exact ⟨t, r, hstep, hrsp, hdone, hkept, by simp [hbit], hok, hbad⟩
  | true =>
    obtain ⟨r, hrsp, hbit, hok, hbad⟩ := runWord_response_faulted (s := s.accept w rest) hf hrun
    exact ⟨t, r, hstep, hrsp, hdone, hkept, by simp [hbit], hok, hbad⟩

end Sys2Proof.Machine

/-!
O48: the code stream of a range (R80, R124). A shift of the range moves every midpoint with it, so each node has the
endpoint values and the field of the node it comes from.
-/

namespace Sys2Proof.Machine

/-- The midpoint moves with its node (R121). -/
theorem mid_shift (l h k : Nat) : mid (l + k) (h + k) = mid l h + k := by
  unfold mid
  omega

/-- The fields of a shifted range are those of the range over the shifted sequence. -/
theorem encFieldsAt_shift (c : Nat → Nat) (k n l h : Nat) :
    encFieldsAt c n (l + k) (h + k) = encFieldsAt (fun i => c (i + k)) n l h := by
  induction n generalizing l h with
  | zero => rfl
  | succ n ih => simp only [encFieldsAt, Nat.add_sub_add_right, mid_shift, ih]

theorem encFields_shift (c : Nat → Nat) (k l h : Nat) :
    encFields c (l + k) (h + k) = encFields (fun i => c (i + k)) l h := by
  rw [encFields, Nat.add_sub_add_right, encFieldsAt_shift, encFields]

/-- Settles O48: the streams are the bits of the same fields. -/
theorem codeStreamDependsOnDistances : Obligations.CodeStreamDependsOnDistances :=
  fun c l h k _ => congrArg fieldBits (encFields_shift c k l h)

end Sys2Proof.Machine

/-!
O25 to O30: the bit buffer (40_bitstream.md). Each of BWRITE, BREAD and BPACK gets one rule per branch of its checks,
and the statements about a command are those rules with the frame of the state the rule names. What stands in the buffer
is read through `tobits` and `frombits`: position `k` of a string holds bit `w - 1 - k` of its value (R50).
-/

namespace Sys2Proof.Machine

/-! ### Bit strings -/

/-- Position `k` of a bit string holds bit `length - 1 - k` of its value (R50). -/
theorem getElem?_eq_testBit_frombits (bs : List Bool) {k : Nat} (hk : k < bs.length) :
    bs[k]? = some ((frombits bs).testBit (bs.length - 1 - k)) := by
  have hbit := getElem?_tobits bs.length (frombits bs) k hk
  rwa [tobits_frombits] at hbit

theorem frombits_replicate_true (w : Nat) : frombits (List.replicate w true) = 2 ^ w - 1 := by
  induction w with
  | zero => rfl
  | succ w ih =>
    rw [List.replicate_succ, frombits_cons, ih, List.length_replicate, Bool.toNat_true, pow_succ]
    have hpos := Nat.two_pow_pos w
    omega

/-- The largest value of a width is written as ones alone. -/
theorem tobits_two_pow_sub_one (w : Nat) : tobits w (2 ^ w - 1) = List.replicate w true := by
  have hones := tobits_frombits (List.replicate w true)
  rwa [frombits_replicate_true, List.length_replicate] at hones

/-- A value with a bit set above its width does not fit the width. -/
theorem two_pow_le_of_ushiftRight_ne_zero {v : DataWord} {w : Nat} (h : v >>> w ≠ 0) : 2 ^ w ≤ v.toNat := by
  by_contra hlt
  apply h
  apply BitVec.eq_of_toNat_eq
  rw [BitVec.toNat_ushiftRight, Nat.shiftRight_eq_div_pow, Nat.div_eq_of_lt (by omega)]
  rfl

/-! ### The padding of BPACK -/

theorem padding_aligns (wp : Nat) : (wp + padding wp) % 8 = 0 := by
  unfold padding
  omega

theorem padding_of_aligned {wp : Nat} (h : wp % 8 = 0) : padding wp = 0 := by
  unfold padding
  omega

/-- A capacity of whole bytes has room for the padding (R7, R107). -/
theorem add_padding_le {wp cap : Nat} (hcap : cap % 8 = 0) (h : wp ≤ cap) : wp + padding wp ≤ cap := by
  unfold padding
  omega

/-- The state with the zero bits BPACK appends. -/
def State.padded (s : State) : State := { s with bits := s.bits ++ List.replicate (padding s.wp) false }

theorem padded_wp (s : State) : s.padded.wp = s.wp + padding s.wp := by
  simp [State.padded, State.wp]

/-- On a byte boundary there is nothing to append (R107). -/
theorem padded_of_aligned {s : State} (h : s.wp % 8 = 0) : s.padded = s := by
  rw [State.padded, padding_of_aligned h, List.replicate_zero, List.append_nil]

/-! ### One rule per branch of each command (R101, R104, R107) -/

theorem raisesOn_of_exec {i : Instr} {s : State} {c : Cause} {info : DataWord}
    (h : exec i s = .next (s.raise c info)) : RaisesOn i s c info :=
  ⟨_, h, faultEntered_raise s c info⟩

/-- The width a bit-buffer primitive reports is the operand of the command (R100, R212). -/
theorem zextNat_toNat (w : IndexWord) : zextNat w.toNat = w.setWidth 64 := BitVec.ofNat_toNat 64 w

section Commands

variable {s : State} {w : IndexWord} {v : DataWord} (hf : s.fault = false)
include hf

theorem bwrite_raises_range (hw : s.cfg.vw < w.toNat) : RaisesOn (.bwrite w v) s .range (w.setWidth 64) := by
  apply raisesOn_of_exec
  rw [exec, execBwrite, runCommand_live _ hf, if_pos hw, zextA]

theorem bwrite_raises_value (hw : w.toNat ≤ s.cfg.vw) (hv : 2 ^ w.toNat ≤ v.toNat) :
    RaisesOn (.bwrite w v) s .value (w.setWidth 64) := by
  apply raisesOn_of_exec
  rw [exec, execBwrite, runCommand_live _ hf, if_neg hw.not_gt, if_pos hv, zextA]

theorem bwrite_raises_capacity (hw : w.toNat ≤ s.cfg.vw) (hv : v.toNat < 2 ^ w.toNat)
    (hcap : s.cfg.bcap < s.wp + w.toNat) : RaisesOn (.bwrite w v) s .capacity (w.setWidth 64) := by
  apply raisesOn_of_exec
  rw [exec, execBwrite, runCommand_live _ hf, if_neg hw.not_gt, if_neg hv.not_ge,
    (putField_error_iff ..).2 ⟨hcap, rfl⟩, zextNat_toNat]

theorem exec_bwrite_appends (hw : w.toNat ≤ s.cfg.vw) (hv : v.toNat < 2 ^ w.toNat)
    (hcap : s.wp + w.toNat ≤ s.cfg.bcap) :
    exec (.bwrite w v) s = .next (State.respond { s with bits := s.bits ++ tobits w.toNat v.toNat } 0) := by
  rw [exec, execBwrite, runCommand_live _ hf, if_neg hw.not_gt, if_neg hv.not_ge, (putField_ok_iff ..).2 ⟨hcap, rfl⟩]

theorem bread_raises_range (hw : s.cfg.vw < w.toNat) : RaisesOn (.bread w) s .range (w.setWidth 64) := by
  apply raisesOn_of_exec
  rw [exec, execBread, runCommand_live _ hf, if_pos hw, zextA]

theorem bread_raises_underflow (hw : w.toNat ≤ s.cfg.vw) (hwp : s.wp < s.rp + w.toNat) :
    RaisesOn (.bread w) s .underflow (w.setWidth 64) := by
  apply raisesOn_of_exec
  rw [exec, execBread, runCommand_live _ hf, if_neg hw.not_gt, (getField_error_iff ..).2 ⟨hwp, rfl⟩, zextNat_toNat]

theorem exec_bread_consumes (hw : w.toNat ≤ s.cfg.vw) (hwp : s.rp + w.toNat ≤ s.wp) :
    exec (.bread w) s =
      .next (State.respond { s with rp := s.rp + w.toNat } (zextNat (frombits (s.unread.take w.toNat)))) := by
  rw [exec, execBread, runCommand_live _ hf, if_neg hw.not_gt, (getField_ok_iff ..).2 ⟨hwp, rfl, rfl⟩]

theorem exec_bpack_pads (hcap : s.wp + padding s.wp ≤ s.cfg.bcap) :
    exec .bpack s = .next (s.padded.respond (zextNat (s.padded.wp / 8))) := by
  rw [exec, execBpack, runCommand_live _ hf, (putField_ok_iff ..).2 ⟨hcap, rfl⟩, tobits_zero_value, State.padded]

/-- On a byte boundary BPACK only answers (R107). -/
theorem exec_bpack_aligned (hwp : s.wp % 8 = 0) (hcap : s.wp ≤ s.cfg.bcap) :
    exec .bpack s = .next (s.respond (zextNat (s.wp / 8))) := by
  rw [exec_bpack_pads hf (by rwa [padding_of_aligned hwp]), padded_of_aligned hwp]

end Commands

/-! ### The obligations -/

/-- Settles O25: one rule per clause. -/
theorem bwriteAppendsOneField : Obligations.BwriteAppendsOneField := by
  refine fun w v => ⟨decode_cmdWord .., fun s hf => ⟨bwrite_raises_range hf, bwrite_raises_value hf,
    bwrite_raises_capacity hf, fun hw hv hcap => ?_⟩⟩
  refine ⟨_, exec_bwrite_appends hf hw hv hcap, answers_respond _ _, .refl s, .of_seq rfl rfl rfl, rfl, ?_, rfl,
    fun k hk => ?_⟩
  · simp [State.wp]
  · rw [respond_bits, wp_eq, List.getElem?_append_right (Nat.le_add_right _ _), Nat.add_sub_cancel_left,
      getElem?_tobits _ _ _ hk]

/-- Settles O26: the appending clauses name the bits of their field, the faulting ones why the value does not fit. -/
theorem bwriteCornerCases : Obligations.BwriteCornerCases := by
  intro s hinv hf
  refine ⟨?_, ?_, fun w v hw hv hcap => ?_, fun w v hw _ hv => ?_, fun hw hcap => ?_⟩
  · have hexec : exec (.bwrite 0 0) s = .next (State.respond { s with bits := s.bits ++ [] } 0) :=
      exec_bwrite_appends hf (Nat.zero_le _) (by decide) hinv.wp_le
    rw [List.append_nil] at hexec
    exact ⟨_, hexec, answers_respond _ _, noStateChange_respond s 0⟩
  · exact bwrite_raises_value (w := 0) hf (Nat.zero_le _) (by decide)
  · have hfit : v.toNat < 2 ^ w.toNat := by
      rw [hv, hw]
      exact Nat.sub_one_lt (Nat.two_pow_pos _).ne'
    refine ⟨_, exec_bwrite_appends hf hw.le hfit (hw ▸ hcap), answers_respond _ _, .refl s, .of_seq rfl rfl rfl, rfl,
      ?_⟩
    rw [respond_bits, hw, hv, tobits_two_pow_sub_one]
  · exact bwrite_raises_value hf hw (two_pow_le_of_ushiftRight_ne_zero hv)
  · exact ⟨_, exec_bwrite_appends (w := 8) (v := 1) hf hw (by decide) hcap, answers_respond _ _, rfl⟩

/-- Settles O27: one rule per clause; the bits of the value are those at `RP`, by `getElem?_eq_testBit_frombits`. -/
theorem breadConsumesOneField : Obligations.BreadConsumesOneField := by
  refine fun w ub => ⟨decode_cmdWord .., fun s hf => ⟨bread_raises_range hf, bread_raises_underflow hf,
    fun hw hwp => ?_⟩⟩
  have hlen : (s.unread.take w.toNat).length = w.toNat := by
    rw [List.length_take, length_unread]
    omega
  refine ⟨_, frombits (s.unread.take w.toNat), exec_bread_consumes hf hw hwp, answers_respond _ _, .refl s,
    .of_seq rfl rfl rfl, rfl, rfl, rfl, rfl, ?_, fun k hk => ?_⟩
  · exact (frombits_lt _).trans_eq (by rw [hlen])
  · have hbit := getElem?_eq_testBit_frombits (s.unread.take w.toNat) (hlen.symm ▸ hk)
    rwa [hlen, List.getElem?_take_of_lt hk, unread_eq, List.getElem?_drop] at hbit

/-- Settles O28: by the boundary the width stands at. -/
theorem breadCornerCases : Obligations.BreadCornerCases := by
  intro s hinv hf
  have hrp := hinv.rp_le
  refine ⟨?_, fun w hw hmore => bread_raises_underflow hf hw (by omega), fun w hw hall => ?_⟩
  · exact ⟨_, exec_bread_consumes (w := 0) hf (Nat.zero_le _) hrp, answers_respond _ _, noStateChange_respond s 0⟩
  · have hwp : s.rp + w.toNat = s.wp := by omega
    have htake : s.unread.take w.toNat = s.unread := List.take_of_length_le (by rw [length_unread, hall])
    have hexec := exec_bread_consumes hf hw hwp.le
    rw [htake] at hexec
    exact ⟨_, hexec, answers_respond _ _, hwp⟩

/-- Settles O29: the field BWRITE puts behind no unread bits is the one at their front. -/
theorem breadReturnsWhatBwriteWrote : Obligations.BreadReturnsWhatBwriteWrote := by
  intro s w v hf hempty hw hv hcap
  have hs : UnreadIs s s.cfg.vw (w.toNat + 0) [] := .of_rp_eq_wp hf hempty hcap
  obtain ⟨t, hwrite, ht⟩ := hs.bwrite hw hv
  rw [List.nil_append, ← List.append_nil (tobits _ _)] at ht
  obtain ⟨u, hread, hanswer, -⟩ := ht.bread hw hv
  exact ⟨t, u, hwrite, hread, hanswer⟩

/-- Settles O30: `WP <= BCAP` and whole bytes of capacity leave room for the padding, and the padded state is on a byte
boundary. -/
theorem bpackPadsToAByte : Obligations.BpackPadsToAByte := by
  refine fun ua ub => ⟨decode_cmdWord .., fun s hinv hf => ?_⟩
  obtain ⟨-, -, hbytes, -, -⟩ := hinv.cfg_valid
  have hroom : s.wp + padding s.wp ≤ s.cfg.bcap := add_padding_le hbytes hinv.wp_le
  have haligned : s.padded.wp % 8 = 0 := padded_wp s ▸ padding_aligns s.wp
  refine ⟨_, exec_bpack_pads hf hroom, answers_respond _ _, .refl s, .of_seq rfl rfl rfl, rfl, padded_wp s, haligned,
    rfl, fun hwp => ?_, _, exec_bpack_aligned hf haligned (padded_wp s ▸ hroom), answers_respond _ _, rfl⟩
  rw [padded_of_aligned hwp, respond_bits]

end Sys2Proof.Machine

/-!
O37 and O38: the midpoint of a node and the width of its field (R121, R122). The width is the least one that holds the
distance of the endpoints, which is `bitlen_le_iff`.
-/

namespace Sys2Proof.Machine

/-- The midpoint, formed without the sum, is the half of the sum (R121). -/
theorem mid_eq_half {l h : Nat} (hle : l ≤ h) : mid l h = (l + h) / 2 := by
  unfold mid
  omega

/-- `clog2` is the least number of bits that counts up to `r` (R11). -/
theorem clog2_le_iff {r : Nat} (hr : 1 ≤ r) (g : Nat) : clog2 r ≤ g ↔ r ≤ 2 ^ g := by
  rw [clog2, bitlen_le_iff]
  omega

/-- `bitlen` is the position of the leading one, counted from 1 (R11). -/
theorem bitlen_eq_iff {x : Nat} (hx : 0 < x) (k : Nat) : bitlen x = k ↔ 2 ^ (k - 1) ≤ x ∧ x < 2 ^ k ∧ 1 ≤ k := by
  have hpos : bitlen x ≠ 0 := fun h => hx.ne' ((bitlen_eq_zero_iff x).1 h)
  rw [← not_lt, ← bitlen_le_iff, ← bitlen_le_iff]
  omega

/-- The width formed without `R` is `ceil(log2 R)` (R122). -/
theorem gw_eq_clog2 (lo hi : Nat) : gw lo hi = clog2 (hi - lo + 1) := rfl

theorem gw_eq_zero_iff {lo hi : Nat} (hle : lo ≤ hi) : gw lo hi = 0 ↔ hi = lo := by
  rw [gw, bitlen_eq_zero_iff]
  omega

theorem gw_pos {lo hi : Nat} (hlt : lo < hi) : 1 ≤ gw lo hi :=
  Nat.one_le_iff_ne_zero.2 fun h => hlt.ne' ((gw_eq_zero_iff hlt.le).1 h)

/-- A cell's width is enough for every field (R122). -/
theorem gw_le_of_lt {hi vw : Nat} (lo : Nat) (hhi : hi < 2 ^ vw) : gw lo hi ≤ vw :=
  (bitlen_le_iff ..).2 ((Nat.sub_le hi lo).trans_lt hhi)

/-- A node's field holds every distance up to that of the endpoints (R122). -/
theorem lt_two_pow_gw {lo hi d : Nat} (hd : d ≤ hi - lo) : d < 2 ^ gw lo hi :=
  hd.trans_lt (lt_two_pow_bitlen _)

/-- Settles O37: the midpoint is `l` and half the length. -/
theorem midpointSplitsANode : Obligations.MidpointSplitsANode := by
  refine fun l h hle => ⟨mid_eq_half hle, fun hlt => ?_⟩
  obtain ⟨hlm, hmh⟩ := mid_bounds hlt
  have hleft : mid l h - l = (h - l) / 2 := Nat.add_sub_cancel_left _ _
  exact ⟨hlm, hmh, hleft, by omega, by omega⟩

/-- Settles O38: each bound is one of the laws of `bitlen`. -/
theorem fieldWidthIsExact : Obligations.FieldWidthIsExact := by
  refine ⟨fun r hr => ⟨(clog2_le_iff hr _).1 le_rfl, fun g => (clog2_le_iff hr g).2⟩,
    fun x k hx => bitlen_eq_iff hx k, fun lo hi vw hle hhi => ?_⟩
  exact ⟨gw_eq_clog2 lo hi, rfl, gw_eq_zero_iff hle, fun hne => gw_pos (lt_of_le_of_ne hle hne.symm),
    gw_le_of_lt lo hhi⟩

end Sys2Proof.Machine

/-!
O39: the two forms of the traversal (R123, R128, R129). A node of a range is met at a depth below the range's length, so
the depth bound of the recursion is never felt and `node_induction` is the induction over its nodes. The loop on a stack
of nodes does what the recursion does node by node (`coderLoop_eq_stackRec`), because a visit neither looks at the stack
nor gives children to a range without an interior.
-/

namespace Sys2Proof.Machine

/-! ### The recursion -/

/-- Induction over the nodes of a range: a range without an interior, and a node with its two children (R121). -/
theorem node_induction {P : Nat → Nat → Prop} (leaf : ∀ l h, h - l ≤ 1 → P l h)
    (node : ∀ l h, 1 < h - l → P l (mid l h) → P (mid l h) h → P l h) (l h : Nat) : P l h := by
  induction hn : h - l using Nat.strong_induction_on generalizing l h with
  | _ n ih =>
    rcases Nat.lt_or_ge 1 (h - l) with hlt | hshort
    · have hlen := mid_lengths hlt
      exact node l h hlt (ih _ (by omega) l _ rfl) (ih _ (by omega) _ h rfl)
    · exact leaf l h hshort

/-- One level of the recursion (R123, R129). -/
theorem coderRec_succ (visit : Visit) (k l h : Nat) (s : State) :
    coderRec visit (k + 1) l h s = visit l h s >>= fun r =>
      if r.2 then coderRec visit k l (mid l h) r.1 >>= coderRec visit k (mid l h) h else .ok r.1 := by
  rw [coderRec]
  rcases visit l h s with e | ⟨t, _ | _⟩
  · rfl
  · rfl
  · dsimp only
    change _ = coderRec visit k l (mid l h) t >>= coderRec visit k (mid l h) h
    cases coderRec visit k l (mid l h) t <;> rfl

/-- What the traversal of a range rests on, besides `SoundVisit`: a range without an interior is left alone, and the
work stack is not looked at. -/
structure TreeVisit (visit : Visit) : Prop extends SoundVisit visit where
  leaf : ∀ {l h : Nat} (s : State), h - l ≤ 1 → visit l h s = .ok (s, false)
  stackBlind : ∀ (l h : Nat) (s : State) (x : List (Nat × Nat)),
    visit l h { s with stk := x } = (visit l h s).map (Prod.map ({ · with stk := x }) id)

theorem encNode_tree : TreeVisit encNode where
  toSoundVisit := encNode_sound
  leaf _ hshort := if_pos hshort
  stackBlind l h s x := by
    have hcells : State.cellAt { s with stk := x } = s.cellAt := rfl
    have hput (w v : Nat) : State.putField { s with stk := x } w v = (s.putField w v).map ({ · with stk := x }) := by
      rw [State.putField, State.putField, apply_ite (Except.map _)]
      rfl
    simp only [encNode, hcells, hput]
    split
    · rfl
    · split
      · rfl
      · cases s.putField _ _ <;> rfl

theorem fillCells_withStk (k i v : Nat) (s : State) (x : List (Nat × Nat)) :
    fillCells k i v { s with stk := x } = { fillCells k i v s with stk := x } := by
  induction k generalizing i s with
  | zero => rfl
  | succ k ih => exact ih (i + 1) (s.setCell i v)

theorem decNode_tree : TreeVisit decNode where
  toSoundVisit := decNode_sound
  leaf _ hshort := if_pos hshort
  stackBlind l h s x := by
    have hcells : State.cellAt { s with stk := x } = s.cellAt := rfl
    have hget (w : Nat) : State.getField { s with stk := x } w =
        (s.getField w).map (Prod.map ({ · with stk := x }) id) := by
      rw [State.getField, State.getField, apply_ite (Except.map _)]
      rfl
    simp only [decNode, hcells, hget, fillCells_withStk]
    split
    · rfl
    · split
      · rfl
      · cases s.getField _ with
        | error e => rfl
        | ok r =>
          refine Eq.trans ?_ (apply_ite (Except.map _) (_ < r.2) _ _).symm
          rfl

/-- The recursion over the nodes of a stack, top first. -/
def stackRec (visit : Visit) (stk : List (Nat × Nat)) (s : State) : Except Raise State :=
  stk.foldlM (fun u n => coderRec visit (n.2 - n.1) n.1 n.2 u) s

theorem stackRec_cons (l h : Nat) (rest : List (Nat × Nat)) (s : State) :
    stackRec visit ((l, h) :: rest) s = coderRec visit (h - l) l h s >>= stackRec visit rest := rfl

/-! ### The two forms -/

section TreeVisit

variable {visit : Visit} (hv : TreeVisit visit)
include hv

theorem TreeVisit.coderRec_leaf (k : Nat) {l h : Nat} (hshort : h - l ≤ 1) (s : State) :
    coderRec visit k l h s = .ok s := by
  cases k with
  | zero => rfl
  | succ k => rw [coderRec_succ, hv.leaf s hshort]; rfl

/-- Any bound that covers the length of the range gives the same recursion. -/
theorem TreeVisit.coderRec_depth {l h k k' : Nat} (hk : h - l ≤ k) (hk' : h - l ≤ k') :
    coderRec visit k l h = coderRec visit k' l h := by
  induction l, h using node_induction generalizing k k' with
  | leaf l h hshort => funext s; rw [hv.coderRec_leaf k hshort, hv.coderRec_leaf k' hshort]
  | node l h hlt ihleft ihright =>
    have hlen := mid_lengths hlt
    obtain ⟨n, rfl⟩ : ∃ n, k = n + 1 := ⟨k - 1, by omega⟩
    obtain ⟨n', rfl⟩ : ∃ n', k' = n' + 1 := ⟨k' - 1, by omega⟩
    funext s
    rw [coderRec_succ, coderRec_succ, ihleft (k := n) (k' := n') (by omega) (by omega),
      ihright (k := n) (k' := n') (by omega) (by omega)]

/-- A node, its children bounded by their own lengths (R123, R129). -/
theorem TreeVisit.coderRec_node {l h : Nat} (hlt : 1 < h - l) (s : State) :
    coderRec visit (h - l) l h s = visit l h s >>= fun r =>
      if r.2 then coderRec visit (mid l h - l) l (mid l h) r.1 >>= coderRec visit (h - mid l h) (mid l h) h
      else .ok r.1 := by
  have hlen := mid_lengths hlt
  obtain ⟨n, hn⟩ : ∃ n, h - l = n + 1 := ⟨h - l - 1, by omega⟩
  rw [hn, coderRec_succ, hv.coderRec_depth (k := n) (k' := mid l h - l) (by omega) le_rfl,
    hv.coderRec_depth (k := n) (k' := h - mid l h) (by omega) le_rfl]

/-- A node on the stack is a range the visit is done with, or it gives way to its two children (R128). -/
theorem TreeVisit.stackRec_visit (l h : Nat) (rest : List (Nat × Nat)) (s : State) :
    stackRec visit ((l, h) :: rest) s = visit l h s >>= fun r =>
      stackRec visit (if r.2 then (l, mid l h) :: (mid l h, h) :: rest else rest) r.1 := by
  rw [stackRec_cons]
  rcases Nat.lt_or_ge 1 (h - l) with hlt | hshort
  · rw [hv.coderRec_node hlt]
    rcases visit l h s with e | ⟨t, _ | _⟩
    · rfl
    · rfl
    · exact bind_assoc (coderRec visit (mid l h - l) l (mid l h) t) (coderRec visit (h - mid l h) (mid l h) h)
        (stackRec visit rest)
  · rw [hv.coderRec_leaf _ hshort, hv.leaf s hshort]
    rfl

/-- With enough visits for what the stack holds, the loop is the recursion over its nodes, and empties it. -/
theorem TreeVisit.coderLoop_eq_stackRec {nmax k : Nat} {stk : List (Nat × Nat)} (hfit : StackFits nmax k stk)
    (s : State) : coderLoop visit k { s with stk := stk } = (stackRec visit stk s).map ({ · with stk := [] }) := by
  induction k generalizing stk s with
  | zero => rw [hfit.eq_nil]; rfl
  | succ k ih =>
    cases stk with
    | nil => rfl
    | cons n rest =>
      obtain ⟨l, h⟩ := n
      rw [hv.stackRec_visit, coderLoop]
      simp only [hv.stackBlind l h s rest]
      rcases hvisit : visit l h s with e | ⟨t, _ | _⟩
      · rfl
      · exact ih hfit.pop t
      · exact ih (hfit.split (hv.interior hvisit)) t

/-- The loop that ENC and DEC run is the recursion (R128). -/
theorem TreeVisit.coderLoop_range {s : State} (hstk : s.stk = []) (l h : Nat) :
    coderLoop visit (nodeBound l h) { s with stk := [(l, h)] } = coderRec visit (h - l) l h s := by
  have hempty (t : State) (ht : coderRec visit (h - l) l h s = .ok t) : t.stk = [] :=
    coderRec_keeps (P := (·.stk = [])) (fun _ _ _ _ _ hs hvisit => (hv.frame hvisit).2.trans hs) _ l h s t hstk ht
  rw [hv.coderLoop_eq_stackRec (StackFits.single h.lt_succ_self), stackRec_cons]
  cases hrec : coderRec visit (h - l) l h s with
  | error e => rfl
  | ok t => exact congrArg (fun x => Except.ok { t with stk := x }) (hempty t hrec).symm

end TreeVisit

/-- Settles O39: both visits are tree visits. -/
theorem stackFormAgreesWithRecursion : Obligations.StackFormAgreesWithRecursion :=
  fun _ l h hstk => ⟨encNode_tree.coderLoop_range hstk l h, decNode_tree.coderLoop_range hstk l h⟩

end Sys2Proof.Machine

/-!
O36: the pure code stream (R124 to R127). Its recursion is stated at the length of the range, where `encFields` takes
it, and its laws go by `node_induction`.
-/

namespace Sys2Proof.Machine

/-! ### The recursion of the fields -/

theorem encFieldsAt_leaf (c : Nat → Nat) (k : Nat) {l h : Nat} (hshort : h - l ≤ 1) : encFieldsAt c k l h = [] := by
  cases k with
  | zero => rfl
  | succ k => rw [encFieldsAt, if_pos hshort]

/-- Any bound that covers the length of the range gives the same fields. -/
theorem encFieldsAt_depth (c : Nat → Nat) {l h k k' : Nat} (hk : h - l ≤ k) (hk' : h - l ≤ k') :
    encFieldsAt c k l h = encFieldsAt c k' l h := by
  induction l, h using node_induction generalizing k k' with
  | leaf l h hshort => rw [encFieldsAt_leaf c k hshort, encFieldsAt_leaf c k' hshort]
  | node l h hlt ihleft ihright =>
    have hlen := mid_lengths hlt
    obtain ⟨n, rfl⟩ : ∃ n, k = n + 1 := ⟨k - 1, by omega⟩
    obtain ⟨n', rfl⟩ : ∃ n', k' = n' + 1 := ⟨k' - 1, by omega⟩
    rw [encFieldsAt, encFieldsAt, ihleft (k := n) (k' := n') (by omega) (by omega),
      ihright (k := n) (k' := n') (by omega) (by omega)]

theorem encFields_leaf (c : Nat → Nat) {l h : Nat} (hshort : h - l ≤ 1) : encFields c l h = [] :=
  encFieldsAt_leaf c _ hshort

theorem encFields_flat {c : Nat → Nat} {l h : Nat} (hflat : c h = c l) : encFields c l h = [] := by
  rw [encFields]
  cases h - l with
  | zero => rfl
  | succ k => rw [encFieldsAt, if_pos hflat, ite_self]

/-- A node gives its own field, then those of its children (R124). -/
theorem encFields_node {c : Nat → Nat} {l h : Nat} (hlt : 1 < h - l) (hne : c h ≠ c l) :
    encFields c l h = (gw (c l) (c h), c (mid l h) - c l) :: (encFields c l (mid l h) ++ encFields c (mid l h) h) := by
  have hlen := mid_lengths hlt
  obtain ⟨n, hn⟩ : ∃ n, h - l = n + 1 := ⟨h - l - 1, by omega⟩
  rw [encFields, encFields, encFields, hn, encFieldsAt, if_neg (by omega), if_neg hne,
    encFieldsAt_depth c (k := n) (k' := mid l h - l) (by omega) le_rfl,
    encFieldsAt_depth c (k := n) (k' := h - mid l h) (by omega) le_rfl]

/-- The fields depend on the values of the range alone. -/
theorem encFields_congr {c c' : Nat → Nat} {l h : Nat} (hcc : ∀ i, l ≤ i → i ≤ h → c i = c' i) :
    encFields c l h = encFields c' l h := by
  induction l, h using node_induction with
  | leaf l h hshort => rw [encFields_leaf c hshort, encFields_leaf c' hshort]
  | node l h hlt ihleft ihright =>
    obtain ⟨hlm, hmh⟩ := mid_bounds hlt
    have hl := hcc l le_rfl (by omega)
    have hm := hcc (mid l h) hlm.le hmh.le
    have hh := hcc h (by omega) le_rfl
    by_cases hflat : c h = c l
    · rw [encFields_flat hflat, encFields_flat (by rw [← hh, ← hl, hflat])]
    · rw [encFields_node hlt hflat, encFields_node (c := c') hlt (by rwa [← hh, ← hl]), hl, hm, hh,
        ihleft fun i h1 h2 => hcc i h1 (by omega), ihright fun i h1 h2 => hcc i (by omega) h2]

/-! ### The bits of the fields -/

theorem fieldBits_cons (f : Nat × Nat) (fs : List (Nat × Nat)) : fieldBits (f :: fs) = tobits f.1 f.2 ++ fieldBits fs :=
  List.flatMap_cons

theorem fieldBits_append (fs gs : List (Nat × Nat)) : fieldBits (fs ++ gs) = fieldBits fs ++ fieldBits gs :=
  List.flatMap_append

theorem fieldsWidth_cons (f : Nat × Nat) (fs : List (Nat × Nat)) : fieldsWidth (f :: fs) = f.1 + fieldsWidth fs :=
  List.sum_cons

theorem length_fieldBits (fs : List (Nat × Nat)) : (fieldBits fs).length = fieldsWidth fs := by
  induction fs with
  | nil => rfl
  | cons f fs ih => rw [fieldBits_cons, List.length_append, length_tobits, ih, fieldsWidth_cons]

theorem encBits_leaf (c : Nat → Nat) {l h : Nat} (hshort : h - l ≤ 1) : encBits c l h = [] := by
  rw [encBits, encFields_leaf c hshort]; rfl

theorem encBits_flat {c : Nat → Nat} {l h : Nat} (hflat : c h = c l) : encBits c l h = [] := by
  rw [encBits, encFields_flat hflat]; rfl

theorem encBits_node {c : Nat → Nat} {l h : Nat} (hlt : 1 < h - l) (hne : c h ≠ c l) :
    encBits c l h =
      tobits (gw (c l) (c h)) (c (mid l h) - c l) ++ (encBits c l (mid l h) ++ encBits c (mid l h) h) := by
  rw [encBits, encFields_node hlt hne, fieldBits_cons, fieldBits_append, encBits, encBits]

theorem encBits_congr {c c' : Nat → Nat} {l h : Nat} (hcc : ∀ i, l ≤ i → i ≤ h → c i = c' i) :
    encBits c l h = encBits c' l h :=
  congrArg fieldBits (encFields_congr hcc)

/-! ### The size of the stream -/

/-- Each field belongs to an index of the interior, its midpoint (R127). -/
theorem length_encFields_le (c : Nat → Nat) (l h : Nat) : (encFields c l h).length ≤ h - l - 1 := by
  induction l, h using node_induction with
  | leaf l h hshort => rw [encFields_leaf c hshort]; exact Nat.zero_le _
  | node l h hlt ihleft ihright =>
    have hlen := mid_lengths hlt
    by_cases hflat : c h = c l
    · rw [encFields_flat hflat]; exact Nat.zero_le _
    · rw [encFields_node hlt hflat, List.length_cons, List.length_append]
      omega

/-- No field is wider than a cell (R122). -/
theorem encFields_width_le {c : Nat → Nat} {l h vw : Nat} (hfit : ∀ i, l ≤ i → i ≤ h → c i < 2 ^ vw) :
    ∀ f ∈ encFields c l h, f.1 ≤ vw := by
  induction l, h using node_induction with
  | leaf l h hshort => simp [encFields_leaf c hshort]
  | node l h hlt ihleft ihright =>
    obtain ⟨hlm, hmh⟩ := mid_bounds hlt
    by_cases hflat : c h = c l
    · simp [encFields_flat hflat]
    · rw [encFields_node hlt hflat]
      simp only [List.forall_mem_cons, List.forall_mem_append]
      exact ⟨gw_le_of_lt _ (hfit h (by omega) le_rfl), ihleft fun i h1 h2 => hfit i h1 (by omega),
        ihright fun i h1 h2 => hfit i (by omega) h2⟩

/-- Settles O36: at most one field for each index of the interior, none of them wider than a cell. -/
theorem codeStreamSizeBound : Obligations.CodeStreamSizeBound := by
  intro c l h vw _ hfit
  have hcount := length_encFields_le c l h
  refine ⟨hcount, ?_⟩
  calc (encBits c l h).length
      = ((encFields c l h).map Prod.fst).sum := length_fieldBits _
    _ ≤ ((encFields c l h).map Prod.fst).length * vw :=
        List.sum_le_card_nsmul _ _ (List.forall_mem_map.2 (encFields_width_le hfit))
    _ ≤ (h - l - 1) * vw := Nat.mul_le_mul_right _ (by rwa [List.length_map])

end Sys2Proof.Machine

/-!
O33, O34, O35, O47: ENC. `EncNode` appends the fields of the code stream one by one (`encRec_eq_appendFields`), so what
it leaves and where it runs out of room are facts about appending a list of fields. ENC gets one rule per branch of its
checks.
-/

namespace Sys2Proof.Machine

/-! ### Appending a list of fields -/

theorem putField_cellAt {s t : State} {w v : Nat} (h : s.putField w v = .ok t) : t.cellAt = s.cellAt := by
  rw [((putField_ok_iff ..).1 h).2]; rfl

/-- `PutField` for each field of a list, in its order (R100). -/
def appendFields (fs : List (Nat × Nat)) (s : State) : Except Raise State :=
  fs.foldlM (fun u f => u.putField f.1 f.2) s

theorem appendFields_cons (f : Nat × Nat) (fs : List (Nat × Nat)) (s : State) :
    appendFields (f :: fs) s = s.putField f.1 f.2 >>= appendFields fs := rfl

theorem appendFields_append (fs gs : List (Nat × Nat)) (s : State) :
    appendFields (fs ++ gs) s = appendFields fs s >>= appendFields gs := List.foldlM_append

/-- What a completed append leaves. -/
theorem appendFields_ok {fs : List (Nat × Nat)} {s t : State} (h : appendFields fs s = .ok t) :
    t = { s with bits := s.bits ++ fieldBits fs } := by
  induction fs generalizing s with
  | nil => cases h; rw [fieldBits, List.flatMap_nil, List.append_nil]
  | cons f fs ih =>
    rw [appendFields_cons] at h
    cases hput : s.putField f.1 f.2 with
    | error e => rw [hput] at h; cases h
    | ok u =>
      rw [hput] at h
      obtain ⟨-, rfl⟩ := (putField_ok_iff ..).1 hput
      rw [ih h, fieldBits_cons, List.append_assoc]

theorem appendFields_cellAt {fs : List (Nat × Nat)} {s t : State} (h : appendFields fs s = .ok t) :
    t.cellAt = s.cellAt := by
  rw [appendFields_ok h]; rfl

/-- Fields that fit together are all appended. -/
theorem appendFields_fits {fs : List (Nat × Nat)} {s : State} (hcap : s.wp + fieldsWidth fs ≤ s.cfg.bcap) :
    appendFields fs s = .ok { s with bits := s.bits ++ fieldBits fs } := by
  suffices h : ∃ t, appendFields fs s = .ok t by
    obtain ⟨t, ht⟩ := h
    rw [ht, appendFields_ok ht]
  induction fs generalizing s with
  | nil => exact ⟨s, rfl⟩
  | cons f fs ih =>
    rw [fieldsWidth_cons] at hcap
    rw [appendFields_cons, (putField_ok_iff s _ f.1 f.2).2 ⟨by omega, rfl⟩]
    refine ih ?_
    simp only [State.wp, List.length_append, length_tobits] at hcap ⊢
    omega

/-- The first field that does not fit raises CAPACITY with its width. -/
theorem appendFields_overflow {pre post : List (Nat × Nat)} {g d : Nat} {s : State}
    (hfits : s.wp + fieldsWidth pre ≤ s.cfg.bcap) (hover : s.cfg.bcap < s.wp + fieldsWidth pre + g) :
    appendFields (pre ++ (g, d) :: post) s = .error ⟨.capacity, zextNat g⟩ := by
  have hwp : State.wp { s with bits := s.bits ++ fieldBits pre } = s.wp + fieldsWidth pre := by
    simp [State.wp, length_fieldBits]
  rw [appendFields_append, appendFields_fits hfits]
  change appendFields ((g, d) :: post) _ = _
  rw [appendFields_cons, (putField_error_iff _ g d _).2 ⟨by rwa [hwp], rfl⟩]
  rfl

/-! ### EncNode -/

/-- `EncNode` appends the fields of the code stream, in its order (R123, R124). -/
theorem encRec_eq_appendFields (k l h : Nat) (s : State) :
    encRec k l h s = appendFields (encFieldsAt s.cellAt k l h) s := by
  induction k generalizing l h s with
  | zero => rfl
  | succ k ih =>
    rw [encRec, coderRec_succ, encFieldsAt, encNode]
    split
    · rfl
    · split
      · rfl
      · rw [appendFields_cons]
        cases hput : s.putField (gw (s.cellAt l) (s.cellAt h)) (s.cellAt (mid l h) - s.cellAt l) with
        | error e => rfl
        | ok t =>
          have hleft := ih l (mid l h) t
          rw [putField_cellAt hput] at hleft
          change encRec k l (mid l h) t >>= encRec k (mid l h) h = appendFields _ t
          rw [hleft, appendFields_append]
          cases happend : appendFields (encFieldsAt s.cellAt k l (mid l h)) t with
          | error e => rfl
          | ok u =>
            have hright := ih (mid l h) h u
            rwa [appendFields_cellAt happend, putField_cellAt hput] at hright

/-- `EncNode` of a range appends its code stream and changes nothing else (R124). -/
theorem encRec_ok {l h : Nat} {s t : State} (hrec : encRec (h - l) l h s = .ok t) :
    t = { s with bits := s.bits ++ encBits s.cellAt l h } :=
  appendFields_ok ((encRec_eq_appendFields ..).symm.trans hrec)

theorem encRec_fits {l h : Nat} {s : State} (hcap : s.wp + (encBits s.cellAt l h).length ≤ s.cfg.bcap) :
    encRec (h - l) l h s = .ok { s with bits := s.bits ++ encBits s.cellAt l h } := by
  rw [encBits, length_fieldBits] at hcap
  exact (encRec_eq_appendFields ..).trans (appendFields_fits hcap)

/-- Settles O34: the recursion of the stream is `encBits_node`, with the midpoint and the width of R121 and R122. -/
theorem encBitsFollowsTheRecursion : Obligations.EncBitsFollowsTheRecursion := by
  refine ⟨fun c l h => ⟨encBits_leaf c, encBits_flat, fun hlt hne => ?_⟩, fun s t l h => encRec_ok⟩
  rw [encBits_node hlt hne, mid_eq_half (by omega), gw_eq_clog2, List.append_assoc]

/-! ### The command -/

/-- A command that ends without a fault has raised none. -/
theorem not_raisesOn {i : Instr} {s t : State} (hexec : exec i s = .next t) (ht : t.fault = false) (c : Cause)
    (info : DataWord) : ¬RaisesOn i s c info := by
  rintro ⟨u, hu, hfault, -⟩
  cases hexec.symm.trans hu
  rw [ht] at hfault
  cases hfault

/-- The state ENC leaves: the code stream is appended and its length answered. -/
def State.encoded (s : State) (l h : Nat) : State :=
  State.respond { s with bits := s.bits ++ encBits s.cellAt l h } (BitVec.ofNat 64 (encBits s.cellAt l h).length)

/-- Nothing to append, nothing changed. -/
theorem encoded_of_encBits_eq_nil {s : State} {l h : Nat} (hnil : encBits s.cellAt l h = []) :
    s.encoded l h = s.respond 0 := by
  rw [State.encoded, hnil, List.append_nil]; rfl

section Enc

variable {s t : State} {l : IndexWord} {h : DataWord} (hf : s.fault = false)
include hf

theorem enc_raises_badarg (harg : ¬(l.toNat ≤ h.toNat ∧ h.toNat < s.cfg.nmax)) :
    RaisesOn (.enc l h) s .badarg (l.setWidth 64) := by
  apply raisesOn_of_exec
  rw [exec, execEnc, runCommand_live _ hf, if_pos harg, zextA]

variable (hle : l.toNat ≤ h.toNat) (hmax : h.toNat < s.cfg.nmax)
include hle hmax

theorem enc_raises_order {i : Nat} (hdesc : IsFirstDescent s.cellAt l.toNat h.toNat i) :
    RaisesOn (.enc l h) s .order (BitVec.ofNat 64 i) := by
  have hfirst : firstDescent s.cellAt (h.toNat - l.toNat) l.toNat = some i := by
    rwa [firstDescent_eq_some_iff, Nat.add_sub_cancel' hle]
  apply raisesOn_of_exec
  rw [exec, execEnc, runCommand_live _ hf, if_neg (not_not.2 ⟨hle, hmax⟩), hfirst]
  rfl

variable (hstk : s.stk = []) (hmono : Nondecreasing s.cellAt l.toNat h.toNat)
include hstk hmono

/-- ENC of a range that passes the checks ends as `EncNode` does (R123, R128). -/
theorem exec_enc_of_encRec :
    (∀ e, encRec (h.toNat - l.toNat) l.toNat h.toNat s = .error e →
      exec (.enc l h) s = .next (s.raise e.cause e.info)) ∧
    ∀ u, encRec (h.toNat - l.toNat) l.toNat h.toNat s = .ok u →
      exec (.enc l h) s = .next (u.respond (zextNat (u.wp - s.wp))) := by
  have hfirst : firstDescent s.cellAt (h.toNat - l.toNat) l.toNat = none := by
    rwa [firstDescent_eq_none_iff, Nat.add_sub_cancel' hle]
  have hloop := encNode_tree.coderLoop_range hstk l.toNat h.toNat
  constructor <;> intro r hr <;>
    rw [exec, execEnc, runCommand_live _ hf, if_neg (not_not.2 ⟨hle, hmax⟩), hfirst, encLoop, hloop, ← encRec, hr]

/-- A fault of `EncNode` is a fault of ENC. -/
theorem enc_raises_of_encRec {e : Raise} (hrec : encRec (h.toNat - l.toNat) l.toNat h.toNat s = .error e) :
    RaisesOn (.enc l h) s e.cause e.info :=
  raisesOn_of_exec ((exec_enc_of_encRec hf hle hmax hstk hmono).1 e hrec)

/-- If `EncNode` completes, so does ENC, and answers the length of what it appended. -/
theorem exec_enc_of_encRec_ok {u : State} (hrec : encRec (h.toNat - l.toNat) l.toNat h.toNat s = .ok u) :
    exec (.enc l h) s = .next (s.encoded l.toNat h.toNat) := by
  rw [(exec_enc_of_encRec hf hle hmax hstk hmono).2 u hrec, encRec_ok hrec, State.encoded]
  simp [State.wp, zextNat]

/-- ENC of a range whose code stream fits completes (R123). -/
theorem exec_enc_fits (hcap : s.wp + (encBits s.cellAt l.toNat h.toNat).length ≤ s.cfg.bcap) :
    exec (.enc l h) s = .next (s.encoded l.toNat h.toNat) :=
  exec_enc_of_encRec_ok hf hle hmax hstk hmono (encRec_fits hcap)

end Enc

/-- An ENC that does not fault has passed its checks and appended the code stream (R123). -/
theorem exec_enc_completed {s t : State} {l : IndexWord} {h : DataWord} (hf : s.fault = false) (hstk : s.stk = [])
    (hexec : exec (.enc l h) s = .next t) (ht : t.fault = false) :
    l.toNat ≤ h.toNat ∧ h.toNat < s.cfg.nmax ∧ Nondecreasing s.cellAt l.toNat h.toNat ∧
      t = s.encoded l.toNat h.toNat := by
  obtain ⟨hle, hmax⟩ : l.toNat ≤ h.toNat ∧ h.toNat < s.cfg.nmax :=
    not_not.1 fun harg => not_raisesOn hexec ht _ _ (enc_raises_badarg hf harg)
  cases hfirst : firstDescent s.cellAt (h.toNat - l.toNat) l.toNat with
  | some i =>
    rw [firstDescent_eq_some_iff, Nat.add_sub_cancel' hle] at hfirst
    exact absurd (enc_raises_order hf hle hmax hfirst) (not_raisesOn hexec ht _ _)
  | none =>
    rw [firstDescent_eq_none_iff, Nat.add_sub_cancel' hle] at hfirst
    cases hrec : encRec (h.toNat - l.toNat) l.toNat h.toNat s with
    | error e => exact absurd (enc_raises_of_encRec hf hle hmax hstk hfirst hrec) (not_raisesOn hexec ht _ _)
    | ok u =>
      cases hexec.symm.trans (exec_enc_of_encRec_ok hf hle hmax hstk hfirst hrec)
      exact ⟨hle, hmax, hfirst, rfl⟩

/-- The stream of V41-1: the fields 3 bits of 2 and 3 bits of 4. -/
theorem encBits_example {c : Nat → Nat} (h0 : c 0 = 0) (h1 : c 1 = 2) (h2 : c 2 = 6) (h3 : c 3 = 6) :
    encBits c 0 3 = [false, true, false, true, false, false] := by
  have hroot : mid 0 3 = 1 := rfl
  have hright : mid 1 3 = 2 := rfl
  rw [encBits_node (by decide) (by omega), hroot, encBits_leaf c (by decide), encBits_node (by decide) (by omega),
    hright, encBits_leaf c (by decide), encBits_leaf c (by decide), h0, h1, h2, h3]
  decide

/-- Settles O33: one rule per clause. -/
theorem encAppendsTheCodeStream : Obligations.EncAppendsTheCodeStream := by
  refine fun l h => ⟨decode_cmdWord .., fun s hinv hf => ⟨enc_raises_badarg hf, ?_, ?_, ?_⟩, fun c => encBits_example⟩
  · exact fun hle hmax i => enc_raises_order hf hle hmax
  · intro hle hmax hmono pre g d post hfields hfits hover
    refine enc_raises_of_encRec (e := ⟨.capacity, zextNat g⟩) hf hle hmax hinv.stk_empty hmono ?_
    rw [encRec_eq_appendFields, ← encFields, hfields, appendFields_overflow hfits hover]
  · intro hle hmax hmono hcap
    exact ⟨_, exec_enc_fits hf hle hmax hinv.stk_empty hmono hcap, answers_respond _ _, rfl, rfl, .refl s,
      .of_seq rfl rfl rfl⟩

/-- Settles O35: a short or a flat range has no field, and a node with different endpoints has one whatever stands in
its midpoint. -/
theorem encCornerCases : Obligations.EncCornerCases := by
  refine ⟨fun s l h hinv hf hmax hmono hle hcorner => ?_, fun c l h hlt hends => ?_⟩
  · have hnil : encBits s.cellAt l.toNat h.toNat = [] := by
      rcases hcorner with hshort | hflat
      · exact encBits_leaf _ (by omega)
      · exact encBits_flat hflat.symm
    have hexec := exec_enc_fits hf hle hmax hinv.stk_empty hmono (by simpa [hnil] using hinv.wp_le)
    rw [encoded_of_encBits_eq_nil hnil] at hexec
    exact ⟨_, hexec, answers_respond _ _, noStateChange_respond s 0⟩
  · refine ⟨encBits c l (mid l h) ++ encBits c (mid l h) h, ?_, gw_pos hends, encBits_node hlt hends.ne',
      fun hmid => ?_⟩
    · rw [encFields_node hlt hends.ne', List.head?_cons]
    · rw [encBits_node hlt hends.ne', hmid, Nat.sub_self, tobits_zero_value]

/-- Settles O47: both append the code stream, which depends on the values of the range alone. -/
theorem codeStreamIndependentOfParameters : Obligations.CodeStreamIndependentOfParameters := by
  intro s s' t t' l h hs hs' hf hf' hcells hexec hexec' ht ht'
  obtain ⟨-, -, -, rfl⟩ := exec_enc_completed hf hs.stk_empty hexec ht
  obtain ⟨-, -, -, rfl⟩ := exec_enc_completed hf' hs'.stk_empty hexec' ht'
  exact ⟨encBits s.cellAt l.toNat h.toNat, rfl, congrArg (s'.bits ++ ·) (encBits_congr hcells)⟩

end Sys2Proof.Machine

/-!
O41 to O44: DEC (R129 to R132). `DecNode` gets one equation per branch of the pseudocode, at the length of the range
(`decRec_leaf` to `decRec_node`). A completed run is the relation `Decodes`, whose induction says what the run writes
and what it leaves alone. DEC gets one rule per branch of its checks.
-/

namespace Sys2Proof.Machine

/-! ### One node -/

/-- The width of the field of a node (R122). -/
def State.nodeWidth (s : State) (l h : Nat) : Nat := gw (s.cellAt l) (s.cellAt h)

/-- The value of the field of a node: the bits at `RP` (R129). -/
def State.nodeField (s : State) (l h : Nat) : Nat := frombits (s.unread.take (s.nodeWidth l h))

/-- The state in which the children of a node are decoded: its field is consumed and its midpoint written (R129). -/
def State.nodeDecoded (s : State) (l h : Nat) : State :=
  State.setCell { s with rp := s.rp + s.nodeWidth l h } (mid l h) (s.cellAt l + s.nodeField l h)

theorem nodeDecoded_read_mid (s : State) (l h : Nat) :
    Memory.read (s.nodeDecoded l h).seq (mid l h) = some (s.cellAt l + s.nodeField l h) := read_write_same ..

theorem nodeDecoded_cellAt_mid (s : State) (l h : Nat) :
    (s.nodeDecoded l h).cellAt (mid l h) = s.cellAt l + s.nodeField l h := cellAt_setCell_same ..

theorem sameCell_nodeDecoded (s : State) {l h j : Nat} (hj : j ≠ mid l h) : SameCell s (s.nodeDecoded l h) j :=
  sameCell_setCell_other _ _ hj

theorem nodeDecoded_unread (s : State) (l h : Nat) :
    (s.nodeDecoded l h).unread = s.unread.drop (s.nodeWidth l h) := unread_advance ..

theorem nodeDecoded_rp (s : State) (l h : Nat) : (s.nodeDecoded l h).rp = s.rp + s.nodeWidth l h := rfl

/-! ### DecNode -/

theorem decRec_leaf {l h : Nat} (hshort : h - l ≤ 1) (s : State) : decRec (h - l) l h s = .ok s :=
  decNode_tree.coderRec_leaf _ hshort s

section Node

variable {l h : Nat} {s : State} (hlt : 1 < h - l)
include hlt

theorem decRec_flat (hflat : s.cellAt h = s.cellAt l) :
    decRec (h - l) l h s = .ok (fillCells (h - l - 1) (l + 1) (s.cellAt l) s) := by
  rw [decRec, decNode_tree.coderRec_node hlt, decNode, if_neg (by omega), if_pos hflat]
  rfl

variable (hne : s.cellAt h ≠ s.cellAt l)
include hne

theorem decRec_underflow (hwp : s.wp < s.rp + s.nodeWidth l h) :
    decRec (h - l) l h s = .error ⟨.underflow, zextNat (s.nodeWidth l h)⟩ := by
  rw [decRec, decNode_tree.coderRec_node hlt, decNode, if_neg (by omega), if_neg hne,
    (getField_error_iff s (gw _ _) _).2 ⟨hwp, rfl⟩]
  rfl

variable (hwp : s.rp + s.nodeWidth l h ≤ s.wp)
include hwp

theorem decRec_badcode (hcode : s.cellAt h - s.cellAt l < s.nodeField l h) :
    decRec (h - l) l h s = .error ⟨.badcode, zextNat (mid l h)⟩ := by
  rw [decRec, decNode_tree.coderRec_node hlt, decNode, if_neg (by omega), if_neg hne,
    (getField_ok_iff s _ (gw _ _) _).2 ⟨hwp, rfl, rfl⟩]
  exact congrArg (· >>= _) (if_pos hcode)

/-- A node whose field is a code word is decoded by its two children, the left one first (R129, R130). -/
theorem decRec_node (hcode : s.nodeField l h ≤ s.cellAt h - s.cellAt l) :
    decRec (h - l) l h s =
      decRec (mid l h - l) l (mid l h) (s.nodeDecoded l h) >>= decRec (h - mid l h) (mid l h) h := by
  rw [decRec, decNode_tree.coderRec_node hlt, decNode, if_neg (by omega), if_neg hne,
    (getField_ok_iff s _ (gw _ _) _).2 ⟨hwp, rfl, rfl⟩]
  exact congrArg (· >>= _) (if_neg hcode.not_gt)

end Node

/-- The runs of `DecNode` that complete: from state `s` the range `(l, h)` is decoded to state `t`. -/
inductive Decodes : Nat → Nat → State → State → Prop
  | leaf {l h : Nat} {s : State} (hshort : h - l ≤ 1) : Decodes l h s s
  | flat {l h : Nat} {s : State} (hlt : 1 < h - l) (hflat : s.cellAt h = s.cellAt l) :
      Decodes l h s (fillCells (h - l - 1) (l + 1) (s.cellAt l) s)
  | node {l h : Nat} {s u t : State} (hlt : 1 < h - l) (hne : s.cellAt h ≠ s.cellAt l)
      (hwp : s.rp + s.nodeWidth l h ≤ s.wp) (hcode : s.nodeField l h ≤ s.cellAt h - s.cellAt l)
      (left : Decodes l (mid l h) (s.nodeDecoded l h) u) (right : Decodes (mid l h) h u t) : Decodes l h s t

theorem decodes_of_decRec {l h : Nat} {s t : State} (hrec : decRec (h - l) l h s = .ok t) : Decodes l h s t := by
  induction l, h using node_induction generalizing s t with
  | leaf l h hshort =>
    cases (decRec_leaf hshort s).symm.trans hrec
    exact .leaf hshort
  | node l h hlt ihleft ihright =>
    by_cases hflat : s.cellAt h = s.cellAt l
    · cases (decRec_flat hlt hflat).symm.trans hrec
      exact .flat hlt hflat
    · rcases Nat.lt_or_ge s.wp (s.rp + s.nodeWidth l h) with hwp | hwp
      · cases (decRec_underflow hlt hflat hwp).symm.trans hrec
      · rcases Nat.lt_or_ge (s.cellAt h - s.cellAt l) (s.nodeField l h) with hcode | hcode
        · cases (decRec_badcode hlt hflat hwp hcode).symm.trans hrec
        · rw [decRec_node hlt hflat hwp hcode] at hrec
          cases hleft : decRec (mid l h - l) l (mid l h) (s.nodeDecoded l h) with
          | error e => rw [hleft] at hrec; cases hrec
          | ok u =>
            rw [hleft] at hrec
            exact .node hlt hflat hwp hcode (ihleft hleft) (ihright hrec)

namespace Decodes

variable {l h : Nat} {s t : State}

theorem decRec_eq (hdec : Decodes l h s t) : decRec (h - l) l h s = .ok t := by
  induction hdec with
  | leaf hshort => exact decRec_leaf hshort _
  | flat hlt hflat => exact decRec_flat hlt hflat
  | node hlt hne hwp hcode _ _ ihleft ihright =>
    rw [decRec_node hlt hne hwp hcode, ihleft]
    exact ihright

/-- `DecNode` changes `SEQ` and `RP` only. -/
theorem frame (hdec : Decodes l h s t) : t = { s with seq := t.seq, rp := t.rp } := decRec_frame hdec.decRec_eq

/-- `DecNode` leaves the endpoints and all cells outside the range alone (R55, R129). -/
theorem sameCell (hdec : Decodes l h s t) {j : Nat} (hj : j ≤ l ∨ h ≤ j) : SameCell s t j := by
  induction hdec with
  | leaf _ => exact .refl _ j
  | @flat l h s hlt hflat =>
    have hframe := fillCells_eq (h - l - 1) (l + 1) (s.cellAt l) s
    refine .of_read ?_ (by rw [hframe]) (by rw [hframe])
    rw [read_fillCells, if_neg (by omega)]
  | @node l h s u t hlt _ _ _ _ _ ihleft ihright =>
    obtain ⟨hlm, hmh⟩ := mid_bounds hlt
    exact ((sameCell_nodeDecoded s (by omega)).trans (ihleft (by omega))).trans (ihright (by omega))

/-- `DecNode` writes every cell of the interior (R129). -/
theorem written (hdec : Decodes l h s t) {j : Nat} (hlj : l < j) (hjh : j < h) :
    ∃ v, Memory.read t.seq j = some v := by
  induction hdec with
  | leaf hshort => omega
  | @flat l h s hlt hflat =>
    refine ⟨s.cellAt l, ?_⟩
    rw [read_fillCells, if_pos (by omega)]
  | @node l h s u t hlt _ _ _ left right ihleft ihright =>
    rcases lt_trichotomy j (mid l h) with hjm | rfl | hmj
    · obtain ⟨v, hv⟩ := ihleft hlj hjm
      exact ⟨v, (right.sameCell (.inl hjm.le)).1.trans hv⟩
    · have hmid := (left.sameCell (.inr le_rfl)).trans (right.sameCell (.inl le_rfl))
      exact ⟨_, hmid.1.trans (nodeDecoded_read_mid s l h)⟩
    · exact ihright hmj hjh

end Decodes

/-- Settles O42: each clause is one of the equations of `DecNode`, with the midpoint of R121. -/
theorem decNodeFollowsTheRecursion : Obligations.DecNodeFollowsTheRecursion := by
  refine fun s l h => ⟨fun hshort => decRec_leaf hshort s, fun hlt hflat => ?_, fun hlt hne => ?_⟩
  · refine ⟨_, decRec_flat hlt hflat, fillCells_eq .., fun j h1 h2 => ?_, fun j => (Decodes.flat hlt hflat).sameCell⟩
    rw [read_fillCells, if_pos (by omega)]
  · rw [← mid_eq_half (by omega : l ≤ h)]
    refine ⟨decRec_underflow hlt hne, decRec_badcode hlt hne, fun hwp hcode => ?_⟩
    have hnode := decRec_node hlt hne hwp hcode
    exact ⟨fun e he => hnode.trans (congrArg (· >>= _) he), fun u hu => hnode.trans (congrArg (· >>= _) hu)⟩

/-! ### The command -/

section Dec

variable {s : State} {l : IndexWord} {h : DataWord} (hf : s.fault = false)
include hf

theorem dec_raises_badarg (harg : ¬(l.toNat ≤ h.toNat ∧ h.toNat < s.cfg.nmax)) :
    RaisesOn (.dec l h) s .badarg (l.setWidth 64) := by
  apply raisesOn_of_exec
  rw [exec, execDec, runCommand_live _ hf, if_pos harg, zextA]

variable (hle : l.toNat ≤ h.toNat) (hmax : h.toNat < s.cfg.nmax)
include hle hmax

theorem dec_raises_order (hdesc : s.cellAt h.toNat < s.cellAt l.toNat) : RaisesOn (.dec l h) s .order h := by
  apply raisesOn_of_exec
  rw [exec, execDec, runCommand_live _ hf, if_neg (not_not.2 ⟨hle, hmax⟩), if_pos hdesc, zextNat, BitVec.ofNat_toNat,
    BitVec.setWidth_eq]

variable (hstk : s.stk = []) (hends : s.cellAt l.toNat ≤ s.cellAt h.toNat)
include hstk hends

/-- DEC of a range that passes the checks ends as `DecNode` does (R128, R129). -/
theorem exec_dec_of_decRec :
    (∀ e, decRec (h.toNat - l.toNat) l.toNat h.toNat s = .error e →
      exec (.dec l h) s = .next (s.raise e.cause e.info)) ∧
    ∀ u, decRec (h.toNat - l.toNat) l.toNat h.toNat s = .ok u →
      exec (.dec l h) s = .next (u.respond (zextNat (u.rp - s.rp))) := by
  have hloop := decNode_tree.coderLoop_range hstk l.toNat h.toNat
  constructor <;> intro r hr <;>
    rw [exec, execDec, runCommand_live _ hf, if_neg (not_not.2 ⟨hle, hmax⟩), if_neg hends.not_gt, decLoop, hloop,
      ← decRec, hr]

/-- A fault of `DecNode` is a fault of DEC. -/
theorem dec_raises_of_decRec {e : Raise} (hrec : decRec (h.toNat - l.toNat) l.toNat h.toNat s = .error e) :
    RaisesOn (.dec l h) s e.cause e.info :=
  raisesOn_of_exec ((exec_dec_of_decRec hf hle hmax hstk hends).1 e hrec)

/-- If `DecNode` completes, so does DEC, and answers the number of bits consumed. -/
theorem exec_dec_of_decodes {u : State} (hdec : Decodes l.toNat h.toNat s u) :
    exec (.dec l h) s = .next (u.respond (zextNat (u.rp - s.rp))) :=
  (exec_dec_of_decRec hf hle hmax hstk hends).2 u hdec.decRec_eq

end Dec

/-- A DEC that does not fault has passed its checks and completed `DecNode` (R129). -/
theorem exec_dec_completed {s t : State} {l : IndexWord} {h : DataWord} (hf : s.fault = false) (hstk : s.stk = [])
    (hexec : exec (.dec l h) s = .next t) (ht : t.fault = false) :
    l.toNat ≤ h.toNat ∧ h.toNat < s.cfg.nmax ∧ s.cellAt l.toNat ≤ s.cellAt h.toNat ∧
      ∃ u, Decodes l.toNat h.toNat s u ∧ t = u.respond (zextNat (u.rp - s.rp)) := by
  obtain ⟨hle, hmax⟩ : l.toNat ≤ h.toNat ∧ h.toNat < s.cfg.nmax :=
    not_not.1 fun harg => not_raisesOn hexec ht _ _ (dec_raises_badarg hf harg)
  have hends : s.cellAt l.toNat ≤ s.cellAt h.toNat :=
    Nat.not_lt.1 fun hdesc => not_raisesOn hexec ht _ _ (dec_raises_order hf hle hmax hdesc)
  cases hrec : decRec (h.toNat - l.toNat) l.toNat h.toNat s with
  | error e => exact absurd (dec_raises_of_decRec hf hle hmax hstk hends hrec) (not_raisesOn hexec ht _ _)
  | ok u =>
    have hdec := decodes_of_decRec hrec
    cases hexec.symm.trans (exec_dec_of_decodes hf hle hmax hstk hends hdec)
    exact ⟨hle, hmax, hends, u, hdec, rfl⟩

/-- What DEC leaves alone beside the cells and `RP`. -/
theorem Decodes.sameControl {l h : Nat} {s u : State} (hdec : Decodes l h s u) (res : DataWord) :
    SameControl s (u.respond res) := by
  rw [hdec.frame]; exact .refl s

theorem Decodes.bits {l h : Nat} {s u : State} (hdec : Decodes l h s u) : u.bits = s.bits := by
  rw [hdec.frame]

/-- Settles O41: the clauses on the cells are what a completed `DecNode` writes and leaves alone. -/
theorem decRunsDecNode : Obligations.DecRunsDecNode := by
  refine fun l h => ⟨decode_cmdWord .., fun s hinv hf => ⟨dec_raises_badarg hf, ?_, fun hle hmax hends => ⟨?_, ?_⟩⟩⟩
  · exact fun hle hmax => dec_raises_order hf hle hmax
  · exact fun e => dec_raises_of_decRec hf hle hmax hinv.stk_empty hends
  · intro u hrec
    have hdec := decodes_of_decRec hrec
    exact ⟨_, exec_dec_of_decodes hf hle hmax hinv.stk_empty hends hdec, answers_respond _ _, rfl,
      fun j => .refl u j, fun j => hdec.sameCell, fun j => hdec.written, hdec.bits, congrArg List.length hdec.bits,
      hdec.sameControl _⟩

/-- Settles O43: the two faults of `DecNode` at its first node. -/
theorem decFaultsAtTheRoot : Obligations.DecFaultsAtTheRoot := by
  intro s l h hinv hf hmax hlen hends
  have hrp := hinv.rp_le
  have hlt : 1 < h.toNat - l.toNat := by omega
  have hraises {e : Raise} := dec_raises_of_decRec (e := e) hf (by omega) hmax hinv.stk_empty hends.le
  refine ⟨fun hfew => hraises (decRec_underflow hlt hends.ne' ?_),
    fun henough hcode => hraises (decRec_badcode hlt hends.ne' ?_ hcode)⟩
  · rw [State.nodeWidth]; omega
  · rw [State.nodeWidth]; omega

/-- Settles O44: `DecNode` leaves a short range alone and fills a flat one, and consumes nothing in either. -/
theorem decShortAndFlatRanges : Obligations.DecShortAndFlatRanges := by
  intro s l h hinv hf hmax hle
  refine ⟨fun hshort hends => ?_, fun hlong hflat => ?_⟩
  · have hexec := exec_dec_of_decodes hf hle hmax hinv.stk_empty hends (.leaf (by omega))
    rw [Nat.sub_self] at hexec
    exact ⟨_, hexec, answers_respond _ _, noStateChange_respond s 0⟩
  · have hdec : Decodes l.toNat h.toNat s _ := .flat (by omega) hflat.symm
    have hexec := exec_dec_of_decodes hf hle hmax hinv.stk_empty hflat.le hdec
    have hrp : (fillCells (h.toNat - l.toNat - 1) (l.toNat + 1) (s.cellAt l.toNat) s).rp = s.rp := by rw [fillCells_eq]
    rw [hrp, Nat.sub_self] at hexec
    refine ⟨_, hexec, answers_respond _ _, hdec.sameControl _, ⟨hdec.bits, congrArg List.length hdec.bits, hrp⟩,
      fun j h1 h2 => ?_, fun j => hdec.sameCell⟩
    rw [respond_seq, read_fillCells, if_pos (by omega)]

end Sys2Proof.Machine

/-!
O45, O46, O49: the round trip (R133, R134). A field is the distance of the midpoint from the low endpoint, written in
bits that hold it; so the unread bits that begin with a code stream decode to its sequence (`decodes_of_stream`), and
the bits that a completed `DecNode` consumed are the code stream of the cells it left (`Decodes.reencodes`).
-/

namespace Sys2Proof.Machine

/-! ### Nondecreasing ranges -/

/-- Two ranges that meet in an index make one. -/
theorem Nondecreasing.join {f : Nat → Nat} {l m h : Nat} (hleft : Nondecreasing f l m) (hright : Nondecreasing f m h) :
    Nondecreasing f l h := by
  intro i hli hih
  rcases Nat.lt_or_ge m i with hmi | him
  · exact hright i hmi hih
  · exact hleft i hli him

theorem Nondecreasing.congr {f g : Nat → Nat} {l h : Nat} (hf : Nondecreasing f l h)
    (hfg : ∀ i, l ≤ i → i ≤ h → g i = f i) : Nondecreasing g l h := by
  intro i hli hih
  rw [hfg (i - 1) (by omega) (by omega), hfg i hli.le hih]
  exact hf i hli hih

/-- A range without an interior is nondecreasing if its endpoints are. -/
theorem nondecreasing_leaf {f : Nat → Nat} {l h : Nat} (hshort : h - l ≤ 1) (hends : f l ≤ f h) :
    Nondecreasing f l h := by
  intro i hli hih
  rwa [show i - 1 = l by omega, show i = h by omega]

/-- The fill of a flat range leaves it constant, its endpoints included (R129). -/
theorem cellAt_fillCells_flat {s : State} {l h i : Nat} (hflat : s.cellAt h = s.cellAt l) (hli : l ≤ i) (hih : i ≤ h) :
    (fillCells (h - l - 1) (l + 1) (s.cellAt l) s).cellAt i = s.cellAt l := by
  rw [cellAt_fillCells]
  split
  · rfl
  · rcases (by omega : i = l ∨ i = h) with rfl | rfl
    · rfl
    · exact hflat

/-! ### From a stream to its sequence -/

/-- The front of the unread bits, as the field of a node. -/
theorem nodeField_of_unread {s : State} {l h d : Nat} {rest : List Bool} (hd : d ≤ s.cellAt h - s.cellAt l)
    (hunread : s.unread = tobits (s.nodeWidth l h) d ++ rest) :
    s.nodeField l h = d ∧ (s.nodeDecoded l h).unread = rest := by
  constructor
  · rw [State.nodeField, hunread, List.take_left' (length_tobits ..), State.nodeWidth,
      frombits_tobits (lt_two_pow_gw hd)]
  · rw [nodeDecoded_unread, hunread, List.drop_left' (length_tobits ..)]

/-- A node has at least one bit, so unread bits that begin with its field are there to be consumed. -/
theorem nodeWidth_le_of_unread {s : State} {l h d : Nat} {rest : List Bool} (hends : s.cellAt l < s.cellAt h)
    (hunread : s.unread = tobits (s.nodeWidth l h) d ++ rest) : s.rp + s.nodeWidth l h ≤ s.wp := by
  have hlen := length_unread s
  have hpos : 1 ≤ s.nodeWidth l h := gw_pos hends
  rw [hunread, List.length_append, length_tobits] at hlen
  omega

/-- What a run of `DecNode` that rebuilds `c` on the range leaves, where `rest` was behind the stream (R133). -/
structure Rebuilds (c : Nat → Nat) (l h : Nat) (rest : List Bool) (s t : State) : Prop where
  decodes : Decodes l h s t
  cells : ∀ i, l ≤ i → i ≤ h → t.cellAt i = c i
  unread : t.unread = rest
  rp : t.rp = s.rp + (encBits c l h).length

/-- Where the unread bits begin with the code stream of a nondecreasing `c` whose endpoints are in place, `DecNode`
rebuilds `c` and consumes the stream (R133). -/
theorem decodes_of_stream {c : Nat → Nat} {l h : Nat} {rest : List Bool} {s : State} (hc : Nondecreasing c l h)
    (hunread : s.unread = encBits c l h ++ rest) (hl : s.cellAt l = c l) (hh : s.cellAt h = c h) :
    ∃ t, Rebuilds c l h rest s t := by
  induction l, h using node_induction generalizing s rest with
  | leaf l h hshort =>
    rw [encBits_leaf c hshort] at hunread
    refine ⟨s, .leaf hshort, fun i h1 h2 => ?_, hunread, by rw [encBits_leaf c hshort]; rfl⟩
    rcases (by omega : i = l ∨ i = h) with rfl | rfl
    · exact hl
    · exact hh
  | node l h hlt ihleft ihright =>
    obtain ⟨hlm, hmh⟩ := mid_bounds hlt
    by_cases hflat : c h = c l
    · rw [encBits_flat hflat] at hunread
      have hdec : Decodes l h s _ := .flat hlt (by rw [hl, hh, hflat])
      have hframe := fillCells_eq (h - l - 1) (l + 1) (s.cellAt l) s
      refine ⟨_, hdec, fun i h1 h2 => ?_, ?_, by rw [hframe, encBits_flat hflat]; rfl⟩
      · have hlow : c l ≤ c i := hc.le le_rfl h1 h2
        have hhigh : c i ≤ c h := hc.le h1 h2 le_rfl
        rw [cellAt_fillCells_flat (by rw [hl, hh, hflat]) h1 h2]
        omega
      · rw [hframe]; exact hunread
    · have hcl : c l ≤ c (mid l h) := hc.le le_rfl hlm.le hmh.le
      have hcm : c (mid l h) ≤ c h := hc.le hlm.le hmh.le le_rfl
      have hends : s.cellAt l < s.cellAt h := by omega
      have hd : c (mid l h) - c l ≤ s.cellAt h - s.cellAt l := by omega
      rw [encBits_node hlt hflat, ← hl, ← hh, ← State.nodeWidth, hl, List.append_assoc, List.append_assoc] at hunread
      obtain ⟨hfield, hunread'⟩ := nodeField_of_unread hd hunread
      have hmid : (s.nodeDecoded l h).cellAt (mid l h) = c (mid l h) := by
        rw [nodeDecoded_cellAt_mid, hfield]; omega
      obtain ⟨u, hu⟩ := ihleft (hc.mono le_rfl hmh.le) hunread' ((sameCell_nodeDecoded s hlm.ne).2.trans hl) hmid
      have huh : u.cellAt h = c h :=
        ((sameCell_nodeDecoded s hmh.ne').trans (hu.decodes.sameCell (.inr hmh.le))).2.trans hh
      obtain ⟨t, ht⟩ := ihright (hc.mono hlm.le le_rfl) hu.unread (hu.cells _ hlm.le le_rfl) huh
      refine ⟨t, .node hlt hends.ne' (nodeWidth_le_of_unread hends hunread) (hfield ▸ hd) hu.decodes ht.decodes,
        fun i h1 h2 => ?_, ht.unread, ?_⟩
      · rcases Nat.le_total i (mid l h) with him | hmi
        · exact (ht.decodes.sameCell (.inl him)).2.trans (hu.cells i h1 him)
        · exact ht.cells i hmi h2
      · rw [ht.rp, hu.rp, nodeDecoded_rp, encBits_node hlt hflat, State.nodeWidth, hl, hh]
        simp only [List.length_append, length_tobits]
        omega

/-! ### From a decoded range to its stream -/

/-- The bits of a node's field, read back from its value. -/
theorem tobits_nodeField {s : State} {l h : Nat} (hwp : s.rp + s.nodeWidth l h ≤ s.wp) :
    tobits (s.nodeWidth l h) (s.nodeField l h) ++ (s.nodeDecoded l h).unread = s.unread := by
  have hlen : (s.unread.take (s.nodeWidth l h)).length = s.nodeWidth l h := by
    rw [List.length_take, length_unread]; omega
  have hbits := tobits_frombits (s.unread.take (s.nodeWidth l h))
  rw [hlen] at hbits
  rw [State.nodeField, hbits, nodeDecoded_unread, List.take_append_drop]

/-- A completed `DecNode` leaves a nondecreasing range, and has consumed exactly its code stream (R134). -/
theorem Decodes.reencodes {l h : Nat} {s t : State} (hdec : Decodes l h s t) (hends : s.cellAt l ≤ s.cellAt h) :
    Nondecreasing t.cellAt l h ∧ s.unread = encBits t.cellAt l h ++ t.unread ∧
      t.rp = s.rp + (encBits t.cellAt l h).length := by
  induction hdec with
  | leaf hshort => exact ⟨nondecreasing_leaf hshort hends, by rw [encBits_leaf _ hshort]; exact ⟨rfl, rfl⟩⟩
  | @flat l h s hlt hflat =>
    have hcells (i : Nat) (h1 : l ≤ i) (h2 : i ≤ h) := cellAt_fillCells_flat hflat h1 h2
    refine ⟨fun i h1 h2 => ?_, ?_⟩
    · rw [hcells i h1.le h2, hcells (i - 1) (by omega) (by omega)]
    · rw [encBits_flat (by rw [hcells h (by omega) le_rfl, hcells l le_rfl (by omega)]), fillCells_eq]
      exact ⟨rfl, rfl⟩
  | @node l h s u t hlt hne hwp hcode left right ihleft ihright =>
    obtain ⟨hlm, hmh⟩ := mid_bounds hlt
    have hdl : (s.nodeDecoded l h).cellAt l = s.cellAt l := (sameCell_nodeDecoded s hlm.ne).2
    have hdm := nodeDecoded_cellAt_mid s l h
    have hum : u.cellAt (mid l h) = _ := (left.sameCell (.inr le_rfl)).2.trans hdm
    have huh : u.cellAt h = s.cellAt h := ((sameCell_nodeDecoded s hmh.ne').trans (left.sameCell (.inr hmh.le))).2
    obtain ⟨hmono, hunread, hrp⟩ := ihleft (by omega)
    obtain ⟨hmono', hunread', hrp'⟩ := ihright (by omega)
    have hback (i : Nat) (_ : l ≤ i) (him : i ≤ mid l h) : t.cellAt i = u.cellAt i := (right.sameCell (.inl him)).2
    have hstream : encBits t.cellAt l h =
        tobits (s.nodeWidth l h) (s.nodeField l h) ++
          (encBits u.cellAt l (mid l h) ++ encBits t.cellAt (mid l h) h) := by
      have htl : t.cellAt l = s.cellAt l :=
        (hback l le_rfl hlm.le).trans ((left.sameCell (.inl le_rfl)).2.trans hdl)
      have hth : t.cellAt h = s.cellAt h := (right.sameCell (.inr le_rfl)).2.trans huh
      have htm : t.cellAt (mid l h) - t.cellAt l = s.nodeField l h := by
        rw [hback _ hlm.le le_rfl, hum, htl, Nat.add_sub_cancel_left]
      rw [encBits_node hlt (by rwa [htl, hth]), htm, htl, hth, State.nodeWidth, encBits_congr hback]
    refine ⟨(hmono.congr hback).join hmono', ?_, ?_⟩
    · rw [hstream, List.append_assoc, List.append_assoc, ← hunread', ← hunread, tobits_nodeField hwp]
    · rw [hstream, hrp', hrp, nodeDecoded_rp]
      simp only [List.length_append, length_tobits]
      omega

/-! ### The obligations -/

/-- Settles O45: the endpoints of `c` are ordered, so DEC passes its checks and does what `DecNode` does. -/
theorem decReconstructsTheEncodedSequence : Obligations.DecReconstructsTheEncodedSequence := by
  intro s l h c rest hinv hf hle hmax hc hunread hl hh
  obtain ⟨u, hu⟩ := decodes_of_stream hc hunread hl hh
  have hends : s.cellAt l.toNat ≤ s.cellAt h.toNat := by
    rw [hl, hh]
    exact hc.le le_rfl hle le_rfl
  have hexec := exec_dec_of_decodes hf hle hmax hinv.stk_empty hends hu.decodes
  rw [hu.rp, Nat.add_sub_cancel_left] at hexec
  exact ⟨_, hexec, answers_respond _ _, hu.rp, hu.unread, hu.cells, fun j => hu.decodes.sameCell, hu.decodes.bits,
    hu.decodes.sameControl _⟩

/-- Settles O46: by `Decodes.reencodes`; the cells fit because DEC keeps the invariant, and INVERT completes on a
nondecreasing range. -/
theorem decOutputIsNondecreasingAndReencodes : Obligations.DecOutputIsNondecreasingAndReencodes := by
  intro s t l h hinv hf hexec ht
  obtain ⟨hle, hmax, hends, u, hdec, rfl⟩ := exec_dec_completed hf hinv.stk_empty hexec ht
  obtain ⟨hmono, hunread, hrp⟩ := hdec.reencodes hends
  obtain ⟨t', hexec', hinv'⟩ := exec_inv hinv.commandInv hinv.stk_empty (.dec l h)
  cases hexec.symm.trans hexec'
  have hcfg := exec_cfg hexec
  refine ⟨hmono, fun i _ _ => hcfg ▸ hinv'.cellAt_lt i, hunread, hrp, fun n hzero hn => ?_⟩
  refine exec_invert_completes ht (by rw [hcfg]; omega) ?_
  rwa [hzero, ← Nat.add_sub_cancel (n := h.toNat) (m := 1), ← hn] at hmono

/-- Settles O49: the buffer holds the code stream of the cells ENC read and nothing else unread, so O45 applies. -/
theorem encThenDecRestoresTheCells : Obligations.EncThenDecRestoresTheCells := by
  intro s t u l h hinv hf hempty henc ht huinv huf humax hsame hul huh
  obtain ⟨hle, -, hmono, rfl⟩ := exec_enc_completed hf hinv.stk_empty henc ht
  obtain ⟨hbits, hwp, hrp⟩ := hsame
  have hunread : u.unread = encBits s.cellAt l.toNat h.toNat ++ [] := by
    rw [List.append_nil, unread_eq, hbits, hrp]
    exact List.drop_left' (hempty.symm ▸ rfl)
  obtain ⟨v, hdec, ⟨hrsp, -⟩, hvrp, -, hcells, -, hvbits, -⟩ :=
    decReconstructsTheEncodedSequence u l h s.cellAt [] huinv huf hle humax hmono hunread hul huh
  refine ⟨v, hdec, ?_, hrsp, hcells⟩
  rw [hvrp, wp_eq, hvbits, hbits, hrp]
  simp [State.encoded, hempty, wp_eq]

end Sys2Proof.Machine

/-!
O50 to O53: BUILD and INVERT (42_cumsum.md). Each command gets one rule per branch of its checks, and either that ends
without a fault replaces its cells by one function of R150 and leaves everything else alone (`CellsReplaced`). For
`n <= 1` neither pass has a step and no cell is written; for `n >= 2` what the passes leave is `buildLoop_holds` and
`invertLoop_holds`. That each restores what the other replaced is then a law of the two functions (R151).
-/

namespace Sys2Proof.Machine

/-! ### The functions of R150 -/

theorem firstDiff_of_pos (f : Nat → Nat) {i : Nat} (h : 0 < i) : firstDiff f i = f i - f (i - 1) := if_neg h.ne'

theorem prefixSum_eq_sum (f : Nat → Nat) (n : Nat) : prefixSum f n = ((List.range (n + 1)).map f).sum := by
  induction n with
  | zero => exact List.sum_singleton.symm
  | succ n ih =>
    rw [prefixSum, ih, List.range_succ (n := n + 1), List.map_append, List.sum_append, List.map_singleton,
      List.sum_singleton]

/-- Settles O52: the laws of R151, one lemma each. -/
theorem buildAndInvertLaws : Obligations.BuildAndInvertLaws :=
  ⟨fun f n => ⟨nondecreasing_prefixSum f 0 n, prefixSum_eq_sum f n, fun i _ => firstDiff_prefixSum f i⟩,
    fun _ _ hmono _ hi => prefixSum_firstDiff (hmono.mono le_rfl hi)⟩

/-! ### What a completed BUILD or INVERT does -/

/-- `t` is `s` with the first `n` cells replaced by the values of `f` and the response 0: the other cells, the buffer and
all control state are unchanged (R152, R155), and for `n <= 1` every cell is (R153, R156). -/
structure CellsReplaced (n : Nat) (f : Nat → Nat) (s t : State) : Prop where
  answers : Answers t 0
  control : SameControl s t
  buffer : SameBuffer s t
  cellAt : ∀ j, j < n → t.cellAt j = f j
  other : ∀ j, n ≤ j → SameCell s t j
  short : n ≤ 1 → SameCells s t

namespace CellsReplaced

variable {n : Nat} {f g : Nat → Nat} {s t u : State}

/-- A pass over the store that leaves `f` in two or more cells, where `f 0` is the value cell 0 had, and touches no other
cell. -/
theorem of_pass (hframe : u = { s with seq := u.seq }) (hzero : f 0 = s.cellAt 0)
    (hlong : 2 ≤ n → HoldsBelow n f u) (hother : ∀ j, n ≤ 1 ∨ n ≤ j → SameCell s u j) :
    CellsReplaced n f s (u.respond 0) where
  answers := answers_respond u 0
  control := by rw [hframe]; exact .refl s
  buffer := by rw [hframe]; exact .refl s
  cellAt j hj := by
    rw [respond_cellAt]
    rcases Nat.lt_or_ge 1 n with hn | hn
    · exact (hlong hn).cellAt hj
    · obtain rfl : j = 0 := by omega
      rw [(hother 0 (.inl hn)).2, hzero]
  other j hj := hother j (.inr hj)
  short hn j := hother j (.inl hn)

/-- Replacing the replaced cells by the values they had restores every cell. -/
theorem restores (ht : CellsReplaced n f s t) (hu : CellsReplaced n g t u) (hg : ∀ j < n, g j = s.cellAt j) (j : Nat) :
    u.cellAt j = s.cellAt j := by
  rcases Nat.lt_or_ge j n with hj | hj
  · rw [hu.cellAt j hj, hg j hj]
  · exact ((ht.other j hj).trans (hu.other j hj)).2

end CellsReplaced

/-! ### One rule per branch of each command (R152, R155) -/

/-- BUILD's pass after cell `i` raises RANGE at the least index `m` whose running sum does not fit, if cell `i` holds the
running sum of some `f` and the cells after it hold `f`. -/
theorem buildLoop_overflows {f : Nat → Nat} {k i m : Nat} {s : State} (hi : s.cellAt i = prefixSum f i)
    (hcells : ∀ j, i < j → j ≤ i + k → s.cellAt j = f j) (him : i < m) (hmk : m ≤ i + k)
    (hover : 2 ^ s.cfg.vw ≤ prefixSum f m) (hleast : ∀ j, j < m → prefixSum f j < 2 ^ s.cfg.vw) :
    buildLoop k i s = .error ⟨.range, zextNat m⟩ := by
  induction k generalizing i s with
  | zero => omega
  | succ k ih =>
    have hsum : s.cellAt i + s.cellAt (i + 1) = prefixSum f (i + 1) := by
      rw [hi, hcells (i + 1) (by omega) (by omega), prefixSum]
    have hstep := buildLoop_succ k i s
    rw [hsum] at hstep
    rcases hstep with ⟨hrange, e⟩ | ⟨hfit, e⟩ <;> rw [e]
    · have hlast : ¬i + 1 < m := fun hlt => (hleast (i + 1) hlt).not_ge hrange
      obtain rfl : m = i + 1 := by omega
      rfl
    · have hne : m ≠ i + 1 := by
        rintro rfl
        exact hfit.not_ge hover
      refine ih (cellAt_setCell_same _ _ _) (fun j h1 h2 => ?_) (by omega) (by omega) hover hleast
      rw [cellAt_setCell_other _ _ (by omega), hcells j (by omega) (by omega)]

section Commands

variable {n : IndexWord} {s t : State} (hf : s.fault = false)
include hf

theorem build_raises_badarg (harg : s.cfg.nmax < n.toNat) : RaisesOn (.build n) s .badarg (n.setWidth 64) := by
  apply raisesOn_of_exec
  rw [exec, execBuild, runCommand_live _ hf, if_pos harg, zextA]

/-- A fault of BUILD's pass is a fault of BUILD. -/
theorem build_raises_of_buildLoop {e : Raise} (hmax : n.toNat ≤ s.cfg.nmax)
    (hloop : buildLoop (n.toNat - 1) 0 (writeFirstCell n.toNat s) = .error e) :
    RaisesOn (.build n) s e.cause e.info := by
  apply raisesOn_of_exec
  rw [exec, execBuild, runCommand_live _ hf, if_neg hmax.not_gt, hloop]

/-- Cell 0 fits by the invariant, so the least sum that does not fit is one the pass forms. -/
theorem build_raises_range {i : Nat} (hinv : s.Inv) (hmax : n.toNat ≤ s.cfg.nmax) (hi : i < n.toNat)
    (hover : 2 ^ s.cfg.vw ≤ prefixSum s.cellAt i) (hleast : ∀ j, j < i → prefixSum s.cellAt j < 2 ^ s.cfg.vw) :
    RaisesOn (.build n) s .range (BitVec.ofNat 64 i) := by
  have hpos : i ≠ 0 := by
    rintro rfl
    exact (hinv.cellAt_lt 0).not_ge hover
  refine build_raises_of_buildLoop (e := ⟨.range, zextNat i⟩) hf hmax ?_
  refine buildLoop_overflows (f := s.cellAt) (writeFirstCell_cellAt ..) (fun j _ _ => writeFirstCell_cellAt ..)
    (by omega) (by omega) ?_ ?_ <;> rwa [writeFirstCell_cfg]

/-- A BUILD that does not fault has replaced its cells by their prefix sums (R152). -/
theorem exec_build_completed (hexec : exec (.build n) s = .next t) (ht : t.fault = false) :
    n.toNat ≤ s.cfg.nmax ∧ CellsReplaced n.toNat (prefixSum s.cellAt) s t := by
  have hmax : n.toNat ≤ s.cfg.nmax :=
    Nat.not_lt.1 fun harg => not_raisesOn hexec ht _ _ (build_raises_badarg hf harg)
  cases hloop : buildLoop (n.toNat - 1) 0 (writeFirstCell n.toNat s) with
  | error e => exact absurd (build_raises_of_buildLoop hf hmax hloop) (not_raisesOn hexec ht _ _)
  | ok u =>
    cases hexec.symm.trans (exec_build_ok hf hmax hloop)
    have hframe : u = { s with seq := u.seq } := by rw [buildLoop_frame hloop, writeFirstCell_frame]
    exact ⟨hmax, .of_pass hframe rfl (buildLoop_holds · hloop) fun j hj =>
      (sameCell_writeFirstCell s (by omega)).trans (sameCell_buildLoop hloop (by omega))⟩

theorem invert_raises_badarg (harg : s.cfg.nmax < n.toNat) : RaisesOn (.invert n) s .badarg (n.setWidth 64) := by
  apply raisesOn_of_exec
  rw [exec, execInvert, runCommand_live _ hf, if_pos harg, zextA]

theorem invert_raises_order {i : Nat} (hmax : n.toNat ≤ s.cfg.nmax)
    (hdesc : IsFirstDescent s.cellAt 0 (n.toNat - 1) i) : RaisesOn (.invert n) s .order (BitVec.ofNat 64 i) := by
  have hfirst : firstDescent s.cellAt (n.toNat - 1) 0 = some i := by
    rwa [firstDescent_eq_some_iff, Nat.zero_add]
  apply raisesOn_of_exec
  rw [exec, execInvert, runCommand_live _ hf, if_neg hmax.not_gt, hfirst]
  rfl

/-- An INVERT that does not fault has replaced its cells, which do not descend, by their first differences (R155). -/
theorem exec_invert_completed (hexec : exec (.invert n) s = .next t) (ht : t.fault = false) :
    n.toNat ≤ s.cfg.nmax ∧ Nondecreasing s.cellAt 0 (n.toNat - 1) ∧
      CellsReplaced n.toNat (firstDiff s.cellAt) s t := by
  have hmax : n.toNat ≤ s.cfg.nmax :=
    Nat.not_lt.1 fun harg => not_raisesOn hexec ht _ _ (invert_raises_badarg hf harg)
  cases hfirst : firstDescent s.cellAt (n.toNat - 1) 0 with
  | some i =>
    rw [firstDescent_eq_some_iff, Nat.zero_add] at hfirst
    exact absurd (invert_raises_order hf hmax hfirst) (not_raisesOn hexec ht _ _)
  | none =>
    rw [firstDescent_eq_none_iff, Nat.zero_add] at hfirst
    cases hexec.symm.trans (exec_invert_ok hf hmax hfirst)
    refine ⟨hmax, hfirst, .of_pass ?_ rfl (invertLoop_holds s) fun j hj =>
      (sameCell_writeFirstCell s (by omega)).trans (sameCell_invertLoop _ _ (by omega))⟩
    rw [invertLoop_frame, writeFirstCell_frame]

end Commands

/-! ### The obligations -/

/-- Settles O50: one rule per clause. -/
theorem buildReplacesByPrefixSums : Obligations.BuildReplacesByPrefixSums := by
  refine fun n ub => ⟨decode_cmdWord .., fun s hinv hf => ⟨build_raises_badarg hf, ?_, fun hmax hfit => ?_⟩⟩
  · exact fun hmax i => build_raises_range hf hinv hmax
  · obtain ⟨t, hexec, ht⟩ := exec_build_completes hf hmax hfit
    obtain ⟨-, hcells⟩ := exec_build_completed hf hexec ht
    exact ⟨t, hexec, hcells.answers, hcells.control, hcells.buffer, hcells.cellAt, hcells.other, hcells.short⟩

/-- Settles O51: one rule per clause. -/
theorem invertReplacesByDifferences : Obligations.InvertReplacesByDifferences := by
  refine fun n ub => ⟨decode_cmdWord .., fun s hf => ⟨invert_raises_badarg hf, ?_, fun hmax hmono => ?_⟩⟩
  · exact fun hmax i => invert_raises_order hf hmax
  · obtain ⟨t, hexec, ht⟩ := exec_invert_completes hf hmax hmono
    obtain ⟨-, -, hcells⟩ := exec_invert_completed hf hexec ht
    refine ⟨t, hexec, hcells.answers, hcells.control, hcells.buffer, hcells.cellAt 0, fun i hpos hi => ?_,
      hcells.other, hcells.short⟩
    rw [hcells.cellAt i hi, firstDiff_of_pos _ hpos]

/-- Settles O53: the second command finds the function of R150 the first one left, so it completes and leaves the other
function of it, which by R151 is what stood there before. -/
theorem buildAndInvertUndoEachOther : Obligations.BuildAndInvertUndoEachOther := by
  intro n s t hinv hf
  refine ⟨fun hexec ht => ?_, fun hexec ht => ?_⟩
  · obtain ⟨hmax, hbuilt⟩ := exec_build_completed hf hexec ht
    rw [← exec_cfg hexec] at hmax
    have hmono : Nondecreasing t.cellAt 0 (n.toNat - 1) := by
      intro j hpos hj
      rw [hbuilt.cellAt j (by omega), hbuilt.cellAt (j - 1) (by omega)]
      exact nondecreasing_prefixSum s.cellAt 0 j j hpos le_rfl
    obtain ⟨u, hexec', hu⟩ := exec_invert_completes ht hmax hmono
    obtain ⟨-, -, hinverted⟩ := exec_invert_completed ht hexec' hu
    refine ⟨hmono, u, hexec', hu, hbuilt.restores hinverted fun j hj => ?_⟩
    rw [firstDiff_congr fun i hi => hbuilt.cellAt i (by omega), firstDiff_prefixSum]
  · obtain ⟨hmax, hmono, hinverted⟩ := exec_invert_completed hf hexec ht
    rw [← exec_cfg hexec] at hmax
    have hsum (j : Nat) (hj : j < n.toNat) : prefixSum t.cellAt j = s.cellAt j := by
      rw [prefixSum_congr fun i hi => hinverted.cellAt i (by omega),
        prefixSum_firstDiff (hmono.mono le_rfl (by omega))]
    have hfit (j : Nat) (hj : j < n.toNat) : prefixSum t.cellAt j < 2 ^ t.cfg.vw := by
      rw [hsum j hj, exec_cfg hexec]
      exact hinv.cellAt_lt j
    obtain ⟨u, hexec', hu⟩ := exec_build_completes ht hmax hfit
    obtain ⟨-, hbuilt⟩ := exec_build_completed ht hexec' hu
    exact ⟨u, hexec', hu, hinverted.restores hbuilt hsum⟩

end Sys2Proof.Machine

/-!
O54 to O59: the mapper (43_mapper.md). `map` and `unmap` get their formulas once, and the rest of their laws are
arithmetic over those: the two are inverse to each other, and the width of `map e` tells the signed width of `e`
(`mapInt_lt_two_pow_iff`). MAP, UNMAP, STE and LDE get one rule per branch of their checks, and a word of 64 bits is wide
enough that the conversion of the result loses nothing.
-/

namespace Sys2Proof.Machine

/-! ### The formulas of R161 and R162 -/

theorem mapInt_of_nonneg {e : Int} (he : 0 ≤ e) : (mapInt e : Int) = 2 * e := by
  rw [mapInt, if_pos he]
  omega

theorem mapInt_of_neg {e : Int} (he : e < 0) : (mapInt e : Int) = -2 * e - 1 := by
  rw [mapInt, if_neg he.not_ge]
  omega

theorem two_mul_unmapNat_of_even {n : Nat} (hn : n % 2 = 0) : 2 * unmapNat n = n := by
  rw [unmapNat, if_pos hn]
  omega

theorem two_mul_unmapNat_of_odd {n : Nat} (hn : n % 2 = 1) : 2 * unmapNat n = -(n + 1) := by
  rw [unmapNat, if_neg (by omega)]
  omega

/-- Even numbers stand for the residuals that are not negative (R161). -/
theorem mapInt_even_iff (e : Int) : mapInt e % 2 = 0 ↔ 0 ≤ e := by
  rcases lt_or_ge e 0 with he | he
  · have hmap := mapInt_of_neg he
    omega
  · have hmap := mapInt_of_nonneg he
    omega

theorem unmapNat_mapInt (e : Int) : unmapNat (mapInt e) = e := by
  rcases lt_or_ge e 0 with he | he
  · have hmap := mapInt_of_neg he
    have hunmap := two_mul_unmapNat_of_odd (n := mapInt e) (by omega)
    omega
  · have hmap := mapInt_of_nonneg he
    have hunmap := two_mul_unmapNat_of_even (n := mapInt e) (by omega)
    omega

theorem mapInt_unmapNat (n : Nat) : mapInt (unmapNat n) = n := by
  rcases Nat.mod_two_eq_zero_or_one n with hn | hn
  · have hunmap := two_mul_unmapNat_of_even hn
    have hmap := mapInt_of_nonneg (e := unmapNat n) (by omega)
    omega
  · have hunmap := two_mul_unmapNat_of_odd hn
    have hmap := mapInt_of_neg (e := unmapNat n) (by omega)
    omega

/-! ### A fixed width (R163) -/

/-- The residuals from `-p` to `p - 1` are those mapped below `2 * p`. -/
theorem mapInt_lt_two_mul_iff (p : Nat) (e : Int) : mapInt e < 2 * p ↔ -p ≤ e ∧ e ≤ p - 1 := by
  rcases lt_or_ge e 0 with he | he
  · have hmap := mapInt_of_neg he
    omega
  · have hmap := mapInt_of_nonneg he
    omega

theorem mapInt_natCast_sub_one {p : Nat} (hp : 0 < p) : mapInt (p - 1) = 2 * p - 2 := by
  have hmap := mapInt_of_nonneg (e := p - 1) (by omega)
  omega

theorem mapInt_neg_natCast {p : Nat} (hp : 0 < p) : mapInt (-p) = 2 * p - 1 := by
  have hmap := mapInt_of_neg (e := -p) (by omega)
  omega

theorem mapInt_lt_two_pow_succ_iff (k : Nat) (e : Int) : mapInt e < 2 ^ (k + 1) ↔ -2 ^ k ≤ e ∧ e ≤ 2 ^ k - 1 := by
  have hwidth := mapInt_lt_two_mul_iff (2 ^ k) e
  rwa [← pow_succ', Nat.cast_pow] at hwidth

theorem mapInt_two_pow_sub_one (k : Nat) : mapInt (2 ^ k - 1) = 2 ^ (k + 1) - 2 := by
  have hmap := mapInt_natCast_sub_one (Nat.two_pow_pos k)
  rwa [← pow_succ', Nat.cast_pow] at hmap

theorem mapInt_neg_two_pow (k : Nat) : mapInt (-2 ^ k) = 2 ^ (k + 1) - 1 := by
  have hmap := mapInt_neg_natCast (Nat.two_pow_pos k)
  rwa [← pow_succ', Nat.cast_pow] at hmap

/-- The residuals whose number fits a cell are those of the signed range of its width. -/
theorem mapInt_lt_two_pow_iff {w : Nat} (hw : 1 ≤ w) (e : Int) :
    mapInt e < 2 ^ w ↔ -2 ^ (w - 1) ≤ e ∧ e ≤ 2 ^ (w - 1) - 1 := by
  rw [← mapInt_lt_two_pow_succ_iff, Nat.sub_add_cancel hw]

/-- A number that fits a cell stands for a residual of the signed range of its width. -/
theorem unmapNat_bounds {w n : Nat} (hw : 1 ≤ w) (hn : n < 2 ^ w) :
    -2 ^ (w - 1) ≤ unmapNat n ∧ unmapNat n ≤ 2 ^ (w - 1) - 1 := by
  rwa [← mapInt_lt_two_pow_iff hw, mapInt_unmapNat]

/-! ### Words of 64 bits -/

/-- The residual of every word is one of the signed range of 64 bits (R10). -/
theorem toInt_bounds (w : DataWord) : -2 ^ (64 - 1) ≤ w.toInt ∧ w.toInt ≤ 2 ^ (64 - 1) - 1 :=
  ⟨w.le_toInt, Int.le_sub_one_of_lt w.toInt_lt⟩

theorem mapInt_toInt_lt (w : DataWord) : mapInt w.toInt < 2 ^ 64 :=
  (mapInt_lt_two_pow_iff (by decide) _).2 (toInt_bounds w)

/-- The number of a word's residual is answered unchanged (R164). -/
theorem toNat_zextNat_mapInt (w : DataWord) : (zextNat (mapInt w.toInt)).toNat = mapInt w.toInt :=
  Nat.mod_eq_of_lt (mapInt_toInt_lt w)

/-- The residual of a number below `2 ^ 64` is answered unchanged (R165). -/
theorem toInt_sext64_unmapNat {n : Nat} (hn : n < 2 ^ 64) : (sext64 (unmapNat n)).toInt = unmapNat n := by
  obtain ⟨hlow, hhigh⟩ := unmapNat_bounds (by decide) hn
  exact BitVec.toInt_ofInt_eq_self (by decide) hlow (Int.lt_of_le_sub_one hhigh)

theorem sext64_unmapNat_mapInt (w : DataWord) : sext64 (unmapNat (mapInt w.toInt)) = w := by
  rw [unmapNat_mapInt, sext64, BitVec.ofInt_toInt]

/-- Shifted right by all places but one, a word is its sign in every place. -/
theorem sshiftRight_63 (w : DataWord) : w.sshiftRight 63 = if w.toInt < 0 then BitVec.allOnes 64 else 0#64 := by
  apply BitVec.eq_of_toInt_eq
  have hbounds := toInt_bounds w
  rw [BitVec.toInt_sshiftRight, Int.shiftRight_eq_div_pow]
  split
  · rw [BitVec.toInt_allOnes]
    omega
  · rw [BitVec.toInt_zero]
    omega

/-- The shift and xor form of `map` (R161). -/
theorem ofNat_mapInt (w : DataWord) : BitVec.ofNat 64 (mapInt w.toInt) = (w <<< 1) ^^^ w.sshiftRight 63 := by
  apply BitVec.eq_of_toNat_eq
  rw [BitVec.toNat_ofNat, Nat.mod_eq_of_lt (mapInt_toInt_lt w), sshiftRight_63]
  have hword := w.toInt_eq_toNat_cond
  split
  case isTrue hneg =>
    have hmap := mapInt_of_neg hneg
    rw [BitVec.xor_allOnes]
    bv_omega
  case isFalse hpos =>
    have hmap := mapInt_of_nonneg (not_lt.1 hpos)
    rw [BitVec.xor_zero]
    bv_omega

/-- The shift and xor form of `unmap` (R162): the lowest bit, negated, is the sign in every place. -/
theorem ofInt_unmapNat (w : DataWord) : BitVec.ofInt 64 (unmapNat w.toNat) = (w >>> 1) ^^^ (0 - (w &&& 1)) := by
  have hlow : (w &&& 1).toNat = w.toNat % 2 := by
    rw [BitVec.toNat_and]
    exact Nat.and_one_is_mod _
  apply BitVec.eq_of_toNat_eq
  rw [BitVec.toNat_ofInt]
  rcases Nat.mod_two_eq_zero_or_one w.toNat with hw | hw
  · have hsign : 0 - (w &&& 1) = 0#64 := by bv_omega
    have hunmap := two_mul_unmapNat_of_even hw
    rw [hsign, BitVec.xor_zero]
    bv_omega
  · have hsign : 0 - (w &&& 1) = BitVec.allOnes 64 := by
      rw [← BitVec.neg_one_eq_allOnes]
      bv_omega
    have hunmap := two_mul_unmapNat_of_odd hw
    rw [hsign, BitVec.xor_allOnes]
    bv_omega

/-- Settles O54: the formulas, and what follows from them by arithmetic. -/
theorem mapperLaws : Obligations.MapperLaws := by
  refine ⟨fun e => ⟨mapInt_of_nonneg, fun he => ?_, mapInt_even_iff e⟩,
    fun n => ⟨two_mul_unmapNat_of_even, two_mul_unmapNat_of_odd⟩, unmapNat_mapInt, mapInt_unmapNat, fun k e => ?_,
    fun k => ⟨mapInt_two_pow_sub_one k, mapInt_neg_two_pow k⟩, fun w => ⟨ofNat_mapInt w, ofInt_unmapNat w⟩⟩
  · rw [mapInt_of_neg he, abs_of_neg he, neg_mul_comm]
  · rw [← mapInt_lt_two_pow_succ_iff, Nat.le_sub_one_iff_lt (Nat.two_pow_pos _)]

/-! ### One rule per branch of each command (R164, R165, R166, R168) -/

section Commands

variable {s : State} {i : IndexWord} {e n : DataWord} (hf : s.fault = false)
include hf

theorem exec_map_live : exec (.map e) s = .next (s.respond (zextNat (mapInt e.toInt))) := by
  rw [exec, execMap, runCommand_live _ hf, sint64]

theorem exec_unmap_live : exec (.unmap n) s = .next (s.respond (sext64 (unmapNat n.toNat))) := by
  rw [exec, execUnmap, runCommand_live _ hf]

theorem ste_raises_badarg (harg : s.cfg.nmax ≤ i.toNat) : RaisesOn (.ste i e) s .badarg (i.setWidth 64) := by
  apply raisesOn_of_exec
  rw [exec, execSte, runCommand_live _ hf, if_pos harg, zextA]

theorem ste_raises_range (hi : i.toNat < s.cfg.nmax) (hover : 2 ^ s.cfg.vw ≤ mapInt e.toInt) :
    RaisesOn (.ste i e) s .range (i.setWidth 64) := by
  apply raisesOn_of_exec
  rw [exec, execSte, runCommand_live _ hf, if_neg hi.not_ge, sint64, if_pos hover, zextA]

theorem exec_ste_stores (hi : i.toNat < s.cfg.nmax) (hfit : mapInt e.toInt < 2 ^ s.cfg.vw) :
    exec (.ste i e) s = .next ((s.setCell i.toNat (mapInt e.toInt)).respond 0) := by
  rw [exec, execSte, runCommand_live _ hf, if_neg hi.not_ge, sint64, if_neg hfit.not_ge]

theorem lde_raises_badarg (harg : s.cfg.nmax ≤ i.toNat) : RaisesOn (.lde i) s .badarg (i.setWidth 64) := by
  apply raisesOn_of_exec
  rw [exec, execLde, runCommand_live _ hf, if_pos harg, zextA]

theorem exec_lde_loads (hi : i.toNat < s.cfg.nmax) :
    exec (.lde i) s = .next (s.respond (sext64 (unmapNat (s.cellAt i.toNat)))) := by
  rw [exec, execLde, runCommand_live _ hf, if_neg hi.not_ge]

/-- An STE that does not fault has stored the number of its residual, whatever the cell held (R167). -/
theorem cellAt_of_exec_ste {t : State} (hexec : exec (.ste i e) s = .next t) (ht : t.fault = false) :
    t.cellAt i.toNat = mapInt e.toInt := by
  have hi : i.toNat < s.cfg.nmax :=
    Nat.not_le.1 fun harg => not_raisesOn hexec ht _ _ (ste_raises_badarg hf harg)
  have hfit : mapInt e.toInt < 2 ^ s.cfg.vw :=
    Nat.not_le.1 fun hover => not_raisesOn hexec ht _ _ (ste_raises_range hf hi hover)
  cases hexec.symm.trans (exec_ste_stores hf hi hfit)
  rw [respond_cellAt, cellAt_setCell_same]

end Commands

/-! ### The obligations -/

/-- Settles O55: 64 bits hold the number of every residual a word denotes. -/
theorem mapRespondsTheMappedValue : Obligations.MapRespondsTheMappedValue := by
  refine fun ua e => ⟨decode_cmdWord .., fun s hf => ⟨_, zextNat (mapInt e.toInt), exec_map_live hf,
    answers_respond _ _, noStateChange_respond _ _, ?_⟩⟩
  rw [toNat_zextNat_mapInt]
  exact ⟨mapInt_of_nonneg, mapInt_of_neg⟩

/-- Settles O56: 64 bits hold the residual of every number of a word. -/
theorem unmapRespondsTheResidual : Obligations.UnmapRespondsTheResidual := by
  refine fun ua n => ⟨decode_cmdWord .., fun s hf => ⟨_, sext64 (unmapNat n.toNat), exec_unmap_live hf,
    answers_respond _ _, noStateChange_respond _ _, ?_⟩⟩
  rw [toInt_sext64_unmapNat n.isLt]
  exact ⟨two_mul_unmapNat_of_even, two_mul_unmapNat_of_odd⟩

/-- Settles O57: one rule per clause. -/
theorem steStoresTheMappedResidual : Obligations.SteStoresTheMappedResidual := by
  refine fun i e => ⟨decode_cmdWord .., fun s hf => ⟨ste_raises_badarg hf, ste_raises_range hf, fun hi hfit => ?_⟩⟩
  exact ⟨_, exec_ste_stores hf hi hfit, answers_respond _ _, .refl s, .refl s, read_write_same _ _ _,
    cellAt_setCell_same _ _ _, fun j hj => sameCell_setCell_other s _ hj⟩

/-- Settles O58: the invariant keeps the cell below `2 ^ VW`, and `VW` is at most 64. -/
theorem ldeLoadsTheResidual : Obligations.LdeLoadsTheResidual := by
  refine fun i ub => ⟨decode_cmdWord .., fun s hinv hf => ⟨lde_raises_badarg hf, fun hi => ?_⟩⟩
  obtain ⟨⟨hvw, hvw64⟩, -, -⟩ := hinv.cfg_valid
  have hcell : s.cellAt i.toNat < 2 ^ s.cfg.vw := hinv.cellAt_lt i.toNat
  have hword : s.cellAt i.toNat < 2 ^ 64 := hcell.trans_le (Nat.pow_le_pow_right Nat.two_pos hvw64)
  refine ⟨_, sext64 (unmapNat (s.cellAt i.toNat)), exec_lde_loads hf hi, answers_respond _ _,
    noStateChange_respond _ _, toInt_sext64_unmapNat hword, ?_⟩
  rw [toInt_sext64_unmapNat hword]
  exact unmapNat_bounds hvw hcell

/-- Settles O59: the residuals of the signed range are those whose number fits the cell, and LDE reads back what STE left
there. -/
theorem steThenLdeReturnsTheResidual : Obligations.SteThenLdeReturnsTheResidual := by
  intro s i e hinv hf hi
  obtain ⟨⟨hvw, -⟩, -, -⟩ := hinv.cfg_valid
  rw [← mapInt_lt_two_pow_iff hvw]
  refine ⟨fun hfit => ?_, fun hover => ste_raises_range hf hi (not_lt.1 hover), fun hvw64 => ?_⟩
  · have hload := exec_lde_loads (s := (s.setCell i.toNat (mapInt e.toInt)).respond 0) hf hi
    rw [respond_cellAt, cellAt_setCell_same, sext64_unmapNat_mapInt] at hload
    refine ⟨_, _, exec_ste_stores hf hi hfit, hload, answers_respond _ _, fun e' t' hexec => ?_⟩
    exact cellAt_of_exec_ste (s := (s.setCell i.toNat (mapInt e.toInt)).respond 0) hf hexec
  · rw [hvw64]
    exact mapInt_toInt_lt e

end Sys2Proof.Machine

/-!
O19, O20, O21, O23, O24: the system and access commands (44_system.md). RDSR, STS and LDS get one rule per branch of
their checks; the table of R24 is said once, in `readSr_of_le` and `readSr_of_gt` (which registers exist) and
`readSr_values` (what they hold). That no command but CLR clears `FAULT` is read off the ways a command ends.
-/

namespace Sys2Proof.Machine

/-! ### The status registers (R24) -/

/-- Registers 0 to 6 exist. -/
theorem readSr_of_le {r : Nat} (hr : r ≤ 6) (s : State) : ∃ v, s.readSr r = some v := by
  interval_cases r <;> exact ⟨_, rfl⟩

/-- There is no register above 6. -/
theorem readSr_of_gt {r : Nat} (hr : 6 < r) (s : State) : s.readSr r = none := by
  obtain ⟨k, rfl⟩ := Nat.exists_eq_add_of_le' hr
  rfl

/-- The status word is the number of R26. -/
theorem statusWord_eq_ofNat (c : CauseWord) (f : Bool) : statusWord c f = BitVec.ofNat 64 (16 * c.toNat + f.toNat) := by
  rw [← statusWord_toNat, BitVec.ofNat_toNat, BitVec.setWidth_eq]

/-- What each register holds, in the order of the table. -/
theorem readSr_values {s : State} {r : Nat} {v : DataWord} (hv : s.readSr r = some v) :
    (r = 0 → v = BitVec.ofNat 64 (16 * s.cause.toNat + s.fault.toNat)) ∧
    (r = 1 → v = s.finfo) ∧
    (r = 2 → v = BitVec.ofNat 64 s.bits.length) ∧
    (r = 3 → v = BitVec.ofNat 64 s.rp) ∧
    (r = 4 → v = BitVec.ofNat 64 s.cfg.vw) ∧
    (r = 5 → v = BitVec.ofNat 64 s.cfg.nmax) ∧
    (r = 6 → v = BitVec.ofNat 64 s.cfg.bcap) := by
  refine ⟨?status, ?_, ?_, ?_, ?_, ?_, ?_⟩
  case status =>
    rintro rfl
    cases hv
    exact statusWord_eq_ofNat s.cause s.fault
  all_goals
    rintro rfl
    cases hv
    rfl

/-! ### RDSR and the filter of R78 -/

/-- The filter and the list of R178 name the same register numbers. -/
theorem readableWhenFaulted_iff_mem (r : Nat) : readableWhenFaulted r = true ↔ r ∈ [0, 1, 4, 5, 6] := by
  simp [readableWhenFaulted, or_assoc]

/-- R178: the register numbers that are refused in the faulted state. -/
theorem not_runsWhenFaulted_rdsr {r : IndexWord} (hr : r.toNat = 2 ∨ r.toNat = 3 ∨ 6 < r.toNat) :
    ¬runsWhenFaulted (.rdsr r) := by
  rw [runsWhenFaulted_rdsr, ← readableWhenFaulted_iff, readableWhenFaulted_iff_mem]
  simp only [List.mem_cons, List.not_mem_nil, or_false]
  omega

/-- RDSR answers a register that exists and that the state lets it read, and changes nothing (R178). -/
theorem exec_rdsr_reads {r : IndexWord} {s : State}
    (hr : s.fault = false ∧ r.toNat ≤ 6 ∨ s.fault = true ∧ r.toNat ∈ [0, 1, 4, 5, 6]) :
    ∃ v, s.readSr r.toNat = some v ∧ ∃ t, exec (.rdsr r) s = .next t ∧ Answers t v ∧ NoStateChange s t := by
  rcases hr with ⟨hf, hle⟩ | ⟨-, hmem⟩
  · obtain ⟨v, hv⟩ := readSr_of_le hle s
    exact ⟨v, hv, s.respond v, by simp [exec, execRdsr, hf, hv], answers_respond s v, noStateChange_respond s v⟩
  · have hreadable := (readableWhenFaulted_iff_mem r.toNat).2 hmem
    obtain ⟨v, hv⟩ := readSr_of_readableWhenFaulted hreadable s
    exact ⟨v, hv, exec_rdsr_readable hreadable hv⟩

/-! ### One rule per branch of each command (R178, R179, R180) -/

section Commands

variable {s : State} {i r : IndexWord} {v : DataWord} (hf : s.fault = false)
include hf

theorem rdsr_raises_badarg (hr : 6 < r.toNat) : RaisesOn (.rdsr r) s .badarg (r.setWidth 64) := by
  apply raisesOn_of_exec
  simp [exec, execRdsr, hf, readSr_of_gt hr, zextA]

theorem sts_raises_badarg (harg : s.cfg.nmax ≤ i.toNat) : RaisesOn (.sts i v) s .badarg (i.setWidth 64) := by
  apply raisesOn_of_exec
  rw [exec, execSts, runCommand_live _ hf, if_pos harg, zextA]

theorem sts_raises_range (hi : i.toNat < s.cfg.nmax) (hover : 2 ^ s.cfg.vw ≤ v.toNat) :
    RaisesOn (.sts i v) s .range (i.setWidth 64) := by
  apply raisesOn_of_exec
  rw [exec, execSts, runCommand_live _ hf, if_neg hi.not_ge, if_pos hover, zextA]

theorem exec_sts_stores (hi : i.toNat < s.cfg.nmax) (hfit : v.toNat < 2 ^ s.cfg.vw) :
    exec (.sts i v) s = .next ((s.setCell i.toNat v.toNat).respond 0) := by
  rw [exec, execSts, runCommand_live _ hf, if_neg hi.not_ge, if_neg hfit.not_ge]

theorem lds_raises_badarg (harg : s.cfg.nmax ≤ i.toNat) : RaisesOn (.lds i) s .badarg (i.setWidth 64) := by
  apply raisesOn_of_exec
  rw [exec, execLds, runCommand_live _ hf, if_pos harg, zextA]

theorem exec_lds_loads (hi : i.toNat < s.cfg.nmax) :
    exec (.lds i) s = .next (s.respond (zextNat (s.cellAt i.toNat))) := by
  rw [exec, execLds, runCommand_live _ hf, if_neg hi.not_ge]

end Commands

/-! ### CLR -/

/-- CLR finds nothing to clear on a freshly reset block (R177). -/
theorem clear_resetWith (p : Params) : (State.resetWith p).clear = State.resetWith p := rfl

/-- After CLR `STATUS` reads 0 (R26, R177). -/
theorem exec_rdsr_status_after_clr (s : State) :
    ∃ u, exec (.rdsr 0) (s.clear.respond 0) = .next u ∧ Answers u 0 := by
  have hstatus := exec_rdsr_status (s.clear.respond 0)
  rwa [respond_cause, clear_cause, respond_fault, clear_fault, statusWord_clear] at hstatus

/-- A command that clears `FAULT` is CLR (R177). -/
theorem eq_clr_of_clears_fault {i : Instr} {s t : State} (h : exec i s = .next t) (hs : s.fault = true)
    (ht : t.fault = false) : i = .clr := by
  rcases exec_faultRegisters h with ⟨hsame, -⟩ | ⟨hclr, -⟩ | ⟨hlive, -⟩
  · exact absurd (ht.symm.trans (hsame.trans hs)) Bool.false_ne_true
  · exact hclr
  · exact absurd (hlive.symm.trans hs) Bool.false_ne_true

/-! ### The obligations -/

/-- Settles O19: NOP only responds. -/
theorem nopChangesNothing : Obligations.NopChangesNothing :=
  fun _ _ s => ⟨decode_cmdWord .., s.respond 0, rfl, answers_respond s 0, noStateChange_respond s 0⟩

/-- Settles O20: the fields of the cleared state, and the two rules of CLR on a reset block and in the faulted state. -/
theorem clrStartsANewSession : Obligations.ClrStartsANewSession := by
  refine ⟨fun _ _ s => ⟨decode_cmdWord .., s.clear.respond 0, rfl, answers_respond _ _, ?_⟩, fun p => ?_,
    fun _ _ _ => eq_clr_of_clears_fault⟩
  · exact ⟨rfl, rfl, rfl, rfl, rfl, rfl, read_nil, rfl, rfl, rfl, rfl, exec_rdsr_status_after_clr s⟩
  · refine ⟨(State.resetWith p).clear.respond 0, rfl, ?_⟩
    rw [clear_resetWith]
    exact noStateChange_respond _ _

/-- Settles O21: one rule per clause, and the table of the registers. -/
theorem rdsrReadsTheStatusRegisters : Obligations.RdsrReadsTheStatusRegisters := by
  refine fun r _ => ⟨decode_cmdWord .., fun s => ⟨rdsr_raises_badarg, fun hf hr => ?_, fun hr => ?_⟩⟩
  · exact ⟨s.refuse, exec_refuses hf (not_runsWhenFaulted_rdsr hr), refusedIn_refuse s⟩
  · obtain ⟨v, hv, t, hexec, hanswer, hsame⟩ := exec_rdsr_reads hr
    exact ⟨t, v, hexec, hanswer, hsame, readSr_values hv⟩

/-- Settles O23: one rule per clause; a cell of 64 bits holds every operand. -/
theorem stsStoresOneCell : Obligations.StsStoresOneCell := by
  refine fun _ v => ⟨decode_cmdWord .., fun s hf => ⟨sts_raises_badarg hf, sts_raises_range hf,
    fun hi hfit => ?_, fun hvw => ?_⟩⟩
  · exact ⟨_, exec_sts_stores hf hi hfit, answers_respond _ _, .refl s, .refl s, read_write_same _ _ _,
      cellAt_setCell_same _ _ _, fun j hj => sameCell_setCell_other s _ hj⟩
  · rw [hvw]
    exact v.isLt

/-- Settles O24: one rule per clause. -/
theorem ldsLoadsOneCell : Obligations.LdsLoadsOneCell :=
  fun _ _ => ⟨decode_cmdWord .., fun _ hf => ⟨lds_raises_badarg hf, fun hi =>
    ⟨_, exec_lds_loads hf hi, answers_respond _ _, noStateChange_respond _ _, fun _ => cellAt_of_read⟩⟩⟩

end Sys2Proof.Machine

/-!
O9, O11, O13: faults and the faulted state (60_exceptions.md). The commands that run in the faulted state and `rst` look
at no data: two faulted states that differ in their data only (`AgreeButData`) go through a transaction with the same
answer (`AnswerAlike`). Out of the faulted state a command answers normally or raises a cause R213 lists for it
(`EndsAsListed`); for ENC, DEC and BUILD the cause is one a single node or a single sum can raise.
-/

namespace Sys2Proof.Machine

/-! ### The transactions without a command (R229, R242) -/

/-- A transaction in which nothing is presented and nothing is in flight. -/
theorem step_idle {s : State} (hcfg : s.cfg.Valid) (hhost : s.host = []) (hflight : s.inFlight = none) :
    step s = .next s.idle := by
  unfold step
  rw [if_pos hcfg]
  simp [State.fetch, hflight, hhost]

/-- A transaction with `rst` (R242). -/
theorem step_reset {s : State} {rest : List HostInput} (hcfg : s.cfg.Valid) (hhost : s.host = .rst :: rest) :
    step s = .next (s.hardReset rest) := by
  unfold step
  rw [if_pos hcfg, hhost]

theorem noStateChange_idle (s : State) : NoStateChange s s.idle :=
  ⟨.refl s, .refl s, .of_seq rfl rfl rfl⟩

/-- Settles O13: the idle transaction ends the response pulse and nothing else. -/
theorem idleBlockKeepsItsState : Obligations.IdleBlockKeepsItsState :=
  fun s hcfg hhost hflight => ⟨s.idle, step_idle hcfg hhost hflight, noStateChange_idle s, rfl, hflight⟩

/-! ### Two blocks with different data -/

/-- `s` and `t` agree on everything but the data of the session: `SEQ`, `BITS`, `WP`, `RP`, the work stack and the last
response (R215). -/
structure AgreeButData (s t : State) : Prop where
  cfg : t.cfg = s.cfg
  fault : t.fault = s.fault
  cause : t.cause = s.cause
  finfo : t.finfo = s.finfo
  host : t.host = s.host
  inFlight : t.inFlight = s.inFlight
  freeTick : t.freeTick = s.freeTick

/-- The two blocks show the same response, and no difference is left between them once they are out of the faulted
state. -/
structure AnswerAlike (s t : State) : Prop extends AgreeButData s t where
  rsp : t.rsp = s.rsp
  eq_of_live : s.fault = false → t = s

theorem AnswerAlike.refl (s : State) : AnswerAlike s s where
  cfg := rfl
  fault := rfl
  cause := rfl
  finfo := rfl
  host := rfl
  inFlight := rfl
  freeTick := rfl
  rsp := rfl
  eq_of_live _ := rfl

/-- Both outcomes are next states, which answer alike. -/
def OutcomesAlike (o o' : Host.Outcome State Fault Refusal) : Prop :=
  ∃ s t, o = .next s ∧ o' = .next t ∧ AnswerAlike s t

/-- RDSR of a register that is readable in the faulted state only responds (R78, R178). -/
theorem exec_rdsr_responds {r : IndexWord} {s : State} {v : DataWord} (hr : readableWhenFaulted r.toNat = true)
    (hv : s.readSr r.toNat = some v) : exec (.rdsr r) s = .next (s.respond v) := by
  simp [exec, execRdsr, hr, hv]

namespace AgreeButData

variable {s t : State}

theorem accept (h : AgreeButData s t) (w : CmdWord) (rest : List HostInput) :
    AgreeButData (s.accept w rest) (t.accept w rest) :=
  { h with host := rfl, inFlight := rfl, freeTick := congrArg (· + 1) h.freeTick }

/-- A reset looks at the parameters and the model's counter only (R240). -/
theorem hardReset_eq (h : AgreeButData s t) (rest : List HostInput) : t.hardReset rest = s.hardReset rest := by
  rw [State.hardReset, State.hardReset, h.cfg, h.freeTick]

/-- CLR overwrites every field in which the two differ (R177). -/
theorem clear_eq (h : AgreeButData s t) (res : DataWord) : t.clear.respond res = s.clear.respond res := by
  simp [State.clear, State.respond, h.cfg, h.host, h.freeTick]

/-- The filter of R78 leaves out the two registers that show data, `WP` and `RP`. -/
theorem readSr_eq (h : AgreeButData s t) {r : Nat} (hr : readableWhenFaulted r = true) : t.readSr r = s.readSr r := by
  simp only [readableWhenFaulted, Bool.or_eq_true, beq_iff_eq] at hr
  rcases hr with (((rfl | rfl) | rfl) | rfl) | rfl <;>
    simp [State.readSr, h.cfg, h.fault, h.cause, h.finfo]

section Faulted

variable (h : AgreeButData s t) (hf : s.fault = true)
include h hf

theorem respond (res : DataWord) : AnswerAlike (s.respond res) (t.respond res) :=
  { h with inFlight := rfl, rsp := rfl, eq_of_live := fun hlive => by simp [hf] at hlive }

theorem refuse : AnswerAlike s.refuse t.refuse :=
  { h with
    inFlight := rfl
    rsp := congrArg (fun c => some (faultResponse c)) h.cause
    eq_of_live := fun hlive => by simp [hf] at hlive }

theorem idle : AnswerAlike s.idle t.idle :=
  { h with rsp := rfl, eq_of_live := fun hlive => by simp [hf] at hlive }

/-- The commands that run in the faulted state look at no data (R78, R215). -/
theorem exec_alike {i : Instr} (hi : runsWhenFaulted i) : OutcomesAlike (exec i s) (exec i t) := by
  cases i with
  | nop => exact ⟨_, _, rfl, rfl, h.respond hf 0⟩
  | clr => exact ⟨_, _, rfl, congrArg Host.Outcome.next (h.clear_eq 0), .refl _⟩
  | rdsr r =>
    rw [runsWhenFaulted_rdsr, ← readableWhenFaulted_iff] at hi
    obtain ⟨v, hv⟩ := readSr_of_readableWhenFaulted hi s
    exact ⟨_, _, exec_rdsr_responds hi hv, exec_rdsr_responds hi ((h.readSr_eq hi).trans hv), h.respond hf v⟩
  | _ => exact hi.elim

/-- A word of such a command runs alike, and every other word is refused in both blocks (R78). -/
theorem runWord_alike (w : CmdWord) : OutcomesAlike (runWord w s) (runWord w t) := by
  by_cases hw : ∀ i, decode w = .ok i → ¬runsWhenFaulted i
  · exact ⟨_, _, runWord_refuses hf hw, runWord_refuses (h.fault.trans hf) hw, h.refuse hf⟩
  · push Not at hw
    obtain ⟨i, hdec, hi⟩ := hw
    rw [runWord_of_decode hdec, runWord_of_decode hdec]
    exact h.exec_alike hf hi

/-- One transaction of two faulted blocks that differ in their data: a reset, the command in flight, a command
presented, or nothing. -/
theorem step_alike (hcfg : s.cfg.Valid) : OutcomesAlike (step s) (step t) := by
  have hcfg' : t.cfg.Valid := h.cfg ▸ hcfg
  by_cases hrst : ∃ rest, s.host = .rst :: rest
  · obtain ⟨rest, hhost⟩ := hrst
    refine ⟨_, _, step_reset hcfg hhost, ?_, .refl _⟩
    rw [step_reset hcfg' (h.host.trans hhost), h.hardReset_eq]
  · have hno : ∀ rest, s.host ≠ .rst :: rest := not_exists.1 hrst
    cases hflight : s.inFlight with
    | some w =>
      rw [step_inFlight hcfg hno hflight, step_inFlight hcfg' (h.host ▸ hno) (h.inFlight.trans hflight)]
      exact h.runWord_alike hf w
    | none =>
      have hflight' := h.inFlight.trans hflight
      cases hhost : s.host with
      | nil => exact ⟨_, _, step_idle hcfg hhost hflight, step_idle hcfg' (h.host.trans hhost) hflight', h.idle hf⟩
      | cons input rest =>
        cases input with
        | rst => exact absurd hhost (hno rest)
        | command w =>
          rw [step_presented hcfg hflight hhost, step_presented hcfg' hflight' (h.host.trans hhost)]
          exact (h.accept w rest).runWord_alike hf w

end Faulted

end AgreeButData

/-- Settles O9: `AgreeButData.step_alike`, its conclusion taken apart. -/
theorem faultedBlockHidesItsData : Obligations.FaultedBlockHidesItsData := by
  intro s t hcfg hs ht hcfg' hcause hfinfo hhost hflight htick
  have h : AgreeButData s t := ⟨hcfg', ht.trans hs.symm, hcause, hfinfo, hhost, hflight, htick⟩
  obtain ⟨s', t', hstep, hstep', h'⟩ := h.step_alike hs hcfg
  exact ⟨s', t', hstep, hstep', h'.rsp, h'.fault, h'.cfg, h'.cause, h'.finfo, h'.host, h'.inFlight, h'.freeTick,
    h'.eq_of_live⟩

/-! ### The faults of the passes and the traversals -/

theorem putField_error_cause {s : State} {w v : Nat} {e : Raise} (he : s.putField w v = .error e) :
    e.cause = .capacity := by
  obtain ⟨-, rfl⟩ := (putField_error_iff ..).1 he
  rfl

theorem getField_error_cause {s : State} {w : Nat} {e : Raise} (he : s.getField w = .error e) :
    e.cause = .underflow := by
  obtain ⟨-, rfl⟩ := (getField_error_iff ..).1 he
  rfl

theorem encNode_error_cause {l h : Nat} {s : State} {e : Raise} (he : encNode l h s = .error e) :
    e.cause = .capacity := by
  rcases encNode_cases l h s with ⟨-, hv⟩ | ⟨-, -, ⟨-, hv⟩ | ⟨-, hv⟩⟩ <;> cases hv.symm.trans he
  rfl

theorem decNode_error_cause {l h : Nat} {s : State} {e : Raise} (he : decNode l h s = .error e) :
    e.cause = .underflow ∨ e.cause = .badcode := by
  rcases decNode_cases l h s with ⟨-, hv⟩ | ⟨-, -, hv⟩ | ⟨-, -, ⟨-, hv⟩ | ⟨-, ⟨-, hv⟩ | ⟨-, hv⟩⟩⟩ <;>
    cases hv.symm.trans he
  · exact .inl rfl
  · exact .inr rfl

/-- A fault of the traversal is a fault of one of its visits. -/
theorem coderLoop_error {visit : Visit} {e : Raise} {k : Nat} {s : State} (he : coderLoop visit k s = .error e) :
    ∃ l h u, visit l h u = .error e := by
  induction k generalizing s with
  | zero => cases he
  | succ k ih =>
    unfold coderLoop at he
    split at he
    · cases he
    · split at he
      · cases he
        exact ⟨_, _, _, ‹_›⟩
      · exact ih he
      · exact ih he

theorem buildLoop_error_cause {k i : Nat} {s : State} {e : Raise} (he : buildLoop k i s = .error e) :
    e.cause = .range := by
  induction k generalizing i s with
  | zero => cases he
  | succ k ih =>
    rcases buildLoop_succ k i s with ⟨-, hstep⟩ | ⟨-, hstep⟩ <;> rw [hstep] at he
    · cases he
      rfl
    · exact ih he

/-! ### The faults of the commands (R213) -/

/-- How command `i` can end out of the faulted state: with a normal response, or with a cause of its row of R213. -/
inductive EndsAsListed (i : Instr) (s : State) : State → Prop
  | responds (u : State) (res : DataWord) : EndsAsListed i s (u.respond res)
  | raises {c : Cause} (hc : c ∈ faultsOf i) (info : DataWord) : EndsAsListed i s (s.raise c info)

/-- One check of R213: its fault, which has to be listed, or what comes after it. -/
theorem EndsAsListed.check {i : Instr} {s t : State} {p : Prop} [Decidable p] {c : Cause} {info : DataWord}
    (ht : EndsAsListed i s t) (hc : c ∈ faultsOf i := by simp [faultsOf]) :
    EndsAsListed i s (if p then s.raise c info else t) := by
  split
  · exact .raises hc info
  · exact ht

section Commands

variable {s : State} (hf : s.fault = false)
include hf

/-- Out of the faulted state only the executed command is left to look at. -/
theorem runCommand_endsAsListed {i : Instr} {f : State → State} {t : State} (h : runCommand f s = .next t)
    (hend : EndsAsListed i s (f s)) : EndsAsListed i s t := by
  rw [runCommand_live f hf] at h
  cases h
  exact hend

theorem execRdsr_endsAsListed {r : IndexWord} {t : State} (h : execRdsr r s = .next t) :
    EndsAsListed (.rdsr r) s t := by
  rw [execRdsr, hf, Bool.false_and, if_neg Bool.false_ne_true] at h
  cases h
  split
  · exact .responds _ _
  · exact .raises (by simp [faultsOf]) _

theorem execSts_endsAsListed {i : IndexWord} {v : DataWord} {t : State} (h : execSts i v s = .next t) :
    EndsAsListed (.sts i v) s t :=
  runCommand_endsAsListed hf h (.check (.check (.responds _ _)))

theorem execLds_endsAsListed {i : IndexWord} {t : State} (h : execLds i s = .next t) : EndsAsListed (.lds i) s t :=
  runCommand_endsAsListed hf h (.check (.responds _ _))

theorem execBwrite_endsAsListed {w : IndexWord} {v : DataWord} {t : State} (h : execBwrite w v s = .next t) :
    EndsAsListed (.bwrite w v) s t := by
  refine runCommand_endsAsListed hf h (.check (.check ?_))
  split
  · exact .responds _ _
  · exact .raises (by simp [faultsOf, putField_error_cause ‹_›]) _

theorem execBread_endsAsListed {w : IndexWord} {t : State} (h : execBread w s = .next t) :
    EndsAsListed (.bread w) s t := by
  refine runCommand_endsAsListed hf h (.check ?_)
  split
  · exact .responds _ _
  · exact .raises (by simp [faultsOf, getField_error_cause ‹_›]) _

/-- BPACK always has room for its padding, by `WP <= BCAP` and whole bytes of capacity (R107). -/
theorem exec_bpack_endsAsListed (hinv : s.Inv) {t : State} (h : exec .bpack s = .next t) : EndsAsListed .bpack s t := by
  obtain ⟨-, -, hbytes, -, -⟩ := hinv.cfg_valid
  rw [exec_bpack_pads hf (add_padding_le hbytes hinv.wp_le)] at h
  cases h
  exact .responds _ _

theorem execEnc_endsAsListed {l : IndexWord} {h : DataWord} {t : State} (he : execEnc l h s = .next t) :
    EndsAsListed (.enc l h) s t := by
  refine runCommand_endsAsListed hf he (.check ?_)
  split
  · exact .raises (by simp [faultsOf]) _
  · split
    · exact .responds _ _
    · obtain ⟨_, _, _, hvisit⟩ := coderLoop_error ‹_›
      exact .raises (by simp [faultsOf, encNode_error_cause hvisit]) _

theorem execDec_endsAsListed {l : IndexWord} {h : DataWord} {t : State} (he : execDec l h s = .next t) :
    EndsAsListed (.dec l h) s t := by
  refine runCommand_endsAsListed hf he (.check (.check ?_))
  split
  · exact .responds _ _
  · obtain ⟨_, _, _, hvisit⟩ := coderLoop_error ‹_›
    rcases decNode_error_cause hvisit with hc | hc <;> exact .raises (by simp [faultsOf, hc]) _

theorem execBuild_endsAsListed {n : IndexWord} {t : State} (h : execBuild n s = .next t) :
    EndsAsListed (.build n) s t := by
  refine runCommand_endsAsListed hf h (.check ?_)
  split
  · exact .responds _ _
  · exact .raises (by simp [faultsOf, buildLoop_error_cause ‹_›]) _

theorem execInvert_endsAsListed {n : IndexWord} {t : State} (h : execInvert n s = .next t) :
    EndsAsListed (.invert n) s t := by
  refine runCommand_endsAsListed hf h (.check ?_)
  split
  · exact .raises (by simp [faultsOf]) _
  · exact .responds _ _

theorem execMap_endsAsListed {e : DataWord} {t : State} (h : execMap e s = .next t) : EndsAsListed (.map e) s t :=
  runCommand_endsAsListed hf h (.responds _ _)

theorem execUnmap_endsAsListed {n : DataWord} {t : State} (h : execUnmap n s = .next t) :
    EndsAsListed (.unmap n) s t :=
  runCommand_endsAsListed hf h (.responds _ _)

theorem execSte_endsAsListed {i : IndexWord} {e : DataWord} {t : State} (h : execSte i e s = .next t) :
    EndsAsListed (.ste i e) s t :=
  runCommand_endsAsListed hf h (.check (.check (.responds _ _)))

theorem execLde_endsAsListed {i : IndexWord} {t : State} (h : execLde i s = .next t) : EndsAsListed (.lde i) s t :=
  runCommand_endsAsListed hf h (.check (.responds _ _))

/-- The table of R213, row by row. -/
theorem exec_endsAsListed (hinv : s.Inv) {i : Instr} {t : State} (h : exec i s = .next t) : EndsAsListed i s t := by
  cases i with
  | nop => cases h; exact .responds s 0
  | clr => cases h; exact .responds s.clear 0
  | rdsr r => exact execRdsr_endsAsListed hf h
  | sts c v => exact execSts_endsAsListed hf h
  | lds c => exact execLds_endsAsListed hf h
  | bwrite w v => exact execBwrite_endsAsListed hf h
  | bread w => exact execBread_endsAsListed hf h
  | bpack => exact exec_bpack_endsAsListed hf hinv h
  | enc l h' => exact execEnc_endsAsListed hf h
  | dec l h' => exact execDec_endsAsListed hf h
  | build n => exact execBuild_endsAsListed hf h
  | invert n => exact execInvert_endsAsListed hf h
  | map e => exact execMap_endsAsListed hf h
  | unmap n => exact execUnmap_endsAsListed hf h
  | ste c e => exact execSte_endsAsListed hf h
  | lde c => exact execLde_endsAsListed hf h

/-- A normal response leaves `FAULT` at 0, since fault entry reports its cause (R214). -/
theorem fault_of_exec_responds {i : Instr} {u : State} {res : DataWord} (h : exec i s = .next (u.respond res)) :
    (u.respond res).fault = false := by
  rcases exec_faultRegisters h with ⟨hsame, -⟩ | ⟨-, hclear⟩ | ⟨-, -, c, -, hreport⟩
  · exact hsame.trans hf
  · exact hclear
  · cases hreport

end Commands

/-- Settles O11: a command that faults did not respond normally, so it raised a listed cause. -/
theorem faultsEachCommandCanRaise : Obligations.FaultsEachCommandCanRaise := by
  intro i s t hinv hf h ht
  cases exec_endsAsListed hf hinv h with
  | responds u res => exact absurd (ht.symm.trans (fault_of_exec_responds hf h)) nofun
  | raises hc info => exact ⟨_, info, hc, faultEntered_raise s _ info⟩

end Sys2Proof.Machine

/-!
O14: reset and CLR (70_reset_and_hazards.md). The reset transaction is `step_reset`; what it leaves in each field, and
what CLR leaves there, is said by the `@[simp]` lemmas of `State.hardReset`, `State.clear` and `State.respond`.
-/

namespace Sys2Proof.Machine

/-! ### The block is ready afterwards (R77) -/

@[simp] theorem hardReset_cmdReady (s : State) (rest : List HostInput) : (s.hardReset rest).cmdReady = true := rfl

@[simp] theorem respond_cmdReady (s : State) (res : DataWord) : (s.respond res).cmdReady = true := rfl

/-- CLR passes the filter of R78 in either state, and responds from the cleared state (R177). -/
theorem exec_clr (s : State) : exec .clr s = .next (s.clear.respond 0) := rfl

/-! ### The obligation -/

/-- Settles O14: `rst` leaves `State.hardReset` whatever is in flight, and CLR leaves `State.clear` with a response. -/
theorem resetTakesTheResetState : Obligations.ResetTakesTheResetState := by
  refine fun s => ⟨fun rest hcfg hhost => ⟨s.hardReset rest, step_reset hcfg hhost, ?_⟩,
    s.clear.respond 0, exec_clr s, ?_⟩
  · simp
  · simp [answers_respond]

end Sys2Proof.Machine
